-- ==== Sys2Proof/Word.lean ====
section
/-! DEFINITION. The fixed widths of HUFENC's ports and index spaces (00_scope.md R7, R11; 20_memory.md R62; 30_encoding.md R93). -/

namespace Sys2Proof

/-- One register word (20_memory.md R69). -/
abbrev Word := BitVec 32

/-- One symbol, "a byte value in [0,255]" (00_scope.md R7, R16). -/
abbrev Byte := BitVec 8

/-- One stream beat as its 10-bit number KIND[9:8], DATA[7:0] (30_encoding.md R93, R94). -/
abbrev BeatWord := BitVec 10

/-- The register port's word address `addr[14:2]`: the byte offset is four times its value, so an offset that is
not a multiple of 4 or that lies above 0x7FFC cannot be presented (20_memory.md R62, R71). -/
abbrev WordAddr := BitVec 13

/-- An index into the NODE_MAX = 511 node slots (00_scope.md R7, 10_state.md R28; log entry 10). -/
abbrev NodeIx := Fin 511

end Sys2Proof
end

