-- ==== Sys2Proof/Syntax.lean ====
section
/-! DEFINITION. The syntax: named values of the sequencing state, what the agents present at the ports, and `Instr`, one
constructor for each row of spec/opcode_table.json. -/

namespace Sys2Proof

/-- PHASE, the pipeline stage (10_state.md R22); the codes are in Machine/Flags.lean. -/
inductive Phase where
  | idle | count | counted | build | ready | encode | done | error
deriving DecidableEq, Repr

/-- BSUB, the build sub-step: which core step is pending (10_state.md R23). The value 3 is never held. -/
inductive BSub where
  | sort | merge | codegen
deriving DecidableEq, Repr

/-- A beat of the output queue (30_encoding.md R94). KIND 0b11 is never produced. -/
inductive OutBeat where
  /-- KIND 0b00: one packed byte of the artifact. -/
  | data (b : Byte)
  /-- KIND 0b01, DATA 0: the artifact of this pass is complete. -/
  | endBeat
  /-- KIND 0b10, DATA 0: the artifact of this pass is invalid. -/
  | abort
deriving DecidableEq, Repr

/-- What one agent presents to HUFENC in one step, before it is decoded (20_memory.md R60). -/
inductive PortWord where
  /-- `MemRead(4 a, 4)` at the register port (20_memory.md R62). -/
  | hostRead (a : WordAddr)
  /-- `MemWrite(4 a, 4, v)` at the register port (20_memory.md R63). -/
  | hostWrite (a : WordAddr) (v : Word)
  /-- A beat offered at the input port (20_memory.md R72). -/
  | inBeat (w : BeatWord)
  /-- The transfer of one beat at the output port, by its number (20_memory.md R73, 30_encoding.md R94, R109). -/
  | outBeat (w : BeatWord)
  /-- The sink's take step (45_stream_encoder.md R229). -/
  | sinkTake
  /-- The sink's failure report (45_stream_encoder.md R230). -/
  | sinkFail
  /-- The core's turn: an internal step has no encoding (30_encoding.md R111). -/
  | core
  /-- The reset input asserted (70_reset_and_hazards.md R280). -/
  | reset
deriving DecidableEq, Repr

/-- One turn of one agent, as the listed turns have it. The source's turn carries no beat: it lets the beat at
the head of the source's list be accepted, and a beat that is not accepted stays there (20_memory.md R72). -/
inductive Event where
  | hostRead (a : WordAddr)
  | hostWrite (a : WordAddr) (v : Word)
  | source
  | outBeat (w : BeatWord)
  | sinkTake
  | sinkFail
  | core
  | reset
deriving DecidableEq, Repr

/-- One constructor for each row of spec/opcode_table.json. -/
inductive Instr where
  /-- NOP: word 0x00000000 (40_commands.md R121). -/
  | nop
  /-- CLEAR: word 0x00000001 (R122). -/
  | clear
  /-- COUNT: word 0x00000002 (R123). -/
  | count
  /-- BUILD: word 0x00000003 (R124). -/
  | build
  /-- ENCODE: word 0x00000004 (R125). -/
  | encode
  /-- CMD_ILLEGAL_OP5: word 0x00000005 (R126). -/
  | cmdIllegalOp5
  /-- CMD_ILLEGAL_OP6_7: words 0x00000006 and 0x00000007; `x` is bit 0 (R126). -/
  | cmdIllegalOp67 (x : BitVec 1)
  /-- CMD_ILLEGAL_OP8_F: words 0x00000008 to 0x0000000F; `x` is bits 2:0 (R126). -/
  | cmdIllegalOp8F (x : BitVec 3)
  /-- CMD_ILLEGAL_RSVD: every word whose RSVD field v[31:4] is not 0, whatever OP (R126). -/
  | cmdIllegalRsvd (rsvd : BitVec 28) (op : BitVec 4)
  /-- IN_DATA@COUNT (41_frequency_counter.md R141). -/
  | inDataCount (b : Byte)
  /-- IN_END@COUNT; `d` is the ignored DATA field (R143). -/
  | inEndCount (d : Byte)
  /-- IN_ERROR@COUNT; `d` is ignored (R144). -/
  | inErrorCount (d : Byte)
  /-- IN_RSVD@COUNT: KIND 0b11, treated as ERROR; `d` is ignored (R144). -/
  | inRsvdCount (d : Byte)
  /-- IN_DATA@ENCODE (45_stream_encoder.md R222). -/
  | inDataEncode (b : Byte)
  /-- IN_END@ENCODE; `d` is ignored (R226). -/
  | inEndEncode (d : Byte)
  /-- IN_ERROR@ENCODE; `d` is ignored (R228). -/
  | inErrorEncode (d : Byte)
  /-- IN_RSVD@ENCODE: KIND 0b11, treated as ERROR; `d` is ignored (R228). -/
  | inRsvdEncode (d : Byte)
  /-- IN_ANY@OTHER: any beat in IDLE, COUNTED, BUILD, READY, DONE or ERROR (20_memory.md R72). -/
  | inAnyOther (kind : BitVec 2) (d : Byte)
  /-- OUT_DATA: the transfer of a DATA beat at the output port (45_stream_encoder.md R221, R229). -/
  | outData (b : Byte)
  /-- OUT_END: the transfer of the END beat (R226, R229). -/
  | outEnd
  /-- OUT_ABORT: the transfer of an ABORT beat (60_exceptions.md R252, 45_stream_encoder.md R229). -/
  | outAbort
  /-- REG_READ: `MemRead(4 a, 4)` (20_memory.md R62). -/
  | regRead (a : WordAddr)
  /-- REG_WRITE: `MemWrite(4 a, 4, v)` (20_memory.md R63). -/
  | regWrite (a : WordAddr) (v : Word)
  /-- SNK_TAKE (45_stream_encoder.md R229). -/
  | snkTake
  /-- SNK_FAIL (45_stream_encoder.md R230). -/
  | snkFail
  /-- SORT, a core step (42_leaf_orderer.md R163). -/
  | sort
  /-- MERGE, a core step (43_tree_builder.md R181). -/
  | merge
  /-- CODEGEN, a core step (44_code_generator.md R200). -/
  | codegen
  /-- RESET (70_reset_and_hazards.md R280). -/
  | reset
deriving DecidableEq, Repr

end Sys2Proof
end

