-- ==== Sys2Proof/Config.lean ====
section
/-! DEFINITION. What an implementation fixes (00_scope.md R8 to R10), and the free values: what a read in BUILD returns (20_memory.md
R68), and how the agents go on without end (R60, R72). -/

namespace Sys2Proof

/-- The two implementation parameters (00_scope.md R10). `State` carries them unchanged (log entry 1). -/
structure Config where
  /-- CNT_W: width in bits of every frequency counter (00_scope.md R8). -/
  cntW : Nat
  /-- OUT_FIFO_DEPTH: the number of beats OUTQ holds (00_scope.md R9). -/
  depth : Nat
deriving DecidableEq, Repr

/-- The default parameters: CNT_W = 32 and OUT_FIFO_DEPTH = 32 (00_scope.md R8, R9). -/
def Config.default : Config := { cntW := 32, depth := 32 }

/-- The legal ranges 1 ≤ CNT_W ≤ 32 and 32 ≤ OUT_FIFO_DEPTH ≤ 255 (00_scope.md R8, R9). -/
abbrev Config.Legal (c : Config) : Prop :=
  1 ≤ c.cntW ∧ c.cntW ≤ 32 ∧ 32 ≤ c.depth ∧ c.depth ≤ 255

/-- FREE VALUE. The k-th unspecified 32-bit value that a register read returns while PHASE = BUILD: "a fresh draw with
no law" (20_memory.md R68; log entry 7). It has no body that anything can evaluate. -/
opaque Config.freeRead : Nat → Word

/-- FREE VALUE. The k-th block of the agents' further turns: an execution is any finite or infinite sequence of steps, in any
order (20_memory.md R60). Each block is any finite list, and between two blocks the core has one turn, so the blocks together
are any endless sequence that is weakly fair to the core (R61; log entry 2). It has no body that anything can evaluate. -/
opaque Config.freeTurns : Nat → List Event

/-- FREE VALUE. The k-th block of the source's further beats: the source may offer any beat sequence, without end, and may stop
(20_memory.md R72, 70_reset_and_hazards.md R293; log entry 4). It has no body that anything can evaluate. -/
opaque Config.freeBeats : Nat → List BeatWord

end Sys2Proof
end

