-- ==== Sys2Proof/WellFormed.lean ====
section
/-! DEFINITION. Which terms of `Instr` a row of the opcode table selects. Every other bound is in the constructor's own field
widths (a symbol is a `Byte`, an offset a `WordAddr`). -/

namespace Sys2Proof

/-- The checks. A word is of the row CMD_ILLEGAL_RSVD only when RSVD ≠ 0 (30_encoding.md R92); a beat's KIND is in
its row already; and a write whose offset is CMD (byte offset 0x004, word address 1) is that command's row, so the row
REG_WRITE itself is selected by every other offset (20_memory.md R63; log entry 6). -/
def Instr.wellFormed : Instr → Bool
  | .cmdIllegalRsvd rsvd _ => rsvd != 0#28
  | .regWrite a _ => a != 1#13
  | .nop | .clear | .count | .build | .encode | .cmdIllegalOp5 | .cmdIllegalOp67 _ | .cmdIllegalOp8F _ => true
  | .inDataCount _ | .inEndCount _ | .inErrorCount _ | .inRsvdCount _ => true
  | .inDataEncode _ | .inEndEncode _ | .inErrorEncode _ | .inRsvdEncode _ | .inAnyOther _ _ => true
  | .outData _ | .outEnd | .outAbort | .regRead _ | .snkTake | .snkFail => true
  | .sort | .merge | .codegen | .reset => true

/-- Where a row of the table is selected by the sequencing state and not by the word alone: the `phase` and `enabled`
columns of the table (20_memory.md R72, 41_frequency_counter.md R140, 45_stream_encoder.md R220, 30_encoding.md R111). -/
def Instr.selectedIn (ph : Phase) (bs : BSub) : Instr → Bool
  | .inDataCount _ | .inEndCount _ | .inErrorCount _ | .inRsvdCount _ => ph = .count
  | .inDataEncode _ | .inEndEncode _ | .inErrorEncode _ | .inRsvdEncode _ => ph = .encode
  | .inAnyOther _ _ => ph ≠ .count ∧ ph ≠ .encode
  | .sort => ph = .build ∧ bs = .sort
  | .merge => ph = .build ∧ bs = .merge
  | .codegen => ph = .build ∧ bs = .codegen
  | .nop | .clear | .count | .build | .encode | .cmdIllegalOp5 | .cmdIllegalOp67 _ | .cmdIllegalOp8F _ => true
  | .cmdIllegalRsvd _ _ | .outData _ | .outEnd | .outAbort | .regRead _ | .regWrite _ _ => true
  | .snkTake | .snkFail | .reset => true

end Sys2Proof
end

