-- ==== Sys2Proof/Decode.lean ====
section
/-! DEFINITION. Decoding: from what an agent presents at a port, and the sequencing state that selects among the rows of a
beat or a core step, to an instruction or a rejection by name (30_encoding.md R90 to R94, R111; 20_memory.md R72). After it
the encoder, and the opcode table's masks. -/

namespace Sys2Proof

/-! ## Command words -/

/-- CMD stands at byte offset 0x004, word address 1 (30_encoding.md R95). -/
def cmdAddr : WordAddr := 1#13

/-- RSVD, v[31:4] (30_encoding.md R90). -/
def rsvdField (v : Word) : BitVec 28 := v.extractLsb' 4 28

/-- OP, v[3:0] (30_encoding.md R90). -/
def opField (v : Word) : BitVec 4 := v.extractLsb' 0 4

/-- The row a command word selects: RSVD is looked at before OP, and every 32-bit word is one of the nine rows
(30_encoding.md R91, R92). -/
def decodeCommand (v : Word) : Instr :=
  if rsvdField v ≠ 0#28 then .cmdIllegalRsvd (rsvdField v) (opField v)
  else match (opField v).toNat with
    | 0 => .nop
    | 1 => .clear
    | 2 => .count
    | 3 => .build
    | 4 => .encode
    | 5 => .cmdIllegalOp5
    | 6 => .cmdIllegalOp67 0#1
    | 7 => .cmdIllegalOp67 1#1
    | n => .cmdIllegalOp8F (BitVec.ofNat 3 n)

/-! ## Beats -/

/-- KIND, bits 9:8 of a beat (30_encoding.md R93, R94). -/
def kindField (w : BeatWord) : BitVec 2 := w.extractLsb' 8 2

/-- DATA, bits 7:0 of a beat (30_encoding.md R93, R94). -/
def dataField (w : BeatWord) : Byte := w.extractLsb' 0 8

/-- A beat offered in pass 1 (41_frequency_counter.md R140). -/
def decodeBeatCount (w : BeatWord) : Instr :=
  match (kindField w).toNat with
  | 0 => .inDataCount (dataField w)
  | 1 => .inEndCount (dataField w)
  | 2 => .inErrorCount (dataField w)
  | _ => .inRsvdCount (dataField w)

/-- A beat offered in pass 2 (45_stream_encoder.md R220). -/
def decodeBeatEncode (w : BeatWord) : Instr :=
  match (kindField w).toNat with
  | 0 => .inDataEncode (dataField w)
  | 1 => .inEndEncode (dataField w)
  | 2 => .inErrorEncode (dataField w)
  | _ => .inRsvdEncode (dataField w)

/-- An input beat: PHASE and KIND select the row (20_memory.md R72). -/
def decodeInBeat (ph : Phase) (w : BeatWord) : Instr :=
  match ph with
  | .count => decodeBeatCount w
  | .encode => decodeBeatEncode w
  | .idle | .counted | .build | .ready | .done | .error => .inAnyOther (kindField w) (dataField w)

/-- Why a presented word is no step of HUFENC. -/
inductive DecodeError where
  /-- A word at the output port whose KIND is 0b11: never produced (30_encoding.md R94). -/
  | outKindReserved (w : BeatWord)
  /-- An END or ABORT word at the output port whose DATA is not 0: never produced (30_encoding.md R94). -/
  | outDataNotZero (w : BeatWord)
  /-- The core has the turn and no core step is enabled: PHASE ≠ BUILD (42_leaf_orderer.md R160, 43_tree_builder.md R180,
  44_code_generator.md R200). The turn passes; nothing is refused. -/
  | noCoreStep
deriving DecidableEq, Repr

/-- The transfer of an output beat, by its number (30_encoding.md R94). -/
def decodeOutBeat (w : BeatWord) : Except DecodeError Instr :=
  match (kindField w).toNat with
  | 0 => .ok (.outData (dataField w))
  | 1 => if dataField w = 0#8 then .ok .outEnd else .error (.outDataNotZero w)
  | 2 => if dataField w = 0#8 then .ok .outAbort else .error (.outDataNotZero w)
  | _ => .error (.outKindReserved w)

/-! ## Everything -/

/-- The core's turn: PHASE and BSUB select the step (30_encoding.md R111). -/
def decodeCore (ph : Phase) (bs : BSub) : Except DecodeError Instr :=
  match ph with
  | .build =>
    match bs with
    | .sort => .ok .sort
    | .merge => .ok .merge
    | .codegen => .ok .codegen
  | .idle | .count | .counted | .ready | .encode | .done | .error => .error .noCoreStep

/-- A register write: at CMD it is the command its word names, elsewhere REG_WRITE (20_memory.md R63, 40_commands.md R120). -/
def decodeWrite (a : WordAddr) (v : Word) : Instr :=
  if a = cmdAddr then decodeCommand v else .regWrite a v

/-- The decoder, total on whatever is presented. -/
def decode (ph : Phase) (bs : BSub) : PortWord → Except DecodeError Instr
  | .hostRead a => .ok (.regRead a)
  | .hostWrite a v => .ok (decodeWrite a v)
  | .inBeat w => .ok (decodeInBeat ph w)
  | .outBeat w => decodeOutBeat w
  | .sinkTake => .ok .snkTake
  | .sinkFail => .ok .snkFail
  | .core => decodeCore ph bs
  | .reset => .ok .reset

/-! ## The encoder -/

/-- A beat from its fields (30_encoding.md R93, R94). -/
def beatWord (kind : BitVec 2) (d : Byte) : BeatWord := kind ++ d

/-- A command word from its fields (30_encoding.md R90). -/
def commandWord (rsvd : BitVec 28) (op : BitVec 4) : Word := rsvd ++ op

/-- What presents an instruction at its port, from the encoding tables (30_encoding.md R90 to R94, R109, R111). -/
def encode : Instr → PortWord
  | .nop => .hostWrite cmdAddr (commandWord 0#28 0x0#4)
  | .clear => .hostWrite cmdAddr (commandWord 0#28 0x1#4)
  | .count => .hostWrite cmdAddr (commandWord 0#28 0x2#4)
  | .build => .hostWrite cmdAddr (commandWord 0#28 0x3#4)
  | .encode => .hostWrite cmdAddr (commandWord 0#28 0x4#4)
  | .cmdIllegalOp5 => .hostWrite cmdAddr (commandWord 0#28 0x5#4)
  | .cmdIllegalOp67 x => .hostWrite cmdAddr (commandWord 0#28 (0b011#3 ++ x))
  | .cmdIllegalOp8F x => .hostWrite cmdAddr (commandWord 0#28 (0b1#1 ++ x))
  | .cmdIllegalRsvd rsvd op => .hostWrite cmdAddr (commandWord rsvd op)
  | .inDataCount b | .inDataEncode b => .inBeat (beatWord 0b00#2 b)
  | .inEndCount d | .inEndEncode d => .inBeat (beatWord 0b01#2 d)
  | .inErrorCount d | .inErrorEncode d => .inBeat (beatWord 0b10#2 d)
  | .inRsvdCount d | .inRsvdEncode d => .inBeat (beatWord 0b11#2 d)
  | .inAnyOther kind d => .inBeat (beatWord kind d)
  | .outData b => .outBeat (beatWord 0b00#2 b)
  | .outEnd => .outBeat (beatWord 0b01#2 0#8)
  | .outAbort => .outBeat (beatWord 0b10#2 0#8)
  | .regRead a => .hostRead a
  | .regWrite a v => .hostWrite a v
  | .snkTake => .sinkTake
  | .snkFail => .sinkFail
  | .sort | .merge | .codegen => .core
  | .reset => .reset

/-! ## The opcode table -/

/-- The `match` and `mask` of a row of spec/opcode_table.json that has them, as numbers; `none` for a row that has none. -/
def Instr.tableMask : Instr → Option (Nat × Nat)
  | .nop => some (0x00000000, 0xFFFFFFFF)
  | .clear => some (0x00000001, 0xFFFFFFFF)
  | .count => some (0x00000002, 0xFFFFFFFF)
  | .build => some (0x00000003, 0xFFFFFFFF)
  | .encode => some (0x00000004, 0xFFFFFFFF)
  | .cmdIllegalOp5 => some (0x00000005, 0xFFFFFFFF)
  | .cmdIllegalOp67 _ => some (0x00000006, 0xFFFFFFFE)
  | .cmdIllegalOp8F _ => some (0x00000008, 0xFFFFFFF8)
  | .inDataCount _ | .inDataEncode _ | .outData _ => some (0x000, 0x300)
  | .inEndCount _ | .inEndEncode _ => some (0x100, 0x300)
  | .inErrorCount _ | .inErrorEncode _ => some (0x200, 0x300)
  | .inRsvdCount _ | .inRsvdEncode _ => some (0x300, 0x300)
  | .inAnyOther _ _ => some (0x000, 0x000)
  | .outEnd => some (0x100, 0x3FF)
  | .outAbort => some (0x200, 0x3FF)
  | .cmdIllegalRsvd _ _ | .regRead _ | .regWrite _ _ | .snkTake | .snkFail | .sort | .merge | .codegen | .reset => none

/-- The number a port carries, where the table numbers it: the command word, or the beat. -/
def PortWord.number : PortWord → Option Nat
  | .hostWrite _ v => some v.toNat
  | .inBeat w | .outBeat w => some w.toNat
  | .hostRead _ | .sinkTake | .sinkFail | .core | .reset => none

/-- Whether a number carries a row's fixed bits. -/
def matchesRow (row : Nat × Nat) (n : Nat) : Bool := n &&& row.2 == row.1

/-! ## The host's question -/

/-- What the decoder reads from a row's bits alone (log entry 14): 32 bits are a word written to CMD; a beat's ten bits, in
two bytes, are a beat offered in pass 1, because the same bits are rows of pass 1, of pass 2, of the other phases and of the
output port, and the bits alone do not say which. Every other width carries no row's bits. -/
def decodeTableWord (nbits w : Nat) : Option Instr :=
  if nbits = 32 then
    if w < 2 ^ 32 then some (decodeCommand (BitVec.ofNat 32 w)) else none
  else if nbits = 16 ∨ nbits = 10 then
    if w < 2 ^ 10 then some (decodeBeatCount (BitVec.ofNat 10 w)) else none
  else none

end Sys2Proof
end

