-- ==== Sys2Proof/Machine/State.lean ====
section
/-! DEFINITION. The state: HUFENC's own (10_state.md R43), the configuration it was built with, and the environment's side of
its ports; the reasons a step can stop; the state after reset. -/

namespace Sys2Proof.Machine

/-- The `kind` of a node: 0 = Leaf, 1 = Internal (10_state.md R28). -/
inductive NodeKind where
  | leaf | internal
deriving DecidableEq, Repr

/-- One slot of the node store (10_state.md R28). -/
structure Node where
  kind : NodeKind
  /-- The frequency, CNT_W bits. -/
  f : Nat
  /-- The symbol of a Leaf; 0 in an Internal node. -/
  sym : Byte
  /-- The children of an Internal node; 0 in a Leaf. -/
  left : NodeIx
  right : NodeIx
deriving DecidableEq, Repr

/-- The reset value of a slot: every field 0 (10_state.md R28). -/
def Node.zero : Node := { kind := .leaf, f := 0, sym := 0#8, left := 0, right := 0 }

/-- One entry of the code table: CODE_LEN and CODE_BITS, the bit-string in string order (10_state.md R32, 00_scope.md R12). -/
structure CodeEntry where
  len : Nat
  bits : List Bool
deriving DecidableEq, Repr

/-- No code (10_state.md R32). -/
def CodeEntry.none : CodeEntry := { len := 0, bits := [] }

/-- ERR_CODE (30_encoding.md R108, 60_exceptions.md R250). The values 8..15 are never written. -/
inductive ErrCode where
  | none | ioRead | ioWrite | countOvf | noCode | lenMismatch | cmdIllegal | cmdSeq
deriving DecidableEq, Repr

/-- HUFENC's own state, one field for each row of 10_state.md R43. Counters are natural numbers, as the spec's pseudocode
takes them (00_scope.md R11); Safety.lean states their widths as an invariant (log entry 10). -/
structure Hw where
  phase : Phase
  bsub : BSub
  hist : Vector Nat 256
  total : Nat
  nsym : Nat
  maxf : Nat
  node : Vector Node 511
  nnodes : Nat
  seq : List NodeIx
  root : NodeIx
  rootValid : Bool
  code : Vector CodeEntry 256
  acc : Byte
  nacc : Fin 8
  encIn : Nat
  encOut : Nat
  encBits : Nat
  lastbits : Fin 8
  lbValid : Bool
  outq : List OutBeat
  errCode : ErrCode
  errPhase : Phase
deriving DecidableEq, Repr

/-- The reset values (10_state.md R43). -/
def Hw.reset : Hw where
  phase := .idle
  bsub := .sort
  hist := Vector.replicate 256 0
  total := 0
  nsym := 0
  maxf := 0
  node := Vector.replicate 511 Node.zero
  nnodes := 0
  seq := []
  root := 0
  rootValid := false
  code := Vector.replicate 256 CodeEntry.none
  acc := 0#8
  nacc := 0
  encIn := 0
  encOut := 0
  encBits := 0
  lastbits := 0
  lbValid := false
  outq := []
  errCode := .none
  errPhase := .idle

/-- The environment's side of the ports: the model's own fields (log entries 2, 4, 7, 8). -/
structure Env where
  /-- The agents' turns listed to come, oldest first (20_memory.md R60); when none is listed the core has one turn (R61), and the
  next block of further turns is listed. -/
  events : List Event
  /-- How many blocks of further turns have been listed (20_memory.md R60). -/
  turnBlocks : Nat
  /-- The beats the source has listed to deliver; the head is the one it offers (20_memory.md R72). When its turn finds none
  listed, it offers none in that turn, and the next block of further beats is listed. -/
  src : List BeatWord
  /-- How many blocks of further beats have been listed (20_memory.md R72). -/
  beatBlocks : Nat
  /-- What the register reads returned, oldest first (20_memory.md R62). -/
  readLog : List Word
  /-- The beats the sink took, oldest first (45_stream_encoder.md R229, 70_reset_and_hazards.md R292). -/
  taken : List OutBeat
  /-- How many unspecified values have been drawn (20_memory.md R68). -/
  draws : Nat
deriving DecidableEq, Repr

/-- No turn listed, nothing offered, nothing observed yet (DESIGN CHOICE, log entry 2). -/
def Env.quiet : Env := 
  { events := [], turnBlocks := 0, src := [], beatBlocks := 0, readLog := [], taken := [], draws := 0 }

/-- The whole state. -/
structure State where
  /-- CNT_W and OUT_FIFO_DEPTH: no step changes them (00_scope.md R10; log entry 1). -/
  cfg : Config
  hw : Hw
  env : Env
deriving DecidableEq, Repr

/-- The machine right after reset (70_reset_and_hazards.md R280), with the default parameters (00_scope.md R8, R9). -/
def State.reset : State := { cfg := Config.default, hw := Hw.reset, env := Env.quiet }

/-- Why a step stops with a fault. Each is an assertion: what the spec calls unreachable, or derives to be so, and so no
state a run reaches raises one. All are safe: the model stops where the spec says nothing (log entry 9). -/
inductive Fault where
  /-- A push into a full OUTQ: "A model may treat a push_out into a full OUTQ as unreachable, and should assert it"
  (45_stream_encoder.md R227). Raised by IN_DATA@ENCODE and IN_END@ENCODE. Safe. -/
  | outqFull
  /-- MERGE with fewer than two entries in SEQ: derived impossible (43_tree_builder.md R180). Raised by MERGE. Safe. -/
  | seqTooShort
  /-- MERGE with no free node slot: derived impossible (43_tree_builder.md R186). Raised by MERGE. Safe. -/
  | nodeStoreFull
  /-- A walk of more than NODE_MAX nodes without a Leaf: the nodes under ROOT form no tree, derived impossible (10_state.md
  R41). Raised by CODEGEN. Safe. -/
  | notATree
deriving DecidableEq, Repr

/-- Why a step is refused. -/
inductive Refusal where
  /-- An instruction that has no meaning yet, by its mnemonic. Raised by an arm of `exec`; no arm raises it. Safe. -/
  | notModelled (mnemonic : String)
  /-- A word presented at the output port that HUFENC never produces (30_encoding.md R94): it is no row of the opcode
  table. Raised by `step`. Safe (log entry 17). -/
  | undecodable (why : DecodeError)
deriving DecidableEq, Repr

end Sys2Proof.Machine
end

