-- ==== Sys2Proof/Machine/Ops.lean ====
section
/-! DEFINITION. The named operations over HUFENC's state that the steps share: array access, the output queue, accepting a beat,
waiting, the one error entry (60_exceptions.md R252) and its one exit (40_commands.md R122, R254). -/

namespace Sys2Proof.Machine

/-- What a step answers. -/
abbrev Result := Host.Outcome State Fault Refusal

/-- CNT_MAX = 2^CNT_W - 1 (00_scope.md R8). -/
def cntMax (c : Config) : Nat := 2 ^ c.cntW - 1

/-- The symbols in ascending order (42_leaf_orderer.md R162). -/
def symbols : List Byte := (List.range 256).map (BitVec.ofNat 8)

/-! ## Array access (00_scope.md R14) -/

/-- HIST[b]. -/
def Hw.histAt (hw : Hw) (b : Byte) : Nat := hw.hist[b.toNat]'(b.isLt)

/-- HIST[b] <- v. -/
def Hw.setHist (hw : Hw) (b : Byte) (v : Nat) : Hw := { hw with hist := hw.hist.set b.toNat v b.isLt }

/-- NODE[i]. -/
def Hw.nodeAt (hw : Hw) (i : NodeIx) : Node := hw.node[i.val]

/-- NODE[i] <- n. -/
def Hw.setNode (hw : Hw) (i : NodeIx) (n : Node) : Hw := { hw with node := hw.node.set i.val n }

/-- CODE_LEN[b] and CODE_BITS[b]. -/
def Hw.codeAt (hw : Hw) (b : Byte) : CodeEntry := hw.code[b.toNat]'(b.isLt)

/-- CODE_BITS[b] <- p ; CODE_LEN[b] <- len(p) in a code table (44_code_generator.md R200). -/
def recordCode (t : Vector CodeEntry 256) (b : Byte) (p : List Bool) : Vector CodeEntry 256 :=
  t.set b.toNat { len := p.length, bits := p } b.isLt

/-! ## The output queue -/

/-- `push_out(beat)`: append to the end of OUTQ; a push into a full OUTQ is asserted not to happen (45_stream_encoder.md R227). -/
def Hw.pushOut (depth : Nat) (b : OutBeat) (hw : Hw) : Option Hw :=
  if hw.outq.length < depth then some { hw with outq := hw.outq ++ [b] } else none

/-- OUT_FIFO_DEPTH - len(OUTQ) ≥ need (45_stream_encoder.md R220), over the integers. -/
def State.hasRoom (s : State) (need : Nat) : Bool := s.hw.outq.length + need ≤ s.cfg.depth

/-- The sink takes the head of OUTQ (45_stream_encoder.md R229): what is left, and the beat delivered. -/
def State.deliver (s : State) (b : OutBeat) (rest : List OutBeat) : State :=
  { s with hw := { s.hw with outq := rest }, env := { s.env with taken := s.env.taken ++ [b] } }

/-! ## Enabling and acceptance -/

/-- A step that is not enabled does not happen: the agent that offers it waits (00_scope.md R15; log entry 3). -/
def waits (s : State) : Result := .next s

/-- The offered beat is accepted: the source offers its next one (20_memory.md R72; log entry 4). -/
def State.acceptBeat (s : State) : State := { s with env := { s.env with src := s.env.src.tail } }

/-- The same state with HUFENC's own part replaced. -/
def State.withHw (s : State) (hw : Hw) : State := { s with hw := hw }

/-- A register read returns a word; it writes no state of HUFENC (20_memory.md R62). -/
def State.returnWord (s : State) (v : Word) : State := { s with env := { s.env with readLog := s.env.readLog ++ [v] } }

/-- A register read returns a fresh unspecified word (20_memory.md R68; log entry 7). -/
def State.returnFree (s : State) : State :=
  { s with env := { s.env with
    readLog := s.env.readLog ++ [Config.freeRead s.env.draws]
    draws := s.env.draws + 1 } }

/-! ## Errors: one entry, one exit -/

/-- The fatal-error procedure, `raise Error(code)`: the first error is kept with the phase it was raised in, an artifact that
was being written or not yet taken is replaced by one ABORT beat, and PHASE becomes ERROR (60_exceptions.md R252). -/
def Hw.raise (hw : Hw) (c : ErrCode) : Hw :=
  { hw with
    errCode := if hw.errCode = .none then c else hw.errCode
    errPhase := if hw.errCode = .none then hw.phase else hw.errPhase
    outq := if hw.phase = .encode ∨ hw.outq ≠ [] then [.abort] else hw.outq
    phase := .error
    bsub := .sort }

/-- CLEAR's procedure, the one way out of ERROR other than reset: every element takes its reset value, and an artifact that was
incomplete or not fully taken is replaced by one ABORT beat (40_commands.md R122, 60_exceptions.md R254). -/
def Hw.clear (hw : Hw) : Hw :=
  { Hw.reset with outq := if hw.phase = .encode ∨ hw.outq ≠ [] then [.abort] else [] }

/-- The step ends in the error entry (60_exceptions.md R252). -/
def State.raise (s : State) (c : ErrCode) : State := s.withHw (s.hw.raise c)

/-- A command outside the phases of 40_commands.md R127 raises CMD_SEQ, and in ERROR it is ignored (R128); in `ok` phases it
acts. -/
def command (ok : Bool) (act : Hw → Hw) (s : State) : Result :=
  if s.hw.phase = .error then .next s
  else if ok then .next (s.withHw (act s.hw))
  else .next (s.raise .cmdSeq)

/-- An illegal command word raises CMD_ILLEGAL, and in ERROR it is ignored (40_commands.md R126, R128). -/
def illegalCommand (s : State) : Result :=
  if s.hw.phase = .error then .next s else .next (s.raise .cmdIllegal)

/-- The beat is accepted and raises an error: it is consumed, and it has no other effect (60_exceptions.md R252). -/
def acceptAndRaise (c : ErrCode) (s : State) : Result := .next (s.acceptBeat.raise c)

/-- The beat is accepted and HUFENC's own state becomes `hw`. -/
def acceptWith (hw : Hw) (s : State) : Result := .next (s.acceptBeat.withHw hw)

end Sys2Proof.Machine
end

