-- ==== Sys2Proof/Machine/CodeGenerator.lean ====
section
/-! DEFINITION. The code generator: the CODEGEN step (44_code_generator.md R200 to R205). -/

namespace Sys2Proof.Machine

/-- walk(i, p): record p at a Leaf, else walk left with p ++ "0" and right with p ++ "1" (44_code_generator.md R200). The first
argument bounds how many nodes lie on one path; a walk that reaches no Leaf within it answers none (10_state.md R41). -/
def walk (node : Vector Node 511) : Nat → NodeIx → List Bool → Vector CodeEntry 256 → Option (Vector CodeEntry 256)
  | 0, _, _, _ => none
  | fuel + 1, i, p, t =>
    let n := node[i.val]
    match n.kind with
    | .leaf => some (recordCode t n.sym p)
    | .internal => (walk node fuel n.left (p ++ [false]) t).bind fun t' => walk node fuel n.right (p ++ [true]) t'

/-- The code table of the tree under r: the sole symbol's code is "0" when r is a Leaf, else the walk from "" (44_code_generator.md
R200, R203, R204). No path of a tree in NODE_MAX = 511 slots is longer than 511 nodes. -/
def codeTable (node : Vector Node 511) (r : NodeIx) (t : Vector CodeEntry 256) : Option (Vector CodeEntry 256) :=
  match (node[r.val]).kind with
  | .leaf => some (recordCode t (node[r.val]).sym [false])
  | .internal => walk node 511 r [] t

/-- The end of BUILD: BSUB <- 0, PHASE <- READY (44_code_generator.md R200). -/
def Hw.finishBuild (hw : Hw) (root : NodeIx) (valid : Bool) (code : Vector CodeEntry 256) : Hw :=
  { hw with root := root, rootValid := valid, code := code, bsub := .sort, phase := .ready }

/-- CODEGEN: enabled when PHASE = BUILD and BSUB = 2 (44_code_generator.md R200); empty input yields no tree and no code (R201). -/
def execCodegen (s : State) : Result :=
  if s.hw.phase = .build ∧ s.hw.bsub = .codegen then
    match s.hw.seq with
    | [] => .next (s.withHw (s.hw.finishBuild 0 false s.hw.code))
    | r :: _ =>
      match codeTable s.hw.node r s.hw.code with
      | some t => .next (s.withHw (s.hw.finishBuild r true t))
      | none => .fault .notATree
  else waits s

end Sys2Proof.Machine
end

