-- ==== Sys2Proof/Machine/Commands.lean ====
section
/-! DEFINITION. The command words (40_commands.md R121 to R128). -/

namespace Sys2Proof.Machine

/-- NOP: skip, in every phase (40_commands.md R121). -/
def execNop (s : State) : Result := .next s

/-- CLEAR: a soft reset, in every phase (40_commands.md R122). -/
def execClear (s : State) : Result := .next (s.withHw s.hw.clear)

/-- COUNT: legal only in IDLE; PHASE <- COUNT (40_commands.md R123). -/
def execCount (s : State) : Result :=
  command (s.hw.phase = .idle) (fun hw => { hw with phase := .count }) s

/-- BUILD: legal only in COUNTED; PHASE <- BUILD, BSUB <- 0 (40_commands.md R124). -/
def execBuild (s : State) : Result :=
  command (s.hw.phase = .counted) (fun hw => { hw with phase := .build, bsub := .sort }) s

/-- ENCODE starts from READY, or from DONE when OUTQ is empty (40_commands.md R125). -/
def Hw.mayEncode (hw : Hw) : Bool := hw.phase = .ready ∨ (hw.phase = .done ∧ hw.outq = [])

/-- The encoder's state of a new pass 2 (40_commands.md R125). -/
def Hw.startEncode (hw : Hw) : Hw :=
  { hw with
    acc := 0#8, nacc := 0, encIn := 0, encOut := 0, encBits := 0, lastbits := 0, lbValid := false
    phase := .encode }

/-- ENCODE: the encoder's registers are cleared and PHASE <- ENCODE (40_commands.md R125). -/
def execEncode (s : State) : Result := command s.hw.mayEncode Hw.startEncode s

/-- The reserved OP 0x5 (40_commands.md R126). -/
def execCmdIllegalOp5 (s : State) : Result := illegalCommand s

/-- The reserved OPs 0x6 and 0x7 (40_commands.md R126). -/
def execCmdIllegalOp67 (_x : BitVec 1) (s : State) : Result := illegalCommand s

/-- The reserved OPs 0x8 to 0xF (40_commands.md R126). -/
def execCmdIllegalOp8F (_x : BitVec 3) (s : State) : Result := illegalCommand s

/-- RSVD ≠ 0, whatever OP (40_commands.md R126). -/
def execCmdIllegalRsvd (_rsvd : BitVec 28) (_op : BitVec 4) (s : State) : Result := illegalCommand s

end Sys2Proof.Machine
end

