-- ==== Sys2Proof/Machine/Counter.lean ====
section
/-! DEFINITION. The frequency counter: input beats in pass 1 (41_frequency_counter.md R140 to R146). -/

namespace Sys2Proof.Machine

/-- The counters after one more occurrence of b: NSYM counts a first occurrence, HIST[b] and TOTAL go up by one, and MAXF follows
HIST[b] (41_frequency_counter.md R141). -/
def Hw.countSymbol (hw : Hw) (b : Byte) : Hw :=
  let f := hw.histAt b + 1
  { hw.setHist b f with
    nsym := if hw.histAt b = 0 then hw.nsym + 1 else hw.nsym
    total := hw.total + 1
    maxf := if f > hw.maxf then f else hw.maxf }

/-- IN_DATA@COUNT (41_frequency_counter.md R141): COUNT_OVF, before any counter is written, when TOTAL = CNT_MAX (R142). -/
def execInDataCount (b : Byte) (s : State) : Result :=
  if s.hw.phase ≠ .count then waits s
  else if s.hw.total = cntMax s.cfg then acceptAndRaise .countOvf s
  else acceptWith (s.hw.countSymbol b) s

/-- IN_END@COUNT: PHASE <- COUNTED (41_frequency_counter.md R143). -/
def execInEndCount (_d : Byte) (s : State) : Result :=
  if s.hw.phase ≠ .count then waits s
  else acceptWith { s.hw with phase := .counted } s

/-- IN_ERROR@COUNT raises IO_READ (41_frequency_counter.md R144). -/
def execInErrorCount (_d : Byte) (s : State) : Result :=
  if s.hw.phase ≠ .count then waits s
  else acceptAndRaise .ioRead s

/-- IN_RSVD@COUNT is treated as ERROR (41_frequency_counter.md R144). -/
def execInRsvdCount (_d : Byte) (s : State) : Result :=
  if s.hw.phase ≠ .count then waits s
  else acceptAndRaise .ioRead s

end Sys2Proof.Machine
end

