-- ==== Sys2Proof/Machine/Encoder.lean ====
section
/-! DEFINITION. The stream encoder: input beats in pass 2 (45_stream_encoder.md R220 to R228), and an input beat in any other
phase (20_memory.md R72). -/

namespace Sys2Proof.Machine

/-- (ACC << 1 | x) mod 256 (45_stream_encoder.md R221). -/
def shiftIn (acc : Byte) (x : Bool) : Byte := acc <<< 1 ||| (BitVec.ofBool x).setWidth 8

/-- append_bit(x): the eighth bit flushes the byte and empties the accumulator (45_stream_encoder.md R221). -/
def Hw.appendBit (depth : Nat) (x : Bool) (hw : Hw) : Option Hw :=
  let acc := shiftIn hw.acc x
  if h : hw.nacc.val + 1 < 8 then some { hw with acc := acc, nacc := ⟨hw.nacc.val + 1, h⟩ }
  else (hw.pushOut depth (.data acc)).map fun hw' => { hw' with encOut := hw'.encOut + 1, acc := 0#8, nacc := 0 }

/-- append_bit for each bit in turn (45_stream_encoder.md R222). -/
def Hw.appendBits (depth : Nat) : List Bool → Hw → Option Hw
  | [], hw => some hw
  | x :: xs, hw => (hw.appendBit depth x).bind fun hw' => hw'.appendBits depth xs

/-- CODE_BITS[b][j] for j in 0..CODE_LEN[b]-1, in string order (45_stream_encoder.md R222; log entry 12). -/
def CodeEntry.string (e : CodeEntry) : List Bool := (List.range e.len).map fun j => e.bits.getD j false

/-- The OUTQ entries a DATA beat pushes: none if it will raise an error, else floor((NACC + CODE_LEN[b]) / 8)
(45_stream_encoder.md R225). -/
def Hw.needData (hw : Hw) (b : Byte) : Nat :=
  if hw.encIn = hw.total ∨ (hw.codeAt b).len = 0 then 0 else (hw.nacc.val + (hw.codeAt b).len) / 8

/-- The OUTQ entries an END beat pushes: none if it will raise an error, else the END beat and the pad byte there may be
(45_stream_encoder.md R225). -/
def Hw.needEnd (hw : Hw) : Nat :=
  if hw.encIn ≠ hw.total then 0 else 1 + (if 0 < hw.nacc.val then 1 else 0)

/-- The bits of b's code appended and counted (45_stream_encoder.md R222). -/
def Hw.encodeSymbol (depth : Nat) (b : Byte) (hw : Hw) : Option Hw :=
  (hw.appendBits depth (hw.codeAt b).string).map fun hw' =>
    { hw' with encIn := hw'.encIn + 1, encBits := hw'.encBits + (hw.codeAt b).len }

/-- IN_DATA@ENCODE (45_stream_encoder.md R222): it waits for room (R220), then LEN_MISMATCH (R223), then NO_CODE (R224). -/
def execInDataEncode (b : Byte) (s : State) : Result :=
  if s.hw.phase ≠ .encode then waits s
  else if ¬ s.hasRoom (s.hw.needData b) then waits s
  else if s.hw.encIn = s.hw.total then acceptAndRaise .lenMismatch s
  else if (s.hw.codeAt b).len = 0 then acceptAndRaise .noCode s
  else match s.hw.encodeSymbol s.cfg.depth b with
    | some hw => acceptWith hw s
    | none => .fault .outqFull

/-- The 1 to 7 pending bits as the final byte, left-aligned with the low bits 0: (ACC << (8 - NACC)) mod 256
(45_stream_encoder.md R226). -/
def Hw.padByte (hw : Hw) : Byte := hw.acc <<< (8 - hw.nacc.val)

/-- Push the pad byte where bits are pending (45_stream_encoder.md R226). -/
def Hw.flush (depth : Nat) (hw : Hw) : Option Hw :=
  if 0 < hw.nacc.val then
    (hw.pushOut depth (.data hw.padByte)).map fun hw' => { hw' with encOut := hw'.encOut + 1 }
  else some hw

/-- The final flush: LASTBITS, the pad byte, the END beat, and PHASE <- DONE (45_stream_encoder.md R226). -/
def Hw.finishEncode (depth : Nat) (hw : Hw) : Option Hw :=
  (hw.flush depth).bind fun hw' =>
    { hw' with lastbits := hw.nacc, acc := 0#8, nacc := 0, lbValid := true, phase := .done }.pushOut depth .endBeat

/-- IN_END@ENCODE (45_stream_encoder.md R226): it waits for room (R220), then LEN_MISMATCH when bytes are missing (R223). -/
def execInEndEncode (_d : Byte) (s : State) : Result :=
  if s.hw.phase ≠ .encode then waits s
  else if ¬ s.hasRoom s.hw.needEnd then waits s
  else if s.hw.encIn ≠ s.hw.total then acceptAndRaise .lenMismatch s
  else match s.hw.finishEncode s.cfg.depth with
    | some hw => acceptWith hw s
    | none => .fault .outqFull

/-- IN_ERROR@ENCODE raises IO_READ; its need is 0 (45_stream_encoder.md R228; log entry 15). -/
def execInErrorEncode (_d : Byte) (s : State) : Result :=
  if s.hw.phase ≠ .encode then waits s
  else acceptAndRaise .ioRead s

/-- IN_RSVD@ENCODE is treated as ERROR (45_stream_encoder.md R228). -/
def execInRsvdEncode (_d : Byte) (s : State) : Result :=
  if s.hw.phase ≠ .encode then waits s
  else acceptAndRaise .ioRead s

/-- IN_ANY@OTHER: no beat is accepted and the source waits (20_memory.md R72). -/
def execInAnyOther (_kind : BitVec 2) (_d : Byte) (s : State) : Result := waits s

end Sys2Proof.Machine
end

