-- ==== Sys2Proof/Machine/LeafOrderer.lean ====
section
/-! DEFINITION. The leaf orderer: the SORT step (42_leaf_orderer.md R160 to R165). -/

namespace Sys2Proof.Machine

/-- The order of leaves: ascending by the pair (HIST[s], s) (42_leaf_orderer.md R161). -/
abbrev Hw.leafLe (hw : Hw) (a b : Byte) : Prop :=
  hw.histAt a < hw.histAt b ∨ (hw.histAt a = hw.histAt b ∧ a.toNat ≤ b.toNat)

/-- The ordered leaf sequence: every symbol with HIST[s] > 0, in that order (42_leaf_orderer.md R161). The method is free (R165). -/
def Hw.leafOrder (hw : Hw) : List Byte :=
  (symbols.filter fun b => decide (0 < hw.histAt b)).insertionSort hw.leafLe

/-- The leaf of a symbol (42_leaf_orderer.md R163). -/
def Hw.leafOf (hw : Hw) (b : Byte) : Node := { kind := .leaf, f := hw.histAt b, sym := b, left := 0, right := 0 }

/-- Write nodes into the slots k, k+1, … of the node store. -/
def writeNodes : List Node → Nat → Vector Node 511 → Vector Node 511
  | [], _, v => v
  | n :: ns, k, v => writeNodes ns (k + 1) (v.setIfInBounds k n)

/-- The node indices 0, 1, …, n-1 (42_leaf_orderer.md R163). -/
def firstSlots (n : Nat) : List NodeIx := (List.range n).map (Fin.ofNat 511)

/-- What SORT leaves (42_leaf_orderer.md R163): leaves in slots 0..n-1, NNODES = n, SEQ = [0..n-1], and MERGE or CODEGEN
pending. n is the length of the ordered leaf sequence, which is NSYM (log entry 11). -/
def Hw.sorted (hw : Hw) : Hw :=
  let order := hw.leafOrder
  { hw with
    node := writeNodes (order.map hw.leafOf) 0 hw.node
    nnodes := order.length
    seq := firstSlots order.length
    bsub := if 2 ≤ order.length then .merge else .codegen }

/-- SORT: enabled exactly when PHASE = BUILD and BSUB = 0 (42_leaf_orderer.md R160, R163). -/
def execSort (s : State) : Result :=
  if s.hw.phase = .build ∧ s.hw.bsub = .sort then .next (s.withHw s.hw.sorted) else waits s

end Sys2Proof.Machine
end

