-- ==== Sys2Proof/Machine/OutputPort.lean ====
section
/-! DEFINITION. The output port: the transfer of a beat, the sink's take and its failure report (45_stream_encoder.md R229, R230;
20_memory.md R73). The beats themselves are pushed by the encoder (R221, R226), by the error entry (60_exceptions.md R252)
and by CLEAR (40_commands.md R122). -/

namespace Sys2Proof.Machine

/-- The transfer of beat b: OUTQ's head is presented, and when it is b the sink takes it (20_memory.md R73, 45_stream_encoder.md
R229; log entry 5); with any other head, or none, that transfer is not enabled. -/
def transfer (b : OutBeat) (s : State) : Result :=
  match s.hw.outq with
  | h :: rest => if h = b then .next (s.deliver b rest) else waits s
  | [] => waits s

/-- OUT_DATA: the beat {KIND 0b00, DATA b}, one byte of the artifact (30_encoding.md R94). -/
def execOutData (b : Byte) (s : State) : Result := transfer (.data b) s

/-- OUT_END: the beat {KIND 0b01, DATA 0}, the artifact is complete (30_encoding.md R94). -/
def execOutEnd (s : State) : Result := transfer .endBeat s

/-- OUT_ABORT: the beat {KIND 0b10, DATA 0}, the artifact is invalid (30_encoding.md R94). -/
def execOutAbort (s : State) : Result := transfer .abort s

/-- SNK_TAKE: enabled when OUTQ is not empty, in any phase; the head is delivered (45_stream_encoder.md R229). -/
def execSnkTake (s : State) : Result :=
  match s.hw.outq with
  | b :: rest => .next (s.deliver b rest)
  | [] => waits s

/-- An artifact is being written, or is not yet fully taken (45_stream_encoder.md R230). -/
def Hw.artifactOpen (hw : Hw) : Bool := hw.phase = .encode ∨ (hw.phase = .done ∧ hw.outq ≠ [])

/-- SNK_FAIL: IO_WRITE while an artifact is being written, ignored otherwise (45_stream_encoder.md R230). -/
def execSnkFail (s : State) : Result := if s.hw.artifactOpen then .next (s.raise .ioWrite) else .next s

end Sys2Proof.Machine
end

