-- ==== Sys2Proof/Machine/Flags.lean ====
section
/-! DEFINITION. The codes of the named values, the derived flags (10_state.md R40), and the words of STATUS and ERR
(30_encoding.md R99, R100). -/

namespace Sys2Proof.Machine

/-- The 3-bit code of a phase (10_state.md R22). -/
def phaseCode : Phase → BitVec 3
  | .idle => 0#3
  | .count => 1#3
  | .counted => 2#3
  | .build => 3#3
  | .ready => 4#3
  | .encode => 5#3
  | .done => 6#3
  | .error => 7#3

/-- The 2-bit code of a build sub-step (10_state.md R23). -/
def bsubCode : BSub → BitVec 2
  | .sort => 0#2
  | .merge => 1#2
  | .codegen => 2#2

/-- The 4-bit error code (30_encoding.md R108). -/
def errorCode : ErrCode → BitVec 4
  | .none => 0#4
  | .ioRead => 1#4
  | .ioWrite => 2#4
  | .countOvf => 3#4
  | .noCode => 4#4
  | .lenMismatch => 5#4
  | .cmdIllegal => 6#4
  | .cmdSeq => 7#4

/-- BUSY = (PHASE ∈ {COUNT, BUILD, ENCODE}) (10_state.md R40). -/
def Hw.busy (hw : Hw) : Bool :=
  match hw.phase with
  | .count | .build | .encode => true
  | .idle | .counted | .ready | .done | .error => false

/-- OUTQ_EMPTY = (len(OUTQ) = 0) (10_state.md R40). -/
def Hw.outqEmpty (hw : Hw) : Bool := hw.outq.isEmpty

/-- OUTQ_COUNT = len(OUTQ) (10_state.md R40). -/
def Hw.outqCount (hw : Hw) : Nat := hw.outq.length

/-- ERRF = (ERR_CODE ≠ 0) (10_state.md R40). -/
def Hw.errf (hw : Hw) : Bool := hw.errCode != .none

/-- The STATUS field BSUB: R.BSUB, 0 outside BUILD (30_encoding.md R99; log entry 16). -/
def Hw.bsubField (hw : Hw) : BitVec 2 := if hw.phase = .build then bsubCode hw.bsub else 0#2

/-- STATUS: {0, OUTQ_COUNT[15:8], ERRF[7], OUTQ_EMPTY[6], BSUB[5:4], BUSY[3], PHASE[2:0]} (30_encoding.md R99). -/
def Hw.statusWord (hw : Hw) : Word :=
  0#16 ++ BitVec.ofNat 8 hw.outqCount ++ BitVec.ofBool hw.errf ++ BitVec.ofBool hw.outqEmpty ++ hw.bsubField ++
    BitVec.ofBool hw.busy ++ phaseCode hw.phase

/-- ERR: {0, PHASE[6:4], CODE[3:0]} (30_encoding.md R100). -/
def Hw.errWord (hw : Hw) : Word := 0#25 ++ phaseCode hw.errPhase ++ errorCode hw.errCode

end Sys2Proof.Machine
end

