-- ==== Sys2Proof/Machine/Operands.lean ====
section
/-! DEFINITION. The operand forms of a register access: the register map, every register's word, and every window's layout
(30_encoding.md R95 to R107). -/

namespace Sys2Proof.Machine

/-- What stands at an offset of the register port (30_encoding.md R95). -/
inductive Reg where
  | id | cmd | status | err | total | nsym | maxf | root | nnodes | seqlen
  | encIn | encOutLo | encOutHi | encBitsLo | encBitsHi | lastbits | param
  /-- HIST window: HIST[b] at 0x0400 + 4 b. -/
  | hist (b : Byte)
  /-- NODE window, word 0 of NODE[i], at 0x1000 + 8 i. -/
  | nodeFreq (i : NodeIx)
  /-- NODE window, word 1 of NODE[i], at 0x1000 + 8 i + 4. -/
  | nodeLink (i : NodeIx)
  /-- CODE window, word k of CODE[b], at 0x2000 + 64 b + 4 k. -/
  | code (b : Byte) (k : Fin 16)
  /-- A reserved offset: reads 0 and ignores writes. -/
  | reserved
deriving DecidableEq, Repr

/-- The registers 0x0000 to 0x0040, in the order of the map (30_encoding.md R95). -/
def lowReg (n : Nat) : Reg :=
  match n with
  | 0 => .id
  | 1 => .cmd
  | 2 => .status
  | 3 => .err
  | 4 => .total
  | 5 => .nsym
  | 6 => .maxf
  | 7 => .root
  | 8 => .nnodes
  | 9 => .seqlen
  | 10 => .encIn
  | 11 => .encOutLo
  | 12 => .encOutHi
  | 13 => .encBitsLo
  | 14 => .encBitsHi
  | 15 => .lastbits
  | 16 => .param
  | _ => .reserved

/-- The register map (30_encoding.md R95), by word address: the byte offset is four times it. The reserved ranges are
0x0044..0x03FC, 0x0800..0x0FFC, 0x1FF8..0x1FFC and 0x6000..0x7FFC. -/
def regAt (a : WordAddr) : Reg :=
  let n := a.toNat
  if n < 0x0400 / 4 then lowReg n
  else if n < 0x0800 / 4 then .hist (BitVec.ofNat 8 (n - 0x0400 / 4))
  else if n < 0x1000 / 4 then .reserved
  else if h : n < 0x1FF8 / 4 then
    let i : NodeIx := ⟨(n - 0x1000 / 4) / 2, by omega⟩
    if (n - 0x1000 / 4) % 2 = 0 then .nodeFreq i else .nodeLink i
  else if n < 0x2000 / 4 then .reserved
  else if n < 0x6000 / 4 then
    .code (BitVec.ofNat 8 ((n - 0x2000 / 4) / 16)) ⟨(n - 0x2000 / 4) % 16, Nat.mod_lt _ (by decide)⟩
  else .reserved

/-- ID reads the constant 0x48554631 (30_encoding.md R97). -/
def idWord : Word := 0x48554631#32

/-- PARAM: {0, OUT_FIFO_DEPTH[15:8], 0, CNT_W[5:0]} (30_encoding.md R104). -/
def paramWord (c : Config) : Word := 0#16 ++ BitVec.ofNat 8 c.depth ++ 0#2 ++ BitVec.ofNat 6 c.cntW

/-- ROOT: bit 31 = ROOT_VALID, bits 8:0 = ROOT (30_encoding.md R102). -/
def Hw.rootWord (hw : Hw) : Word := BitVec.ofBool hw.rootValid ++ 0#22 ++ BitVec.ofNat 9 hw.root.val

/-- LASTBITS: bit 31 = LB_VALID, bits 2:0 = LASTBITS (30_encoding.md R103). -/
def Hw.lastbitsWord (hw : Hw) : Word := BitVec.ofBool hw.lbValid ++ 0#28 ++ BitVec.ofNat 3 hw.lastbits.val

/-- The low half, [31:0], of a 64-bit counter (30_encoding.md R103). -/
def lowHalf (n : Nat) : Word := (BitVec.ofNat 64 n).extractLsb' 0 32

/-- The high half, [63:32], of a 64-bit counter (30_encoding.md R103). -/
def highHalf (n : Nat) : Word := (BitVec.ofNat 64 n).extractLsb' 32 32

/-- NODE window, word 0: the frequency; an unallocated slot reads 0 (30_encoding.md R106). -/
def Hw.nodeFreqWord (hw : Hw) (i : NodeIx) : Word :=
  if i.val < hw.nnodes then BitVec.ofNat 32 (hw.nodeAt i).f else 0#32

/-- Word 1 of a node: the children of an Internal node, the symbol of a Leaf (30_encoding.md R106). -/
def Node.linkWord (n : Node) : Word :=
  match n.kind with
  | .internal => 1#1 ++ 0#6 ++ BitVec.ofNat 9 n.right.val ++ 0#7 ++ BitVec.ofNat 9 n.left.val
  | .leaf => 0#1 ++ 0#23 ++ n.sym

/-- NODE window, word 1; an unallocated slot reads 0 (30_encoding.md R106). -/
def Hw.nodeLinkWord (hw : Hw) (i : NodeIx) : Word :=
  if i.val < hw.nnodes then (hw.nodeAt i).linkWord else 0#32

/-- A word from bits given from bit 31 down. -/
def wordOfBits (bits : List Bool) : Word := bits.foldl (fun v x => v <<< 1 ||| (BitVec.ofBool x).setWidth 32) 0#32

/-- Bits t = 0..31 of CODE window word w in 1..8: c[32 (w-1) + t] below CODE_LEN, else 0 (30_encoding.md R107). -/
def CodeEntry.windowBits (e : CodeEntry) (w : Nat) : List Bool :=
  (List.range 32).map fun t => decide (32 * (w - 1) + t < e.len) && e.bits.getD (32 * (w - 1) + t) false

/-- The sixteen words of a symbol in the CODE window: the length, the bits in words 1 to 8 left-aligned MSB first, and 0 in words
9 to 15 (30_encoding.md R107). -/
def CodeEntry.windowWord (e : CodeEntry) (k : Fin 16) : Word :=
  if k.val = 0 then BitVec.ofNat 32 e.len
  else if k.val ≤ 8 then wordOfBits (e.windowBits k.val)
  else 0#32

/-- The registers and windows whose value is unspecified while PHASE = BUILD (20_memory.md R68). -/
def Reg.openInBuild : Reg → Bool
  | .root | .nnodes | .seqlen | .nodeFreq _ | .nodeLink _ | .code _ _ => true
  | .id | .cmd | .status | .err | .total | .nsym | .maxf => false
  | .encIn | .encOutLo | .encOutHi | .encBitsLo | .encBitsHi | .lastbits | .param | .hist _ | .reserved => false

/-- The value of a register in the current state (20_memory.md R62; 30_encoding.md R96 to R107). -/
def State.regWord (s : State) : Reg → Word
  | .id => idWord
  | .cmd => 0#32
  | .status => s.hw.statusWord
  | .err => s.hw.errWord
  | .total => BitVec.ofNat 32 s.hw.total
  | .nsym => 0#23 ++ BitVec.ofNat 9 s.hw.nsym
  | .maxf => BitVec.ofNat 32 s.hw.maxf
  | .root => s.hw.rootWord
  | .nnodes => 0#22 ++ BitVec.ofNat 10 s.hw.nnodes
  | .seqlen => 0#23 ++ BitVec.ofNat 9 s.hw.seq.length
  | .encIn => BitVec.ofNat 32 s.hw.encIn
  | .encOutLo => lowHalf s.hw.encOut
  | .encOutHi => highHalf s.hw.encOut
  | .encBitsLo => lowHalf s.hw.encBits
  | .encBitsHi => highHalf s.hw.encBits
  | .lastbits => s.hw.lastbitsWord
  | .param => paramWord s.cfg
  | .hist b => BitVec.ofNat 32 (s.hw.histAt b)
  | .nodeFreq i => s.hw.nodeFreqWord i
  | .nodeLink i => s.hw.nodeLinkWord i
  | .code b k => (s.hw.codeAt b).windowWord k
  | .reserved => 0#32

end Sys2Proof.Machine
end

