-- ==== Sys2Proof/Machine/RegisterPort.lean ====
section
/-! DEFINITION. The register port: reads and writes (20_memory.md R62 to R68). -/

namespace Sys2Proof.Machine

/-- REG_READ (20_memory.md R62): the register map's value, and in BUILD a fresh unspecified word for the registers of R68. -/
def execRegRead (a : WordAddr) (s : State) : Result :=
  if s.hw.phase = .build ∧ (regAt a).openInBuild then .next s.returnFree
  else .next (s.returnWord (s.regWord (regAt a)))

/-- The command a word written to CMD performs (40_commands.md R120): a malformed word first, then by OP. -/
def performCommand (v : Word) (s : State) : Result :=
  if rsvdField v ≠ 0#28 then execCmdIllegalRsvd (rsvdField v) (opField v) s
  else match (opField v).toNat with
    | 0 => execNop s
    | 1 => execClear s
    | 2 => execCount s
    | 3 => execBuild s
    | 4 => execEncode s
    | _ => illegalCommand s

/-- REG_WRITE (20_memory.md R63): at CMD the command of the written word, at any other offset no effect (R64, R65). -/
def execRegWrite (a : WordAddr) (v : Word) (s : State) : Result :=
  if a = cmdAddr then performCommand v s else .next s

end Sys2Proof.Machine
end

