-- ==== Sys2Proof/Machine/ResetInput.lean ====
section
/-! DEFINITION. The reset input (70_reset_and_hazards.md R280). -/

namespace Sys2Proof.Machine

/-- RESET: every state element takes its reset value, with no ABORT beat; no input beat is taken, and what the source offers
stays offered (70_reset_and_hazards.md R280; log entry 13). -/
def execReset (s : State) : Result := .next (s.withHw Hw.reset)

end Sys2Proof.Machine
end

