-- ==== Sys2Proof/Machine/TreeBuilder.lean ====
section
/-! DEFINITION. The tree builder: the MERGE step (43_tree_builder.md R180 to R188). -/

namespace Sys2Proof.Machine

/-- The frequency of the node in slot i. -/
def Hw.freq (hw : Hw) (i : NodeIx) : Nat := (hw.nodeAt i).f

/-- The new Internal node over the two front nodes: the first removed is the left child (43_tree_builder.md R181, R185). -/
def Hw.mergedNode (hw : Hw) (a b : NodeIx) : Node :=
  { kind := .internal, f := hw.freq a + hw.freq b, sym := 0#8, left := a, right := b }

/-- The insertion index: the least i such that i = len(SEQ) or the i-th entry's frequency is not less than f
(43_tree_builder.md R181, R183): before every entry of equal frequency (90_conflicts.md C1). -/
def Hw.insertAt (hw : Hw) (rest : List NodeIx) (f : Nat) : Nat := rest.findIdx fun j => decide (f ≤ hw.freq j)

/-- What a MERGE of the front nodes a and b into slot m leaves (43_tree_builder.md R181, R182). -/
def Hw.merged (hw : Hw) (a b : NodeIx) (rest : List NodeIx) (m : NodeIx) : Hw :=
  let n := hw.mergedNode a b
  let seq := rest.insertIdx (hw.insertAt rest n.f) m
  { hw.setNode m n with
    nnodes := m.val + 1
    seq := seq
    bsub := if seq.length = 1 then .codegen else hw.bsub }

/-- MERGE: enabled exactly when PHASE = BUILD and BSUB = 1 (43_tree_builder.md R180, R181). Two entries in SEQ and a free slot
are derived to be there (R180, R186) and asserted (log entry 9). -/
def execMerge (s : State) : Result :=
  if s.hw.phase = .build ∧ s.hw.bsub = .merge then
    match s.hw.seq with
    | a :: b :: rest =>
      if h : s.hw.nnodes < 511 then .next (s.withHw (s.hw.merged a b rest ⟨s.hw.nnodes, h⟩)) else .fault .nodeStoreFull
    | _ => .fault .seqTooShort
  else waits s

end Sys2Proof.Machine
end

