-- ==== Sys2Proof/Machine/Dispatch.lean ====
section
/-! DEFINITION. One arm per row of the opcode table. -/

namespace Sys2Proof.Machine

def exec (i : Instr) (s : State) : Host.Outcome State Fault Refusal :=
  match i with
  | .nop => Sys2Proof.Machine.execNop s
  | .clear => Sys2Proof.Machine.execClear s
  | .count => Sys2Proof.Machine.execCount s
  | .build => Sys2Proof.Machine.execBuild s
  | .encode => Sys2Proof.Machine.execEncode s
  | .cmdIllegalOp5 => Sys2Proof.Machine.execCmdIllegalOp5 s
  | .cmdIllegalOp67 x => Sys2Proof.Machine.execCmdIllegalOp67 x s
  | .cmdIllegalOp8F x => Sys2Proof.Machine.execCmdIllegalOp8F x s
  | .cmdIllegalRsvd rsvd op => Sys2Proof.Machine.execCmdIllegalRsvd rsvd op s
  | .inDataCount b => Sys2Proof.Machine.execInDataCount b s
  | .inEndCount d => Sys2Proof.Machine.execInEndCount d s
  | .inErrorCount d => Sys2Proof.Machine.execInErrorCount d s
  | .inRsvdCount d => Sys2Proof.Machine.execInRsvdCount d s
  | .inDataEncode b => Sys2Proof.Machine.execInDataEncode b s
  | .inEndEncode d => Sys2Proof.Machine.execInEndEncode d s
  | .inErrorEncode d => Sys2Proof.Machine.execInErrorEncode d s
  | .inRsvdEncode d => Sys2Proof.Machine.execInRsvdEncode d s
  | .inAnyOther kind d => Sys2Proof.Machine.execInAnyOther kind d s
  | .outData b => Sys2Proof.Machine.execOutData b s
  | .outEnd => Sys2Proof.Machine.execOutEnd s
  | .outAbort => Sys2Proof.Machine.execOutAbort s
  | .regRead a => Sys2Proof.Machine.execRegRead a s
  | .regWrite a v => Sys2Proof.Machine.execRegWrite a v s
  | .snkTake => Sys2Proof.Machine.execSnkTake s
  | .snkFail => Sys2Proof.Machine.execSnkFail s
  | .sort => Sys2Proof.Machine.execSort s
  | .merge => Sys2Proof.Machine.execMerge s
  | .codegen => Sys2Proof.Machine.execCodegen s
  | .reset => Sys2Proof.Machine.execReset s

end Sys2Proof.Machine
end

