-- ==== Sys2Proof/Machine/Fetch.lean ====
section
/-! DEFINITION. HUFENC fetches no instruction (10_state.md R21). What takes the place of a fetch: whose turn it is, what that
agent presents at its port, and what the decoder makes of it (20_memory.md R60, R61; log entry 2). -/

namespace Sys2Proof.Machine

/-- The turn of the next step: the head of the listed turns, or the core's when none is listed (20_memory.md R61). -/
def State.turn (s : State) : Event := s.env.events.headD .core

/-- The steps of 20_memory.md R60 in place of a drawn turn: the transfer of a beat at the output port is the sink's take of the
head (45_stream_encoder.md R229), and so no drawn turn names a beat that HUFENC does not present. -/
def agentStep : Event → Event
  | .outBeat _ => .sinkTake
  | e => e

/-- The state in which the turn is taken: the listed turns without it. The core's turn with none listed lists the next block of
further turns, so that no execution ends (20_memory.md R60; log entry 2). -/
def State.afterTurn (s : State) : State :=
  { s with env := { s.env with
    events := match s.env.events with
      | _ :: es => es
      | [] => (Config.freeTurns s.env.turnBlocks).map agentStep
    turnBlocks := match s.env.events with
      | _ :: _ => s.env.turnBlocks
      | [] => s.env.turnBlocks + 1 } }

/-- The source's turn with no beat listed offers none, and lists the next block of further beats (20_memory.md R72; log entry 4). -/
def State.moreBeats (s : State) : State :=
  { s with env := { s.env with src := Config.freeBeats s.env.beatBlocks, beatBlocks := s.env.beatBlocks + 1 } }

/-- What an agent presents in its turn; a source with no beat listed offers none. -/
def State.present (s : State) : Event → Option PortWord
  | .hostRead a => some (.hostRead a)
  | .hostWrite a v => some (.hostWrite a v)
  | .source => s.env.src.head?.map .inBeat
  | .outBeat w => some (.outBeat w)
  | .sinkTake => some .sinkTake
  | .sinkFail => some .sinkFail
  | .core => some .core
  | .reset => some .reset

/-- What a turn comes to. -/
inductive Fetched where
  /-- An instruction to run. -/
  | run (i : Instr)
  /-- The core has the turn and no core step is enabled (20_memory.md R60). -/
  | idle
  /-- The source has the turn and offers no beat (20_memory.md R72). -/
  | noBeat
  /-- A presented word that is no step of HUFENC. -/
  | reject (why : DecodeError)
deriving DecidableEq, Repr

/-- Decoding of what the turn presents, by PHASE and BSUB. -/
def State.fetch (s : State) : Fetched :=
  match s.present s.turn with
  | none => .noBeat
  | some p =>
    match decode s.hw.phase s.hw.bsub p with
    | .ok i => .run i
    | .error .noCoreStep => .idle
    | .error e => .reject e

/-- A command word placed as the next step: the host's write of it to CMD (log entry 14). -/
def State.placeCommand (s : State) (v : Word) : State :=
  { s with env := { s.env with events := .hostWrite cmdAddr v :: s.env.events } }

/-- A beat placed as the next step: the source offers it, has the turn, and pass 1 is in progress (log entry 14). -/
def State.placeBeat (s : State) (w : BeatWord) : State :=
  { s with
    hw := { s.hw with phase := .count }
    env := { s.env with events := .source :: s.env.events, src := w :: s.env.src } }

end Sys2Proof.Machine
end

