-- ==== Sys2Proof/Machine/Step.lean ====
section
/-! DEFINITION. One step: one turn of one agent (20_memory.md R60), and the host's way to place an instruction. -/

namespace Sys2Proof.Machine

/-- One atomic step (20_memory.md R60): the turn is taken and the instruction it presents runs; an agent with nothing to do leaves
HUFENC as it is. -/
def step (s : State) : Host.Outcome State Fault Refusal :=
  match s.fetch with
  | .run i => exec i s.afterTurn
  | .idle => .next s.afterTurn
  | .noBeat => .next s.afterTurn.moreBeats
  | .reject e => .refused (.undecodable e)

/-- `s` with the instruction of a row's bits placed as its next step (log entry 14): 32 bits are a word the host writes to CMD,
a beat's ten bits a beat offered in pass 1. -/
def State.withFetchWord (s : State) (nbits w : Nat) : State :=
  if nbits = 32 then s.placeCommand (BitVec.ofNat 32 w)
  else if nbits = 16 ∨ nbits = 10 then s.placeBeat (BitVec.ofNat 10 w)
  else s

end Sys2Proof.Machine
end

