-- ==== Sys2Proof/Safety.lean ====
section
/-! DEFINITION. What claims are stated in: the tree HUFENC's node store holds, the invariant of every state a run reaches, the widths
of 10_state.md, the bits of an output stream, and the decode procedure that is the spec's test oracle. -/

namespace Sys2Proof.Machine

/-! ## The tree in the node store (10_state.md R41) -/

/-- A full binary tree whose nodes stand in slots of the node store. -/
inductive HTree where
  | leaf (i : NodeIx) (b : Byte)
  | branch (i : NodeIx) (l r : HTree)
deriving DecidableEq, Repr

/-- The slot of the root. -/
def HTree.slot : HTree → NodeIx
  | .leaf i _ => i
  | .branch i _ _ => i

/-- Every slot the tree uses. -/
def HTree.slots : HTree → List NodeIx
  | .leaf i _ => [i]
  | .branch i l r => i :: (l.slots ++ r.slots)

/-- The symbols at its leaves. -/
def HTree.syms : HTree → List Byte
  | .leaf _ b => [b]
  | .branch _ l r => l.syms ++ r.syms

/-- The sum of the frequencies of its leaves. -/
def HTree.weight (h : Byte → Nat) : HTree → Nat
  | .leaf _ b => h b
  | .branch _ l r => l.weight h + r.weight h

/-- The path to each leaf, from `p`: "0" left, "1" right (44_code_generator.md R203). -/
def HTree.paths : HTree → List Bool → List (Byte × List Bool)
  | .leaf _ b, p => [(b, p)]
  | .branch _ l r, p => l.paths (p ++ [false]) ++ r.paths (p ++ [true])

/-- The code of each symbol: the path from the root, and "0" for a sole symbol (44_code_generator.md R203, R204). -/
def HTree.codes : HTree → List (Byte × List Bool)
  | .leaf _ b => [(b, [false])]
  | .branch i l r => (HTree.branch i l r).paths []

/-- The node store holds the tree: a Leaf has f = HIST[sym], an Internal node f = NODE[left].f + NODE[right].f (10_state.md R41). -/
def HTree.Stored (hw : Hw) : HTree → Prop
  | .leaf i b => hw.nodeAt i = { kind := .leaf, f := hw.histAt b, sym := b, left := 0, right := 0 }
  | .branch i l r =>
    hw.nodeAt i = { kind := .internal, f := (hw.nodeAt l.slot).f + (hw.nodeAt r.slot).f, sym := 0#8, left := l.slot, right := r.slot } ∧
      l.Stored hw ∧ r.Stored hw

/-- The symbols with a nonzero count, ascending (10_state.md R24, R26). -/
def Hw.present (hw : Hw) : List Byte := symbols.filter fun b => decide (0 < hw.histAt b)

/-- SEQ and the node store hold the trees `ts`: SEQ lists their roots ascending by frequency (10_state.md R30, 43_tree_builder.md R187),
the allocated slots are theirs, each once (10_state.md R29, R41), their leaves are the distinct symbols present, each once (R41), and
an unallocated slot holds its reset value (R29). -/
structure Hw.Forest (hw : Hw) (ts : List HTree) : Prop where
  roots : hw.seq = ts.map HTree.slot
  stored : ∀ t ∈ ts, t.Stored hw
  slots : ((ts.flatMap HTree.slots).map Fin.val).Perm (List.range hw.nnodes)
  syms : (ts.flatMap HTree.syms).Perm hw.present
  ascending : (ts.map (HTree.weight hw.histAt)).Pairwise (· ≤ ·)
  unallocated : ∀ i : NodeIx, hw.nnodes ≤ i.val → hw.nodeAt i = Node.zero

/-- The code table is that of the tree, and a symbol not in it has no code (10_state.md R32). -/
def Hw.Coded (hw : Hw) (t : HTree) : Prop :=
  (∀ e ∈ t.codes, hw.codeAt e.1 = { len := e.2.length, bits := e.2 }) ∧
    ∀ b : Byte, b ∉ t.syms → hw.codeAt b = CodeEntry.none

/-- No code at all. -/
def Hw.NoCodes (hw : Hw) : Prop := ∀ b : Byte, hw.codeAt b = CodeEntry.none

/-- Before SORT: no tree, no root, no code. -/
structure Hw.Unbuilt (hw : Hw) : Prop where
  nnodes : hw.nnodes = 0
  seq : hw.seq = []
  nodes : ∀ i : NodeIx, hw.nodeAt i = Node.zero
  root : hw.root = 0 ∧ hw.rootValid = false
  codes : hw.NoCodes

/-- After SORT, before CODEGEN: a forest, no root, no code. -/
structure Hw.Growing (hw : Hw) : Prop where
  forest : ∃ ts, hw.Forest ts
  root : hw.root = 0 ∧ hw.rootValid = false
  codes : hw.NoCodes

/-- After CODEGEN: one tree, ROOT and its codes; or no symbol, no tree and no code (44_code_generator.md R200 to R204). -/
def Hw.Built (hw : Hw) : Prop :=
  (∃ t, hw.Forest [t] ∧ hw.rootValid = true ∧ hw.root = t.slot ∧ hw.Coded t) ∨
    (hw.Forest [] ∧ hw.rootValid = false ∧ hw.root = 0 ∧ hw.NoCodes)

/-! ## The reset table -/

/-- Every row of the table of 10_state.md R43; OUTQ is `q` ([] on reset). -/
structure Hw.AtReset (hw : Hw) (q : List OutBeat) : Prop where
  phase : hw.phase = .idle
  bsub : hw.bsub = .sort
  hist : ∀ b : Byte, hw.histAt b = 0
  counters : hw.total = 0 ∧ hw.nsym = 0 ∧ hw.maxf = 0
  node : ∀ i : NodeIx, hw.nodeAt i = { kind := .leaf, f := 0, sym := 0#8, left := 0, right := 0 }
  nnodes : hw.nnodes = 0
  seq : hw.seq = []
  root : hw.root = 0 ∧ hw.rootValid = false
  code : ∀ b : Byte, hw.codeAt b = { len := 0, bits := [] }
  acc : hw.acc = 0#8 ∧ hw.nacc = 0
  enc : hw.encIn = 0 ∧ hw.encOut = 0 ∧ hw.encBits = 0
  lastbits : hw.lastbits = 0 ∧ hw.lbValid = false
  outq : hw.outq = q
  err : hw.errCode = .none ∧ hw.errPhase = .idle

/-! ## Register reads -/

/-- The port's word address of a byte offset (20_memory.md R62). -/
def addrOf (off : Nat) : WordAddr := BitVec.ofNat 13 (off / 4)

/-- A read at byte offset `off` completes, returns `w`, and changes nothing else. -/
def State.Reads (s : State) (off : Nat) (w : Word) : Prop :=
  exec (.regRead (addrOf off)) s = .next { s with env := { s.env with readLog := s.env.readLog ++ [w] } }

/-- The reserved offsets of the register map (30_encoding.md R95). -/
abbrev Reserved (off : Nat) : Prop :=
  (0x0044 ≤ off ∧ off ≤ 0x03FC) ∨ (0x0800 ≤ off ∧ off ≤ 0x0FFC) ∨ (0x1FF8 ≤ off ∧ off ≤ 0x1FFC) ∨
    (0x6000 ≤ off ∧ off ≤ 0x7FFC)

/-- The offsets whose value is unspecified in BUILD: ROOT, NNODES, SEQLEN, the NODE window and the CODE window (20_memory.md R68). -/
abbrev OpenInBuild (off : Nat) : Prop :=
  off = 0x001C ∨ off = 0x0020 ∨ off = 0x0024 ∨ (0x1000 ≤ off ∧ off ≤ 0x1FF4) ∨ (0x2000 ≤ off ∧ off ≤ 0x5FFC)

/-! ## The invariant -/

/-- The largest of a list of counts; 0 of none. -/
def maxOf (l : List Nat) : Nat := l.foldr max 0

/-- The counter invariants (41_frequency_counter.md R146), CNT_W (00_scope.md R8), and an empty histogram in IDLE (10_state.md R22). -/
structure Hw.CountInv (hw : Hw) (c : Config) : Prop where
  total : hw.total = (symbols.map hw.histAt).sum
  nsym : hw.nsym = hw.present.length
  maxf : hw.maxf = maxOf (symbols.map hw.histAt)
  bound : hw.total ≤ cntMax c
  idle : hw.phase = .idle → hw.total = 0

/-- How far the build has come in each phase; BSUB is 0 outside BUILD, and MERGE is pending exactly while SEQ holds two or more
(10_state.md R23, 43_tree_builder.md R180). -/
structure Hw.BuildInv (hw : Hw) : Prop where
  bsub : hw.phase ≠ .build → hw.bsub = .sort
  before : hw.phase = .idle ∨ hw.phase = .count ∨ hw.phase = .counted → hw.Unbuilt
  sorting : hw.phase = .build → hw.bsub = .sort → hw.Unbuilt
  growing : hw.phase = .build → hw.bsub ≠ .sort → hw.Growing
  merging : hw.phase = .build → hw.bsub = .merge → 2 ≤ hw.seq.length
  gathered : hw.phase = .build → hw.bsub = .codegen → hw.seq.length ≤ 1
  built : hw.phase = .ready ∨ hw.phase = .encode ∨ hw.phase = .done → hw.Built
  stopped : hw.phase = .error → hw.Unbuilt ∨ hw.Growing ∨ hw.Built

/-- The bit accumulator and the counters of pass 2 (10_state.md R33 to R37, 45_stream_encoder.md R223, R232). -/
structure Hw.EncodeInv (hw : Hw) : Prop where
  acc : hw.acc.toNat < 2 ^ hw.nacc.val
  length : hw.encIn ≤ hw.total
  bits : hw.encBits ≤ 255 * hw.encIn
  running : hw.lbValid = false → hw.nacc.val = hw.encBits % 8 ∧ hw.encOut = hw.encBits / 8 ∧ hw.lastbits = 0
  finished : hw.lbValid = true → hw.nacc = 0 ∧ hw.lastbits.val = hw.encBits % 8 ∧ hw.encOut = (hw.encBits + 7) / 8
  encode : hw.phase = .encode → hw.lbValid = false
  done : hw.phase = .done → hw.lbValid = true ∧ hw.encIn = hw.total
  before : hw.phase = .idle ∨ hw.phase = .count ∨ hw.phase = .counted ∨ hw.phase = .build ∨ hw.phase = .ready →
    hw.encIn = 0 ∧ hw.lbValid = false

/-- OUTQ holds at most OUT_FIFO_DEPTH beats (10_state.md R38), and outside ENCODE and DONE at most the one ABORT beat
(45_stream_encoder.md R229). -/
structure Hw.QueueInv (hw : Hw) (c : Config) : Prop where
  depth : hw.outq.length ≤ c.depth
  rest : hw.phase ≠ .encode → hw.phase ≠ .done → hw.outq = [] ∨ hw.outq = [.abort]

/-- ERR_CODE is set exactly in ERROR (60_exceptions.md R252, R254), with the phase that was left. -/
structure Hw.ErrorInv (hw : Hw) : Prop where
  code : hw.phase = .error ↔ hw.errCode ≠ .none
  clear : hw.errCode = .none → hw.errPhase = .idle
  phase : hw.errPhase ≠ .error

/-- The invariant of every state a run reaches: State.reset has it and every step keeps it. -/
structure State.Inv (s : State) : Prop where
  config : s.cfg.Legal
  count : s.hw.CountInv s.cfg
  build : s.hw.BuildInv
  encode : s.hw.EncodeInv
  queue : s.hw.QueueInv s.cfg
  error : s.hw.ErrorInv

/-- Every element fits the width 10_state.md gives it. -/
structure Hw.Fits (hw : Hw) (c : Config) : Prop where
  hist : ∀ b : Byte, hw.histAt b ≤ cntMax c
  total : hw.total ≤ cntMax c
  nsym : hw.nsym ≤ 256
  maxf : hw.maxf ≤ cntMax c
  freq : ∀ i : NodeIx, (hw.nodeAt i).f ≤ cntMax c
  nnodes : hw.nnodes ≤ 511
  seq : hw.seq.length ≤ 256
  code : ∀ b : Byte, (hw.codeAt b).len = (hw.codeAt b).bits.length ∧ (hw.codeAt b).len ≤ 255
  encIn : hw.encIn ≤ cntMax c
  encOut : hw.encOut < 2 ^ 64
  encBits : hw.encBits < 2 ^ 40
  outq : hw.outq.length ≤ c.depth

/-! ## The bits of the output (45_stream_encoder.md R221, R231) -/

/-- An output byte read from bit 7 to bit 0 (20_memory.md R70). -/
def byteBits (b : Byte) : List Bool := (List.range 8).map fun k => b.getLsbD (7 - k)

/-- The bits of the DATA beats, in order. -/
def dataBits (q : List OutBeat) : List Bool :=
  q.flatMap fun
    | .data b => byteBits b
    | .endBeat | .abort => []

/-- The NACC pending bits, the earliest at ACC[NACC-1] (10_state.md R33). -/
def Hw.pendingBits (hw : Hw) : List Bool := (List.range hw.nacc.val).map fun k => hw.acc.getLsbD (hw.nacc.val - 1 - k)

/-- The bits queued and pending, in the order in which they were appended. -/
def Hw.bitStream (hw : Hw) : List Bool := dataBits hw.outq ++ hw.pendingBits

/-! ## The decode procedure (44_code_generator.md R209) -/

/-- One bit at a time: `p` grows until it is some symbol's code; what is left in `p` at the end is the second component. -/
def Hw.decodeBits (hw : Hw) : List Bool → List Bool → List Byte × List Bool
  | p, [] => ([], p)
  | p, x :: xs =>
    match symbols.find? fun b => decide (0 < (hw.codeAt b).len) && (hw.codeAt b).bits == p ++ [x] with
    | some b => let r := hw.decodeBits [] xs; (b :: r.1, r.2)
    | none => hw.decodeBits (p ++ [x]) xs

/-! ## A pass 2 as the environment drives it -/

/-- The agents' turns of a pass 2 over n bytes: the source offers a byte and the sink then takes up to 32 beats, n times; then the
source offers END and the sink takes up to two beats (20_memory.md R60, 70_reset_and_hazards.md R293). -/
def passTwoTurns (n : Nat) : List Event :=
  (List.replicate n (Event.source :: List.replicate 32 Event.sinkTake)).flatten ++ [.source, .sinkTake, .sinkTake]

/-- The beats of a pass over `bytes`: one DATA beat a byte, then END (30_encoding.md R93, R110). -/
def passBeats (bytes : List Byte) : List BeatWord := bytes.map (fun b => 0b00#2 ++ b) ++ [0x100#10]

/-- The turns of one whole run over `bytes` (70_reset_and_hazards.md R282): the host writes COUNT and the source delivers pass 1; the
host writes BUILD and the core makes its steps, max(n, 1) + 1 of them for n distinct symbols (43_tree_builder.md R184); the host
writes ENCODE and the source and the sink make pass 2. -/
def pipelineTurns (bytes : List Byte) : List Event :=
  [.hostWrite cmdAddr 0x2#32] ++ List.replicate (bytes.length + 1) .source ++
  [.hostWrite cmdAddr 0x3#32] ++ List.replicate (max bytes.dedup.length 1 + 1) .core ++
  [.hostWrite cmdAddr 0x4#32] ++ passTwoTurns bytes.length

end Sys2Proof.Machine
end

