-- ==== Sys2Proof/Certificates/Slice0/Obligations.lean ====
section
/-! DEFINITION. The statements for the provers. Each follows a numbered rule of spec/, cited in its docstring; OBLIGATIONS.json lists
them. `s.raise c` is the error entry; `Obligations.ErrorEntryWritesExactly` says what that is, field by field. -/

open Sys2Proof Sys2Proof.Machine

/-! ## Reset and commands -/

/-- R43, R122: every element takes its reset value on reset and on CLEAR, OUTQ excepted by CLEAR's own rule. That the environment's
fields stay (`t.env = s.env`) is log entry 13, the model's reading of "a beat the source still offers stays offered" (R280). -/
def Obligations.ResetAndClearRestoreTheTable : Prop :=
  State.reset.hw.AtReset [] ∧ ∀ s : State,
    (∃ t, exec .reset s = .next t ∧ t.hw.AtReset [] ∧ t.cfg = s.cfg ∧ t.env = s.env) ∧
    (∃ t, exec .clear s = .next t ∧ t.cfg = s.cfg ∧ t.env = s.env ∧
      t.hw.AtReset (if s.hw.phase = .encode ∨ s.hw.outq ≠ [] then [.abort] else []))

/-- R280: the reset step, and what the register port reads after it. That the environment's fields stay (`t.env = s.env`) is log
entry 13, the model's reading of "a beat the source still offers stays offered"; a read's word is recorded as log entry 8 says. -/
def Obligations.ResetReadsBackItsValues : Prop :=
  ∀ s : State, s.cfg.Legal →
    ∃ t, exec .reset s = .next t ∧ t.hw.AtReset [] ∧ t.env = s.env ∧ t.cfg = s.cfg ∧
      ∀ off : Nat, off % 4 = 0 → off ≤ 0x7FFC →
        t.Reads off (if off = 0x0000 then 0x48554631#32
          else if off = 0x0008 then 0x00000040#32
          else if off = 0x0040 then BitVec.ofNat 32 (256 * s.cfg.depth + s.cfg.cntW)
          else 0#32)

/-- R121: NOP is skip, in every phase. -/
def Obligations.NopChangesNothing : Prop := ∀ s : State, exec .nop s = .next s

/-- R127, R128: the legality of every command in every phase. -/
def Obligations.CommandLegalityByPhase : Prop :=
  ∀ s : State,
    exec .nop s = .next s ∧
    (∃ t, exec .clear s = .next t ∧ t.hw.phase = .idle) ∧
    exec .count s = (if s.hw.phase = .idle then .next { s with hw := { s.hw with phase := .count } }
      else if s.hw.phase = .error then .next s else .next (s.raise .cmdSeq)) ∧
    exec .build s = (if s.hw.phase = .counted then .next { s with hw := { s.hw with phase := .build, bsub := .sort } }
      else if s.hw.phase = .error then .next s else .next (s.raise .cmdSeq)) ∧
    exec .encode s = (if s.hw.phase = .ready ∨ (s.hw.phase = .done ∧ s.hw.outq = []) then
        .next { s with hw := { s.hw with
          acc := 0#8, nacc := 0, encIn := 0, encOut := 0, encBits := 0, lastbits := 0, lbValid := false, phase := .encode } }
      else if s.hw.phase = .error then .next s else .next (s.raise .cmdSeq)) ∧
    ∀ v : Word, 5 ≤ v.toNat →
      exec (decodeCommand v) s = (if s.hw.phase = .error then .next s else .next (s.raise .cmdIllegal))

/-- R126: every malformed or reserved word raises CMD_ILLEGAL, except in ERROR. -/
def Obligations.IllegalCommandsRaise : Prop :=
  ∀ (s : State) (x : BitVec 1) (y : BitVec 3) (rsvd : BitVec 28) (op : BitVec 4),
    ∀ i ∈ [Instr.cmdIllegalOp5, .cmdIllegalOp67 x, .cmdIllegalOp8F y, .cmdIllegalRsvd rsvd op],
      exec i s = (if s.hw.phase = .error then .next s else .next (s.raise .cmdIllegal))

/-- R63, R64, R65: a write performs the command at CMD and has no effect anywhere else. -/
def Obligations.RegisterWriteEffects : Prop :=
  ∀ (s : State) (v : Word),
    exec (.regWrite (addrOf 0x0004) v) s = exec (decodeCommand v) s ∧
    ∀ off : Nat, off % 4 = 0 → off ≤ 0x7FFC → off ≠ 0x0004 → exec (.regWrite (addrOf off) v) s = .next s

/-! ## Errors -/

/-- R252: what the error entry leaves, field by field, for every code and every state. -/
def Obligations.ErrorEntryWritesExactly : Prop :=
  ∀ (s : State) (c : ErrCode), ∃ t : State, t = s.raise c ∧ t.cfg = s.cfg ∧ t.env = s.env ∧
    (s.hw.errCode = .none → t.hw.errCode = c ∧ t.hw.errPhase = s.hw.phase) ∧
    (s.hw.errCode ≠ .none → t.hw.errCode = s.hw.errCode ∧ t.hw.errPhase = s.hw.errPhase) ∧
    (s.hw.phase = .encode ∨ s.hw.outq ≠ [] → t.hw.outq = [.abort]) ∧
    (s.hw.phase ≠ .encode → s.hw.outq = [] → t.hw.outq = []) ∧
    t.hw.phase = .error ∧ t.hw.bsub = .sort ∧
    t.hw = { s.hw with
      errCode := t.hw.errCode, errPhase := t.hw.errPhase, outq := t.hw.outq, phase := t.hw.phase, bsub := t.hw.bsub }

/-- R252: whatever instruction enters ERROR does so by the error entry and has no other effect on HUFENC's own state. -/
def Obligations.ErrorsArePrecise : Prop :=
  ∀ (i : Instr) (s t : State), exec i s = .next t → s.hw.phase ≠ .error → t.hw.phase = .error →
    t.cfg = s.cfg ∧ t.env.readLog = s.env.readLog ∧ t.env.taken = s.env.taken ∧
    ∃ c, c ≠ ErrCode.none ∧ t.hw = (s.raise c).hw ∧
      t.hw = { s.hw with
        errCode := if s.hw.errCode = .none then c else s.hw.errCode
        errPhase := if s.hw.errCode = .none then s.hw.phase else s.hw.errPhase
        outq := if s.hw.phase = .encode ∨ 0 < s.hw.outq.length then [.abort] else s.hw.outq
        phase := .error
        bsub := .sort }

/-- R253, R254: in ERROR every instruction leaves HUFENC's own state as it is but for the sink's taking the head of OUTQ, except CLEAR
(the word 1 written to CMD) and reset, which go to IDLE with ERR cleared. -/
def Obligations.OnlyClearAndResetLeaveError : Prop :=
  ∀ (i : Instr) (s t : State), s.hw.phase = .error → exec i s = .next t →
    (i = .clear ∨ i = .reset ∨ i = .regWrite (addrOf 0x0004) 1#32 →
      t.hw.phase = .idle ∧ t.hw.errCode = .none ∧ t.hw.errPhase = .idle) ∧
    (i ≠ .clear → i ≠ .reset → i ≠ .regWrite (addrOf 0x0004) 1#32 →
      t.hw = s.hw ∨ ∃ b rest, s.hw.outq = b :: rest ∧ t.hw = { s.hw with outq := rest })

/-! ## Pass 1 -/

/-- R141: a DATA beat of pass 1, counted, or COUNT_OVF at CNT_MAX. What it does at the source's side is InputPortAcceptance. -/
def Obligations.CountBeatUpdatesTheCounters : Prop :=
  ∀ (s : State) (b : Byte), s.hw.phase = .count →
    (s.hw.total ≠ 2 ^ s.cfg.cntW - 1 → ∃ t, exec (.inDataCount b) s = .next t ∧ t.cfg = s.cfg ∧
      t.hw.histAt b = s.hw.histAt b + 1 ∧ (∀ x, x ≠ b → t.hw.histAt x = s.hw.histAt x) ∧
      t.hw = { s.hw with
        hist := t.hw.hist
        nsym := if s.hw.histAt b = 0 then s.hw.nsym + 1 else s.hw.nsym
        total := s.hw.total + 1
        maxf := if s.hw.maxf < s.hw.histAt b + 1 then s.hw.histAt b + 1 else s.hw.maxf }) ∧
    (s.hw.total = 2 ^ s.cfg.cntW - 1 →
      ∃ t, exec (.inDataCount b) s = .next t ∧ t.cfg = s.cfg ∧ t.hw = (s.raise .countOvf).hw)

/-- R146: the order of the bytes of pass 1 does not matter: two DATA beats leave the same counters in either order. -/
def Obligations.CountingOrderDoesNotMatter : Prop :=
  ∀ (s : State) (b c : Byte), s.hw.phase = .count → s.hw.total + 1 < 2 ^ s.cfg.cntW - 1 →
    ∃ s1 s2 t t' : State, exec (.inDataCount b) s = .next s1 ∧ exec (.inDataCount c) s1 = .next t ∧
      exec (.inDataCount c) s = .next s2 ∧ exec (.inDataCount b) s2 = .next t' ∧ t.hw = t'.hw

/-- R143, R144: END ends pass 1; ERROR and the reserved kind raise IO_READ. -/
def Obligations.CountPassEndsOrFails : Prop :=
  ∀ (s : State) (d : Byte), s.hw.phase = .count →
    (∃ t, exec (.inEndCount d) s = .next t ∧ t.cfg = s.cfg ∧ t.hw = { s.hw with phase := .counted }) ∧
    ∀ i ∈ [Instr.inErrorCount d, .inRsvdCount d],
      ∃ t, exec i s = .next t ∧ t.cfg = s.cfg ∧ t.hw = (s.raise .ioRead).hw

/-- R145: once PHASE has left COUNT the histogram, TOTAL, NSYM and MAXF change only by CLEAR or reset, which go to IDLE. -/
def Obligations.HistogramIsImmutableAfterCount : Prop :=
  ∀ s t : State, step s = .next t → s.hw.phase ≠ .count →
    (t.hw.hist = s.hw.hist ∧ t.hw.total = s.hw.total ∧ t.hw.nsym = s.hw.nsym ∧ t.hw.maxf = s.hw.maxf) ∨
      ∃ q, t.hw.AtReset q

/-! ## The core steps -/

/-- R160, R180, R200, and log entry 3: a core step is enabled exactly in BUILD under its own BSUB; elsewhere it changes nothing. -/
def Obligations.CoreStepsWaitOutsideTheirSubStep : Prop :=
  ∀ s : State,
    (¬ (s.hw.phase = .build ∧ s.hw.bsub = .sort) → exec .sort s = .next s) ∧
    (¬ (s.hw.phase = .build ∧ s.hw.bsub = .merge) → exec .merge s = .next s) ∧
    (¬ (s.hw.phase = .build ∧ s.hw.bsub = .codegen) → exec .codegen s = .next s)

/-- R161, R163: SORT writes one leaf a present symbol, ascending by (HIST[s], s), into the slots 0..n-1. -/
def Obligations.SortWritesTheOrderedLeaves : Prop :=
  ∀ s : State, s.Inv → s.hw.phase = .build → s.hw.bsub = .sort →
    ∃ (order : List Byte) (t : State), exec .sort s = .next t ∧
      (∀ b : Byte, b ∈ order ↔ 0 < s.hw.histAt b) ∧
      order.Pairwise (fun a b => s.hw.histAt a < s.hw.histAt b ∨ (s.hw.histAt a = s.hw.histAt b ∧ a.toNat < b.toNat)) ∧
      order.length = s.hw.nsym ∧ t.hw.nnodes = s.hw.nsym ∧ t.hw.seq.map Fin.val = List.range s.hw.nsym ∧
      (∀ i : NodeIx, ∀ h : i.val < order.length,
        t.hw.nodeAt i = { kind := .leaf, f := s.hw.histAt order[i.val], sym := order[i.val], left := 0, right := 0 }) ∧
      (∀ i : NodeIx, order.length ≤ i.val → t.hw.nodeAt i = s.hw.nodeAt i) ∧
      t.hw.bsub = (if 2 ≤ s.hw.nsym then .merge else .codegen) ∧
      t.hw = { s.hw with node := t.hw.node, nnodes := t.hw.nnodes, seq := t.hw.seq, bsub := t.hw.bsub } ∧
      t.cfg = s.cfg ∧ t.env = s.env

/-- R181, R183, R185: MERGE joins the two front nodes, the first as the left child, and inserts the new node before the first entry
whose frequency is not less. -/
def Obligations.MergeJoinsTheTwoFrontNodes : Prop :=
  ∀ (s : State) (a b : NodeIx) (rest : List NodeIx) (m : NodeIx),
    s.hw.phase = .build → s.hw.bsub = .merge → s.hw.seq = a :: b :: rest → m.val = s.hw.nnodes →
    ∃ (t : State) (i : Nat), exec .merge s = .next t ∧ i ≤ rest.length ∧
      (∀ j, ∀ h : j < rest.length, j < i → (s.hw.nodeAt rest[j]).f < (s.hw.nodeAt a).f + (s.hw.nodeAt b).f) ∧
      (∀ h : i < rest.length, (s.hw.nodeAt a).f + (s.hw.nodeAt b).f ≤ (s.hw.nodeAt rest[i]).f) ∧
      t.hw.seq = rest.take i ++ m :: rest.drop i ∧
      t.hw.nodeAt m = { kind := .internal, f := (s.hw.nodeAt a).f + (s.hw.nodeAt b).f, sym := 0#8, left := a, right := b } ∧
      (∀ k : NodeIx, k ≠ m → t.hw.nodeAt k = s.hw.nodeAt k) ∧
      t.hw.nnodes = s.hw.nnodes + 1 ∧
      t.hw.bsub = (if rest = [] then .codegen else .merge) ∧
      t.hw = { s.hw with node := t.hw.node, nnodes := t.hw.nnodes, seq := t.hw.seq, bsub := t.hw.bsub } ∧
      t.cfg = s.cfg ∧ t.env = s.env

/-- R187: SEQ is ascending by frequency before and after every MERGE, and each new node's frequency is at most the next one's. -/
def Obligations.MergesInAscendingOrder : Prop :=
  ∀ (s t : State) (a b : NodeIx) (rest : List NodeIx), s.Inv → s.hw.phase = .build → s.hw.bsub = .merge → s.hw.seq = a :: b :: rest →
    exec .merge s = .next t →
    (s.hw.seq.map fun j => (s.hw.nodeAt j).f).Pairwise (· ≤ ·) ∧ (t.hw.seq.map fun j => (t.hw.nodeAt j).f).Pairwise (· ≤ ·) ∧
    ∀ c d more, t.hw.seq = c :: d :: more →
      (s.hw.nodeAt a).f + (s.hw.nodeAt b).f ≤ (t.hw.nodeAt c).f + (t.hw.nodeAt d).f

/-- R200, R201 (and R203, R204): CODEGEN ends the build with the code table of the tree: the paths from the root, "0" for a sole symbol, and nothing for
empty input. -/
def Obligations.CodegenRecordsThePathsOfTheTree : Prop :=
  ∀ s : State, s.Inv → s.hw.phase = .build → s.hw.bsub = .codegen →
    ∃ t : State, exec .codegen s = .next t ∧ t.hw.phase = .ready ∧ t.hw.bsub = .sort ∧
      (s.hw.nsym = 0 → t.hw.rootValid = false ∧ t.hw.root = 0 ∧ ∀ b : Byte, t.hw.codeAt b = { len := 0, bits := [] }) ∧
      (s.hw.nsym = 1 → t.hw.rootValid = true ∧ ∃ b : Byte, 0 < s.hw.histAt b ∧
        t.hw.codeAt b = { len := 1, bits := [false] } ∧ ∀ x, x ≠ b → t.hw.codeAt x = { len := 0, bits := [] }) ∧
      (2 ≤ s.hw.nsym → t.hw.rootValid = true ∧ ∃ u : HTree, u.Stored s.hw ∧ s.hw.seq = [u.slot] ∧ t.hw.root = u.slot ∧
        (∀ e ∈ u.paths [], t.hw.codeAt e.1 = { len := e.2.length, bits := e.2 }) ∧
        ∀ b : Byte, (0 < s.hw.histAt b ↔ b ∈ u.syms) ∧ (b ∉ u.syms → t.hw.codeAt b = { len := 0, bits := [] })) ∧
      t.hw = { s.hw with root := t.hw.root, rootValid := t.hw.rootValid, code := t.hw.code, bsub := .sort, phase := .ready } ∧
      t.cfg = s.cfg ∧ t.env = s.env

/-- R184, R182, R202: when the core has the next turns (log entry 2), a BUILD runs 1 SORT, max(n-1, 0) MERGE and 1 CODEGEN: max(n, 1) + 1
steps, not fewer, and leaves 2 n - 1 nodes and the root in slot 2 n - 2 for n ≥ 1. -/
def Obligations.BuildTakesExactlyItsSteps : Prop :=
  ∀ (s : State) (more : List Event), s.Inv → s.env.events = List.replicate (max s.hw.nsym 1 + 1) .core ++ more →
    s.hw.phase = .build → s.hw.bsub = .sort →
    (∃ t : State, core.run (max s.hw.nsym 1 + 1) s = .next t ∧ t.env.events = more ∧ t.hw.phase = .ready ∧ t.hw.nnodes = 2 * s.hw.nsym - 1 ∧
      (1 ≤ s.hw.nsym → t.hw.rootValid = true ∧ t.hw.root.val = 2 * s.hw.nsym - 2)) ∧
    ∀ k, k ≤ max s.hw.nsym 1 → ∃ t : State, core.run k s = .next t ∧ t.hw.phase = .build

/-- R208, and log entry 2 for the run: the code table is a function of HIST alone: two builds that start from the same histogram, the
core having the next turns, end with the same tree and codes, whatever else differs. -/
def Obligations.CodeTableDependsOnTheHistogramOnly : Prop :=
  ∀ (s s' : State) (more more' : List Event), s.Inv → s'.Inv → s.hw.hist = s'.hw.hist →
    s.env.events = List.replicate (max s.hw.nsym 1 + 1) .core ++ more → s.hw.phase = .build → s.hw.bsub = .sort →
    s'.env.events = List.replicate (max s'.hw.nsym 1 + 1) .core ++ more' → s'.hw.phase = .build → s'.hw.bsub = .sort →
    ∃ t t' : State, core.run (max s.hw.nsym 1 + 1) s = .next t ∧ core.run (max s'.hw.nsym 1 + 1) s' = .next t' ∧
      t.hw.code = t'.hw.code ∧ t.hw.node = t'.hw.node ∧ t.hw.root = t'.hw.root ∧ t.hw.rootValid = t'.hw.rootValid

/-- R211 (the strict form, which the spec leaves a model to check), and log entry 2 for the run: after a BUILD a more frequent symbol has no longer a code. -/
def Obligations.FrequentSymbolsHaveNoLongerCodes : Prop :=
  ∀ (s : State) (more : List Event), s.Inv → s.env.events = List.replicate (max s.hw.nsym 1 + 1) .core ++ more →
    s.hw.phase = .build → s.hw.bsub = .sort →
    ∃ t : State, core.run (max s.hw.nsym 1 + 1) s = .next t ∧
      ∀ a b : Byte, 0 < s.hw.histAt b → s.hw.histAt b < s.hw.histAt a → (t.hw.codeAt a).len ≤ (t.hw.codeAt b).len

/-- R205: the code table, the tree and ROOT change only while PHASE = BUILD, by CLEAR or by reset. -/
def Obligations.CodeTableIsReadOnlyAfterBuild : Prop :=
  ∀ s t : State, step s = .next t → s.hw.phase ≠ .build →
    (t.hw.code = s.hw.code ∧ t.hw.node = s.hw.node ∧ t.hw.nnodes = s.hw.nnodes ∧ t.hw.seq = s.hw.seq ∧
      t.hw.root = s.hw.root ∧ t.hw.rootValid = s.hw.rootValid) ∨ ∃ q, t.hw.AtReset q

/-! ## The tree and the codes -/

/-- R41: in READY, ENCODE and DONE with ROOT_VALID, the tree under ROOT: every allocated node is reached exactly once, every Internal
node's frequency is the sum of its children's, and the leaves are exactly the symbols present, each with its count. -/
def Obligations.TreeInvariantOfBuiltStates : Prop :=
  ∀ s : State, s.Inv → s.hw.phase = .ready ∨ s.hw.phase = .encode ∨ s.hw.phase = .done → s.hw.rootValid = true →
    (∃ u : HTree, u.Stored s.hw ∧ u.slot = s.hw.root ∧ (u.slots.map Fin.val).Perm (List.range s.hw.nnodes) ∧
      u.syms.Nodup ∧ ∀ b : Byte, b ∈ u.syms ↔ 0 < s.hw.histAt b) ∧
    ∀ i : NodeIx, i.val < s.hw.nnodes →
      ((s.hw.nodeAt i).kind = .internal → (s.hw.nodeAt i).left ≠ (s.hw.nodeAt i).right ∧
        (s.hw.nodeAt i).left.val < s.hw.nnodes ∧ (s.hw.nodeAt i).right.val < s.hw.nnodes ∧
        (s.hw.nodeAt i).f = (s.hw.nodeAt (s.hw.nodeAt i).left).f + (s.hw.nodeAt (s.hw.nodeAt i).right).f) ∧
      ((s.hw.nodeAt i).kind = .leaf → (s.hw.nodeAt i).f = s.hw.histAt (s.hw.nodeAt i).sym ∧ 0 < (s.hw.nodeAt i).f)

/-- R206: no code is a beginning of another. -/
def Obligations.CodesArePrefixFree : Prop :=
  ∀ s : State, s.Inv → s.hw.phase = .ready ∨ s.hw.phase = .encode ∨ s.hw.phase = .done →
    ∀ a b : Byte, a ≠ b → 0 < (s.hw.codeAt a).len → 0 < (s.hw.codeAt b).len →
      ¬ (s.hw.codeAt a).bits <+: (s.hw.codeAt b).bits

/-- R207: the Kraft sum, scaled by 2^255: 1 for n ≥ 2, 1/2 for n = 1, 0 for n = 0. -/
def Obligations.KraftSumOfTheCodeTable : Prop :=
  ∀ s : State, s.Inv → s.hw.phase = .ready ∨ s.hw.phase = .encode ∨ s.hw.phase = .done →
    ((symbols.filter fun b => decide (0 < (s.hw.codeAt b).len)).map fun b => 2 ^ (255 - (s.hw.codeAt b).len)).sum =
      if 2 ≤ s.hw.nsym then 2 ^ 255 else if s.hw.nsym = 1 then 2 ^ 254 else 0

/-- R209: decoding the concatenated codes of any bytes that have codes gives the bytes back, with nothing left over. -/
def Obligations.DecodingTheCodesGivesTheBytesBack : Prop :=
  ∀ (s : State) (bytes : List Byte), s.Inv → s.hw.phase = .ready ∨ s.hw.phase = .encode ∨ s.hw.phase = .done →
    (∀ b ∈ bytes, 0 < (s.hw.codeAt b).len) →
    s.hw.decodeBits [] (bytes.flatMap fun b => (s.hw.codeAt b).bits) = (bytes, [])

/-! ## Pass 2 -/

/-- R221, R222, R224, R255: a DATA beat of pass 2 raises LEN_MISMATCH when it is one too many, then NO_CODE when its byte has no code; and
with room for its output it appends exactly its code's bits to the bits queued and pending, and counts. -/
def Obligations.EncodeBeatAppendsItsCode : Prop :=
  ∀ (s : State) (b : Byte), s.Inv → s.hw.phase = .encode →
    (s.hw.encIn = s.hw.total →
      ∃ t, exec (.inDataEncode b) s = .next t ∧ t.cfg = s.cfg ∧ t.hw = (s.raise .lenMismatch).hw) ∧
    (s.hw.encIn ≠ s.hw.total → (s.hw.codeAt b).len = 0 →
      ∃ t, exec (.inDataEncode b) s = .next t ∧ t.cfg = s.cfg ∧ t.hw = (s.raise .noCode).hw) ∧
    (s.hw.encIn ≠ s.hw.total → 0 < (s.hw.codeAt b).len →
      s.hw.outq.length + (s.hw.nacc.val + (s.hw.codeAt b).len) / 8 ≤ s.cfg.depth →
      ∃ (t : State) (out : List Byte), exec (.inDataEncode b) s = .next t ∧ t.cfg = s.cfg ∧
        t.hw.outq = s.hw.outq ++ out.map .data ∧ out.length = (s.hw.nacc.val + (s.hw.codeAt b).len) / 8 ∧
        t.hw.bitStream = s.hw.bitStream ++ (s.hw.codeAt b).bits ∧
        t.hw.nacc.val = (s.hw.nacc.val + (s.hw.codeAt b).len) % 8 ∧ t.hw.acc.toNat < 2 ^ t.hw.nacc.val ∧
        t.hw = { s.hw with
          acc := t.hw.acc, nacc := t.hw.nacc, outq := t.hw.outq
          encOut := s.hw.encOut + out.length
          encIn := s.hw.encIn + 1
          encBits := s.hw.encBits + (s.hw.codeAt b).len })

/-- R226: the END beat of pass 2 raises LEN_MISMATCH when bytes are missing; else, with room for its output, it pushes the pending bits
left-aligned with zeros below as the last byte, where bits are pending, and then the END beat. -/
def Obligations.EncodeEndFlushesAndEnds : Prop :=
  ∀ (s : State) (d : Byte), s.hw.phase = .encode → s.hw.outq.length ≤ s.cfg.depth →
    (s.hw.encIn ≠ s.hw.total →
      ∃ t, exec (.inEndEncode d) s = .next t ∧ t.cfg = s.cfg ∧ t.hw = (s.raise .lenMismatch).hw) ∧
    (s.hw.encIn = s.hw.total → s.hw.outq.length + (if s.hw.nacc = 0 then 1 else 2) ≤ s.cfg.depth →
      ∃ t, exec (.inEndEncode d) s = .next t ∧ t.cfg = s.cfg ∧
        t.hw = { s.hw with
          lastbits := s.hw.nacc, acc := 0#8, nacc := 0, lbValid := true, phase := .done
          encOut := if s.hw.nacc = 0 then s.hw.encOut else s.hw.encOut + 1
          outq := s.hw.outq ++ if s.hw.nacc = 0 then [.endBeat]
            else [.data (BitVec.ofNat 8 (s.hw.acc.toNat * 2 ^ (8 - s.hw.nacc.val) % 256)), .endBeat] })

/-- R228: an ERROR or reserved beat of pass 2 raises IO_READ, and OUTQ becomes [ABORT]. -/
def Obligations.EncodeReadFailureRaises : Prop :=
  ∀ (s : State) (d : Byte), s.hw.phase = .encode →
    ∀ i ∈ [Instr.inErrorEncode d, .inRsvdEncode d],
      ∃ t, exec i s = .next t ∧ t.cfg = s.cfg ∧ t.hw = (s.raise .ioRead).hw ∧ t.hw.outq = [.abort]

/-- R72, R140, R220, R225, and log entries 3 and 4 (how the model says "waits" and "accepted"): which offered beats are accepted: all in COUNT; in ENCODE those whose output fits; none in any other phase,
where the state does not change. -/
def Obligations.InputPortAcceptance : Prop :=
  ∀ (s : State) (w : BeatWord), s.Inv →
    (s.hw.phase = .count → ∃ t, exec (decodeInBeat s.hw.phase w) s = .next t ∧ t.env = { s.env with src := s.env.src.tail }) ∧
    (s.hw.phase = .encode →
      ∃ need : Nat,
        (kindField w = 0#2 → need = if s.hw.encIn = s.hw.total ∨ (s.hw.codeAt (dataField w)).len = 0 then 0
          else (s.hw.nacc.val + (s.hw.codeAt (dataField w)).len) / 8) ∧
        (kindField w = 1#2 → need = if s.hw.encIn ≠ s.hw.total then 0 else if s.hw.nacc = 0 then 1 else 2) ∧
        (2 ≤ (kindField w).toNat → need = 0) ∧
        (s.hw.outq.length + need ≤ s.cfg.depth →
          ∃ t, exec (decodeInBeat s.hw.phase w) s = .next t ∧ t.env = { s.env with src := s.env.src.tail }) ∧
        (s.cfg.depth < s.hw.outq.length + need → exec (decodeInBeat s.hw.phase w) s = .next s)) ∧
    (s.hw.phase ≠ .count → s.hw.phase ≠ .encode → exec (decodeInBeat s.hw.phase w) s = .next s)

/-- R72, R15, and log entry 3: a beat's row whose phase is not the present one changes nothing, and IN_ANY@OTHER accepts no beat. -/
def Obligations.BeatsWaitOutsideTheirPhase : Prop :=
  ∀ (s : State) (kind : BitVec 2) (d : Byte),
    exec (.inAnyOther kind d) s = .next s ∧
    (s.hw.phase ≠ .count → ∀ i ∈ [Instr.inDataCount d, .inEndCount d, .inErrorCount d, .inRsvdCount d], exec i s = .next s) ∧
    (s.hw.phase ≠ .encode → ∀ i ∈ [Instr.inDataEncode d, .inEndEncode d, .inErrorEncode d, .inRsvdEncode d], exec i s = .next s)

/-- R231, R209: a pass 2 over bytes that all have codes, with a sink that takes, delivers DATA bytes whose bits are the concatenated codes
padded with fewer than eight zeros, then END; and the decode procedure gives the bytes back from the first ENC_BITS of them. -/
def Obligations.PassTwoDeliversTheCodedStream : Prop :=
  ∀ (s : State) (bytes : List Byte) (more : List BeatWord), s.Inv → s.hw.phase = .encode → s.hw.encIn = 0 → s.hw.outq = [] →
    s.hw.total = bytes.length → (∀ b ∈ bytes, 0 < (s.hw.codeAt b).len) →
    s.env.events = passTwoTurns bytes.length → s.env.src = passBeats bytes ++ more →
    ∃ (t : State) (out : List Byte) (pad : Nat), core.run (passTwoTurns bytes.length).length s = .next t ∧
      t.hw.phase = .done ∧ t.hw.outq = [] ∧ t.env.src = more ∧
      t.env.taken = s.env.taken ++ out.map .data ++ [.endBeat] ∧
      out.flatMap byteBits = (bytes.flatMap fun b => (s.hw.codeAt b).bits) ++ List.replicate pad false ∧ pad < 8 ∧
      t.hw.encBits = (bytes.flatMap fun b => (s.hw.codeAt b).bits).length ∧ t.hw.encOut = out.length ∧
      t.hw.encIn = bytes.length ∧ t.hw.lastbits.val = t.hw.encBits % 8 ∧
      t.hw.decodeBits [] ((out.flatMap byteBits).take t.hw.encBits) = (bytes, [])

/-- R234: when the sink takes its beats does not change what a beat of pass 2 pushes: two states that differ in OUTQ alone (and in their
environments) push the same beats for the same accepted beat, and then differ in OUTQ alone. -/
def Obligations.ArtifactIndependentOfTheSink : Prop :=
  ∀ (s s' t t' : State) (b : Byte), s.hw.phase = .encode → s'.hw = { s.hw with outq := s'.hw.outq } →
    ∀ i ∈ [Instr.inDataEncode b, .inEndEncode b, .inErrorEncode b, .inRsvdEncode b],
      exec i s = .next t → exec i s' = .next t' → t.hw ≠ s.hw → t'.hw ≠ s'.hw →
      t'.hw = { t.hw with outq := t'.hw.outq } ∧
      ((∃ new, t.hw.outq = s.hw.outq ++ new ∧ t'.hw.outq = s'.hw.outq ++ new) ∨ (t.hw.outq = [.abort] ∧ t'.hw.outq = [.abort]))

/-- R282, R292, R209: one whole run, from IDLE, of the host's sequence over any bytes that fit the counters: pass 1 counts them, the build
makes their codes, pass 2 delivers the artifact, and the decode procedure gives the bytes back. -/
def Obligations.WholeRunRoundTrips : Prop :=
  ∀ (s : State) (bytes : List Byte) (more : List BeatWord), s.Inv → s.hw.phase = .idle → s.hw.outq = [] →
    bytes.length ≤ 2 ^ s.cfg.cntW - 1 → s.env.events = pipelineTurns bytes →
    s.env.src = passBeats bytes ++ (passBeats bytes ++ more) →
    ∃ (t : State) (out : List Byte), core.run (pipelineTurns bytes).length s = .next t ∧
      t.hw.phase = .done ∧ t.hw.outq = [] ∧ t.hw.errCode = .none ∧ t.env.events = [] ∧ t.env.src = more ∧
      t.env.taken = s.env.taken ++ out.map .data ++ [.endBeat] ∧
      t.hw.total = bytes.length ∧ t.hw.encIn = bytes.length ∧ (∀ b : Byte, t.hw.histAt b = bytes.count b) ∧
      t.hw.decodeBits [] ((out.flatMap byteBits).take t.hw.encBits) = (bytes, [])

/-- R232: the accumulator and the counters in ENCODE and at DONE. -/
def Obligations.ValidBitCountsOfPassTwo : Prop :=
  ∀ s : State, s.Inv →
    (s.hw.phase = .encode → s.hw.nacc.val = s.hw.encBits % 8 ∧ s.hw.encOut = s.hw.encBits / 8 ∧ s.hw.encIn ≤ s.hw.total) ∧
    (s.hw.phase = .done → s.hw.encOut = (s.hw.encBits + 7) / 8 ∧ s.hw.lastbits.val = s.hw.encBits % 8 ∧
      s.hw.lbValid = true ∧ s.hw.encIn = s.hw.total)

/-! ## The output port -/

/-- R229, R15, and log entries 3 and 8 (how the model says "not enabled" and "delivered"): the sink takes the head of OUTQ, in any
phase; with OUTQ empty nothing happens; in IDLE and ERROR there is at most the one ABORT beat to take. -/
def Obligations.SinkTakesTheHead : Prop :=
  ∀ s : State,
    (∀ b rest, s.hw.outq = b :: rest → exec .snkTake s = .next { s with
      hw := { s.hw with outq := rest }, env := { s.env with taken := s.env.taken ++ [b] } }) ∧
    (s.hw.outq = [] → exec .snkTake s = .next s) ∧
    (s.Inv → s.hw.phase = .idle ∨ s.hw.phase = .error → s.hw.outq = [] ∨ s.hw.outq = [.abort])

/-- R73, R94, R229, and log entry 5 (the model's reading of the three output rows): the transfer of a beat completes when that beat is the
head of OUTQ, which the sink then takes; with another head, or none, that transfer does not happen. -/
def Obligations.OutputBeatsTransferTheHead : Prop :=
  ∀ (s : State) (x : Byte),
    ∀ e ∈ [(Instr.outData x, OutBeat.data x), (.outEnd, .endBeat), (.outAbort, .abort)],
      (∀ rest, s.hw.outq = e.2 :: rest → exec e.1 s = .next { s with
        hw := { s.hw with outq := rest }, env := { s.env with taken := s.env.taken ++ [e.2] } }) ∧
      (s.hw.outq.head? ≠ some e.2 → exec e.1 s = .next s)

/-- R230: the sink's failure report is IO_WRITE while an artifact is being written or not yet taken, and ignored otherwise. -/
def Obligations.SinkFailureRaisesDuringAnArtifact : Prop :=
  ∀ s : State,
    exec .snkFail s = (if s.hw.phase = .encode ∨ (s.hw.phase = .done ∧ s.hw.outq ≠ []) then .next (s.raise .ioWrite) else .next s)

/-- R38, R70, R73: OUTQ is a queue: a step appends to it, takes its head, or replaces it by [ABORT] or [] on an error, CLEAR or reset. -/
def Obligations.OutputQueueIsFirstInFirstOut : Prop :=
  ∀ s t : State, s.Inv → step s = .next t →
    (∃ new, t.hw.outq = s.hw.outq ++ new ∧ t.env.taken = s.env.taken) ∨
    (∃ b, s.hw.outq = b :: t.hw.outq ∧ t.env.taken = s.env.taken ++ [b]) ∨
    (t.hw.phase = .error ∧ t.hw.outq = [.abort] ∧ t.env.taken = s.env.taken) ∨
    (t.hw.phase = .idle ∧ (t.hw.outq = [.abort] ∨ t.hw.outq = []) ∧ t.env.taken = s.env.taken)

/-! ## The register port -/

/-- R66: a read changes no state of HUFENC, and outside BUILD two reads in a row return the same word. -/
def Obligations.ReadsHaveNoSideEffect : Prop :=
  ∀ (s : State) (a : WordAddr), ∃ (t : State) (w : Word), exec (.regRead a) s = .next t ∧ t.hw = s.hw ∧ t.cfg = s.cfg ∧
    t.env.readLog = s.env.readLog ++ [w] ∧ t.env.events = s.env.events ∧ t.env.src = s.env.src ∧ t.env.taken = s.env.taken ∧
    (s.hw.phase ≠ .build → t.env.draws = s.env.draws ∧ ∃ t', exec (.regRead a) t = .next t' ∧ t'.env.readLog = s.env.readLog ++ [w, w])

/-- R68 and log entry 7 (the model's free value): in BUILD a read of ROOT, NNODES, SEQLEN, the NODE window or the CODE window returns a fresh draw, whatever it is; any other read
returns the register's word. -/
def Obligations.BuildReadsAreFreshDraws : Prop :=
  ∀ (s : State) (off : Nat), s.hw.phase = .build → off % 4 = 0 → off ≤ 0x7FFC →
    (OpenInBuild off → exec (.regRead (addrOf off)) s = .next { s with env := { s.env with
      readLog := s.env.readLog ++ [Config.freeRead s.env.draws], draws := s.env.draws + 1 } }) ∧
    (¬ OpenInBuild off → s.Reads off (s.regWord (regAt (addrOf off))))

/-- R64, R65, R96, R97, R98: reserved offsets read 0, CMD reads 0, ID reads its constant, in every phase. -/
def Obligations.ConstantOffsetsRead : Prop :=
  ∀ s : State, s.Reads 0x0000 0x48554631#32 ∧ s.Reads 0x0004 0#32 ∧
    ∀ off : Nat, off % 4 = 0 → Reserved off → s.Reads off 0#32

/-- R99: the fields of STATUS, in every phase; its reset value; no write changes anything. -/
def Obligations.StatusRegisterFields : Prop :=
  ([Phase.idle, .count, .counted, .build, .ready, .encode, .done, .error].map phaseCode = [0#3, 1#3, 2#3, 3#3, 4#3, 5#3, 6#3, 7#3]) ∧
  ∀ s : State, s.Inv → ∃ w : Word, s.Reads 0x0008 w ∧
    w.extractLsb' 0 3 = phaseCode s.hw.phase ∧
    (w.getLsbD 3 = true ↔ s.hw.phase = .count ∨ s.hw.phase = .build ∨ s.hw.phase = .encode) ∧
    w.extractLsb' 4 2 = (match s.hw.bsub with | .sort => 0#2 | .merge => 1#2 | .codegen => 2#2) ∧
    (w.getLsbD 6 = true ↔ s.hw.outq = []) ∧
    (w.getLsbD 7 = true ↔ s.hw.errCode ≠ .none) ∧
    (w.extractLsb' 8 8).toNat = s.hw.outq.length ∧
    w.extractLsb' 16 16 = 0#16 ∧
    State.reset.Reads 0x0008 0x00000040#32 ∧ ∀ v : Word, exec (.regWrite (addrOf 0x0008) v) s = .next s

/-- R100, R108: the fields of ERR, in every phase; its reset value; no write changes anything. -/
def Obligations.ErrRegisterFields : Prop :=
  ∀ s : State, ∃ w : Word, s.Reads 0x000C w ∧
    w.extractLsb' 0 4 = (match s.hw.errCode with
      | .none => 0#4 | .ioRead => 1#4 | .ioWrite => 2#4 | .countOvf => 3#4 | .noCode => 4#4 | .lenMismatch => 5#4
      | .cmdIllegal => 6#4 | .cmdSeq => 7#4) ∧
    w.extractLsb' 4 3 = (match s.hw.errPhase with
      | .idle => 0#3 | .count => 1#3 | .counted => 2#3 | .build => 3#3 | .ready => 4#3 | .encode => 5#3 | .done => 6#3 | .error => 7#3) ∧
    w.extractLsb' 7 25 = 0#25 ∧
    State.reset.Reads 0x000C 0#32 ∧ ∀ v : Word, exec (.regWrite (addrOf 0x000C) v) s = .next s

/-- R101, R103, R104, R105, R67: the counters, the 64-bit halves, LASTBITS, PARAM and the HIST window read the current values, exactly, in
every phase; all but PARAM read 0 after reset, PARAM then 0x2020 (its defaults); no write changes anything. -/
def Obligations.CounterRegistersReadExactly : Prop :=
  ∀ s : State, s.Inv → ∃ tot ns mx ei ol oh bl bh lb pm : Word,
    s.Reads 0x0010 tot ∧ tot.toNat = s.hw.total ∧ s.Reads 0x0014 ns ∧ ns.toNat = s.hw.nsym ∧
    s.Reads 0x0018 mx ∧ mx.toNat = s.hw.maxf ∧ s.Reads 0x0028 ei ∧ ei.toNat = s.hw.encIn ∧
    s.Reads 0x002C ol ∧ s.Reads 0x0030 oh ∧ oh.toNat * 2 ^ 32 + ol.toNat = s.hw.encOut ∧
    s.Reads 0x0034 bl ∧ s.Reads 0x0038 bh ∧ bh.toNat * 2 ^ 32 + bl.toNat = s.hw.encBits ∧
    s.Reads 0x003C lb ∧ lb.getLsbD 31 = s.hw.lbValid ∧ (lb.extractLsb' 0 3).toNat = s.hw.lastbits.val ∧ lb.extractLsb' 3 28 = 0#28 ∧
    s.Reads 0x0040 pm ∧ pm.toNat = 256 * s.cfg.depth + s.cfg.cntW ∧
    (∀ b : Byte, ∃ w : Word, s.Reads (0x0400 + 4 * b.toNat) w ∧ w.toNat = s.hw.histAt b) ∧
    State.reset.Reads 0x0040 0x00002020#32 ∧
    ∀ off : Nat, off ∈ [0x0010, 0x0014, 0x0018, 0x0028, 0x002C, 0x0030, 0x0034, 0x0038, 0x003C, 0x0040] ∨
        (0x0400 ≤ off ∧ off ≤ 0x07FC) → off % 4 = 0 →
      (off ≠ 0x0040 → State.reset.Reads off 0#32) ∧ ∀ v : Word, exec (.regWrite (addrOf off) v) s = .next s

/-- R102, R106: ROOT, NNODES, SEQLEN and the NODE window outside BUILD. -/
def Obligations.TreeRegistersReadTheTree : Prop :=
  ∀ s : State, s.Inv → s.hw.phase ≠ .build → ∃ rt nn sl : Word,
    s.Reads 0x001C rt ∧ rt.getLsbD 31 = s.hw.rootValid ∧ (rt.extractLsb' 0 9).toNat = s.hw.root.val ∧ rt.extractLsb' 9 22 = 0#22 ∧
    s.Reads 0x0020 nn ∧ nn.toNat = s.hw.nnodes ∧ s.Reads 0x0024 sl ∧ sl.toNat = s.hw.seq.length ∧
    ∀ i : NodeIx, ∃ fw lw : Word, s.Reads (0x1000 + 8 * i.val) fw ∧ s.Reads (0x1000 + 8 * i.val + 4) lw ∧
      (s.hw.nnodes ≤ i.val → fw = 0#32 ∧ lw = 0#32) ∧
      (i.val < s.hw.nnodes → fw.toNat = (s.hw.nodeAt i).f ∧
        ((s.hw.nodeAt i).kind = .leaf → lw.toNat = (s.hw.nodeAt i).sym.toNat) ∧
        ((s.hw.nodeAt i).kind = .internal → lw.getLsbD 31 = true ∧ lw.extractLsb' 25 6 = 0#6 ∧
          (lw.extractLsb' 16 9).toNat = (s.hw.nodeAt i).right.val ∧ lw.extractLsb' 9 7 = 0#7 ∧
          (lw.extractLsb' 0 9).toNat = (s.hw.nodeAt i).left.val))

/-- R107: the sixteen words of each symbol in the CODE window outside BUILD: the length, the code left-aligned MSB first, zeros. -/
def Obligations.CodeWindowReadsTheCodes : Prop :=
  ∀ s : State, s.Inv → s.hw.phase ≠ .build → ∀ b : Byte,
    (∃ w : Word, s.Reads (0x2000 + 64 * b.toNat) w ∧ w.toNat = (s.hw.codeAt b).len) ∧
    (∀ k, 1 ≤ k → k ≤ 8 → ∃ w : Word, s.Reads (0x2000 + 64 * b.toNat + 4 * k) w ∧
      ∀ t, t < 32 → w.getLsbD (31 - t) = (s.hw.codeAt b).bits.getD (32 * (k - 1) + t) false) ∧
    (∀ k, 9 ≤ k → k ≤ 15 → s.Reads (0x2000 + 64 * b.toNat + 4 * k) 0#32)

/-! ## Encoding -/

/-- Decoding what presents a well-formed instruction, under the phase and sub-step that select its row, gives it back, for every
instruction and every operand. -/
def Obligations.DecodeOfEncode : Prop :=
  ∀ (i : Instr) (ph : Phase) (bs : BSub), i.wellFormed = true → i.selectedIn ph bs = true → decode ph bs (encode i) = .ok i

/-- Whatever decodes, decodes to a well-formed instruction whose encoding is what was presented. -/
def Obligations.EncodeOfDecode : Prop :=
  ∀ (ph : Phase) (bs : BSub) (p : PortWord) (i : Instr), decode ph bs p = .ok i →
    i.wellFormed = true ∧ i.selectedIn ph bs = true ∧ encode i = p

/-- R91, R92: every 32-bit word written to CMD is NOP, CLEAR, COUNT, BUILD, ENCODE or illegal, by its value alone. -/
def Obligations.EveryCommandWordIsDecoded : Prop :=
  ∀ v : Word,
    (v.toNat = 0 → decodeCommand v = .nop) ∧ (v.toNat = 1 → decodeCommand v = .clear) ∧ (v.toNat = 2 → decodeCommand v = .count) ∧
    (v.toNat = 3 → decodeCommand v = .build) ∧ (v.toNat = 4 → decodeCommand v = .encode) ∧
    (v.toNat = 5 → decodeCommand v = .cmdIllegalOp5) ∧
    (v.toNat = 6 ∨ v.toNat = 7 → decodeCommand v = .cmdIllegalOp67 (BitVec.ofNat 1 v.toNat)) ∧
    (8 ≤ v.toNat → v.toNat < 16 → decodeCommand v = .cmdIllegalOp8F (BitVec.ofNat 3 v.toNat)) ∧
    (16 ≤ v.toNat → decodeCommand v = .cmdIllegalRsvd (BitVec.ofNat 28 (v.toNat / 16)) (BitVec.ofNat 4 v.toNat))

/-- R91, R93, R94: seven words written out bit by bit from the encoding tables decode to their rows; and an eighth, of the KIND that R94
says is never produced, is rejected by name, which is log entry 17, the model's reading. -/
def Obligations.WordsOfTheTablesDecode : Prop :=
  decode .idle .sort (.hostWrite 0b0000000000001#13 0b00000000000000000000000000000010#32) = .ok .count ∧
  decode .idle .sort (.hostWrite 0b0000000000001#13 0b00000000000000000000000000010001#32) = .ok (.cmdIllegalRsvd 1#28 1#4) ∧
  decode .count .sort (.inBeat 0b0001000001#10) = .ok (.inDataCount 0x41#8) ∧
  decode .encode .sort (.inBeat 0b0100000000#10) = .ok (.inEndEncode 0x00#8) ∧
  decode .ready .sort (.inBeat 0b1100000101#10) = .ok (.inAnyOther 3#2 0x05#8) ∧
  decode .done .sort (.outBeat 0b0011000100#10) = .ok (.outData 0xC4#8) ∧
  decode .error .sort (.outBeat 0b1000000000#10) = .ok .outAbort ∧
  decode .idle .sort (.outBeat 0b1100000000#10) = .error (.outKindReserved 0x300#10)

/-! ## The step -/

/-- R60, R72 and log entries 2 and 4 (the model's listed turns and beats) and 17 (the refusal): when the first listed turn presents a word that decodes, the
step is that instruction at the state without that turn; a word that decodes to no row is refused; and the source's turn with no beat
listed leaves HUFENC as it is and lists the source's next block of beats, whatever it is. -/
def Obligations.StepRunsTheDecodedInstruction : Prop :=
  ∀ (s : State) (e : Event) (es : List Event), s.env.events = e :: es →
    (∀ p, s.present e = some p →
      (∀ i, decode s.hw.phase s.hw.bsub p = .ok i → step s = exec i { s with env := { s.env with events := es } }) ∧
      ∀ x, decode s.hw.phase s.hw.bsub p = .error x →
        step s = if x = .noCoreStep then .next { s with env := { s.env with events := es } } else .refused (.undecodable x)) ∧
    (e = .source → s.env.src = [] → step s = .next { s with env := { s.env with
      events := es, src := Config.freeBeats s.env.beatBlocks, beatBlocks := s.env.beatBlocks + 1 } })

/-- R60, R61 and log entry 2 (the model's listed turns): with no turn listed the core has it, and the next block of turns is listed,
whatever it is: the core's pending step runs in BUILD, and in every other phase HUFENC stays as it is. -/
def Obligations.CoreMovesWhenNoTurnIsListed : Prop :=
  ∀ s s' : State, s.env.events = [] → s' = { s with env := { s.env with
      events := (Config.freeTurns s.env.turnBlocks).map agentStep, turnBlocks := s.env.turnBlocks + 1 } } →
    (s.hw.phase = .build → step s = exec (match s.hw.bsub with | .sort => .sort | .merge => .merge | .codegen => .codegen) s') ∧
    (s.hw.phase ≠ .build → step s = .next s')

/-- R10, R42: no step changes the parameters. -/
def Obligations.StepKeepsTheParameters : Prop :=
  ∀ s t : State, step s = .next t → t.cfg = s.cfg

/-- R22: the phase changes only as the table of phases says: along the pipeline, to ERROR, or to IDLE by CLEAR or reset. -/
def Obligations.PhasesFollowThePipeline : Prop :=
  ∀ s t : State, step s = .next t → t.hw.phase ≠ s.hw.phase →
    (s.hw.phase, t.hw.phase) ∈ [(Phase.idle, Phase.count), (.count, .counted), (.counted, .build), (.build, .ready),
      (.ready, .encode), (.encode, .done), (.done, .encode)] ∨
    (t.hw.phase = .error ∧ t.hw.errCode ≠ .none) ∨ ∃ q, t.hw.AtReset q

/-! ## The invariant -/

/-- The state after reset meets the invariant. -/
def Obligations.ResetMeetsTheInvariant : Prop := State.reset.Inv

/-- R41, R142, R146, R186, R187, R232: every step keeps the invariant, from every state that meets it. -/
def Obligations.StepKeepsTheInvariant : Prop :=
  ∀ s t : State, s.Inv → step s = .next t → t.Inv

/-- R180, R186, R227: from a state that meets the invariant no assertion fires: no push meets a full OUTQ, MERGE finds two entries and a
free slot, and the walk ends. -/
def Obligations.NoAssertionFires : Prop :=
  ∀ (s : State) (i : Instr) (r : Fault), s.Inv → exec i s ≠ .fault r ∧ step s ≠ .fault r

/-- R7, R8, R36, R142, R186: every element fits its width: no counter ever wraps. -/
def Obligations.EveryElementFitsItsWidth : Prop :=
  ∀ s : State, s.Inv → s.hw.Fits s.cfg

/-! ## Executions without end -/

/-- R60, R61, and log entry 2: no execution ends, whatever turns are listed and drawn, as long as each is a step of R60 (no beat named
at the output port); and the core's turn comes once the listed turns are taken: in BUILD its pending step then fires. -/
def Obligations.ExecutionsGoOnAndServeTheCore : Prop :=
  ∀ s : State, s.Inv → (∀ e ∈ s.env.events, agentStep e = e) →
    (∀ n, ∃ t : State, core.run n s = .next t ∧ t.Inv ∧ ∀ e ∈ t.env.events, agentStep e = e) ∧
    ∃ t : State, core.run s.env.events.length s = .next t ∧ t.env.events = [] ∧
      (t.hw.phase = .build → ∃ u u' : State, step t = .next u ∧
        exec (match t.hw.bsub with | .sort => .sort | .merge => .merge | .codegen => .codegen) t = .next u' ∧
        u.hw = u'.hw ∧ u.hw ≠ t.hw)
end

