-- ==== Sys2Proof/Laws/State.lean ====
section
/-! SUPPORT. One lemma for each field and each update of State, and the reading of an array after a write, so that no proof unfolds a
record update. -/

namespace Sys2Proof.Machine

/-! ## HUFENC's own state -/

/-! ### raise -/

@[simp] theorem Hw.raise_phase (hw : Hw) (c : ErrCode) : (hw.raise c).phase = .error := rfl
@[simp] theorem Hw.raise_bsub (hw : Hw) (c : ErrCode) : (hw.raise c).bsub = .sort := rfl
@[simp] theorem Hw.raise_hist (hw : Hw) (c : ErrCode) : (hw.raise c).hist = hw.hist := rfl
@[simp] theorem Hw.raise_histAt (hw : Hw) (c : ErrCode) (x : Byte) : (hw.raise c).histAt x = hw.histAt x := rfl
@[simp] theorem Hw.raise_total (hw : Hw) (c : ErrCode) : (hw.raise c).total = hw.total := rfl
@[simp] theorem Hw.raise_nsym (hw : Hw) (c : ErrCode) : (hw.raise c).nsym = hw.nsym := rfl
@[simp] theorem Hw.raise_maxf (hw : Hw) (c : ErrCode) : (hw.raise c).maxf = hw.maxf := rfl
@[simp] theorem Hw.raise_node (hw : Hw) (c : ErrCode) : (hw.raise c).node = hw.node := rfl
@[simp] theorem Hw.raise_nodeAt (hw : Hw) (c : ErrCode) (x : NodeIx) : (hw.raise c).nodeAt x = hw.nodeAt x := rfl
@[simp] theorem Hw.raise_nnodes (hw : Hw) (c : ErrCode) : (hw.raise c).nnodes = hw.nnodes := rfl
@[simp] theorem Hw.raise_seq (hw : Hw) (c : ErrCode) : (hw.raise c).seq = hw.seq := rfl
@[simp] theorem Hw.raise_root (hw : Hw) (c : ErrCode) : (hw.raise c).root = hw.root := rfl
@[simp] theorem Hw.raise_rootValid (hw : Hw) (c : ErrCode) : (hw.raise c).rootValid = hw.rootValid := rfl
@[simp] theorem Hw.raise_code (hw : Hw) (c : ErrCode) : (hw.raise c).code = hw.code := rfl
@[simp] theorem Hw.raise_codeAt (hw : Hw) (c : ErrCode) (x : Byte) : (hw.raise c).codeAt x = hw.codeAt x := rfl
@[simp] theorem Hw.raise_acc (hw : Hw) (c : ErrCode) : (hw.raise c).acc = hw.acc := rfl
@[simp] theorem Hw.raise_nacc (hw : Hw) (c : ErrCode) : (hw.raise c).nacc = hw.nacc := rfl
@[simp] theorem Hw.raise_encIn (hw : Hw) (c : ErrCode) : (hw.raise c).encIn = hw.encIn := rfl
@[simp] theorem Hw.raise_encOut (hw : Hw) (c : ErrCode) : (hw.raise c).encOut = hw.encOut := rfl
@[simp] theorem Hw.raise_encBits (hw : Hw) (c : ErrCode) : (hw.raise c).encBits = hw.encBits := rfl
@[simp] theorem Hw.raise_lastbits (hw : Hw) (c : ErrCode) : (hw.raise c).lastbits = hw.lastbits := rfl
@[simp] theorem Hw.raise_lbValid (hw : Hw) (c : ErrCode) : (hw.raise c).lbValid = hw.lbValid := rfl

/-! ### setHist -/

@[simp] theorem Hw.setHist_phase (hw : Hw) (b : Byte) (v : Nat) : (hw.setHist b v).phase = hw.phase := rfl
@[simp] theorem Hw.setHist_bsub (hw : Hw) (b : Byte) (v : Nat) : (hw.setHist b v).bsub = hw.bsub := rfl
@[simp] theorem Hw.setHist_total (hw : Hw) (b : Byte) (v : Nat) : (hw.setHist b v).total = hw.total := rfl
@[simp] theorem Hw.setHist_nsym (hw : Hw) (b : Byte) (v : Nat) : (hw.setHist b v).nsym = hw.nsym := rfl
@[simp] theorem Hw.setHist_maxf (hw : Hw) (b : Byte) (v : Nat) : (hw.setHist b v).maxf = hw.maxf := rfl
@[simp] theorem Hw.setHist_node (hw : Hw) (b : Byte) (v : Nat) : (hw.setHist b v).node = hw.node := rfl
@[simp] theorem Hw.setHist_nodeAt (hw : Hw) (b : Byte) (v : Nat) (x : NodeIx) : (hw.setHist b v).nodeAt x = hw.nodeAt x := rfl
@[simp] theorem Hw.setHist_nnodes (hw : Hw) (b : Byte) (v : Nat) : (hw.setHist b v).nnodes = hw.nnodes := rfl
@[simp] theorem Hw.setHist_seq (hw : Hw) (b : Byte) (v : Nat) : (hw.setHist b v).seq = hw.seq := rfl
@[simp] theorem Hw.setHist_root (hw : Hw) (b : Byte) (v : Nat) : (hw.setHist b v).root = hw.root := rfl
@[simp] theorem Hw.setHist_rootValid (hw : Hw) (b : Byte) (v : Nat) : (hw.setHist b v).rootValid = hw.rootValid := rfl
@[simp] theorem Hw.setHist_code (hw : Hw) (b : Byte) (v : Nat) : (hw.setHist b v).code = hw.code := rfl
@[simp] theorem Hw.setHist_codeAt (hw : Hw) (b : Byte) (v : Nat) (x : Byte) : (hw.setHist b v).codeAt x = hw.codeAt x := rfl
@[simp] theorem Hw.setHist_acc (hw : Hw) (b : Byte) (v : Nat) : (hw.setHist b v).acc = hw.acc := rfl
@[simp] theorem Hw.setHist_nacc (hw : Hw) (b : Byte) (v : Nat) : (hw.setHist b v).nacc = hw.nacc := rfl
@[simp] theorem Hw.setHist_encIn (hw : Hw) (b : Byte) (v : Nat) : (hw.setHist b v).encIn = hw.encIn := rfl
@[simp] theorem Hw.setHist_encOut (hw : Hw) (b : Byte) (v : Nat) : (hw.setHist b v).encOut = hw.encOut := rfl
@[simp] theorem Hw.setHist_encBits (hw : Hw) (b : Byte) (v : Nat) : (hw.setHist b v).encBits = hw.encBits := rfl
@[simp] theorem Hw.setHist_lastbits (hw : Hw) (b : Byte) (v : Nat) : (hw.setHist b v).lastbits = hw.lastbits := rfl
@[simp] theorem Hw.setHist_lbValid (hw : Hw) (b : Byte) (v : Nat) : (hw.setHist b v).lbValid = hw.lbValid := rfl
@[simp] theorem Hw.setHist_outq (hw : Hw) (b : Byte) (v : Nat) : (hw.setHist b v).outq = hw.outq := rfl
@[simp] theorem Hw.setHist_errCode (hw : Hw) (b : Byte) (v : Nat) : (hw.setHist b v).errCode = hw.errCode := rfl
@[simp] theorem Hw.setHist_errPhase (hw : Hw) (b : Byte) (v : Nat) : (hw.setHist b v).errPhase = hw.errPhase := rfl

/-! ### setNode -/

@[simp] theorem Hw.setNode_phase (hw : Hw) (i : NodeIx) (n : Node) : (hw.setNode i n).phase = hw.phase := rfl
@[simp] theorem Hw.setNode_bsub (hw : Hw) (i : NodeIx) (n : Node) : (hw.setNode i n).bsub = hw.bsub := rfl
@[simp] theorem Hw.setNode_hist (hw : Hw) (i : NodeIx) (n : Node) : (hw.setNode i n).hist = hw.hist := rfl
@[simp] theorem Hw.setNode_histAt (hw : Hw) (i : NodeIx) (n : Node) (x : Byte) : (hw.setNode i n).histAt x = hw.histAt x := rfl
@[simp] theorem Hw.setNode_total (hw : Hw) (i : NodeIx) (n : Node) : (hw.setNode i n).total = hw.total := rfl
@[simp] theorem Hw.setNode_nsym (hw : Hw) (i : NodeIx) (n : Node) : (hw.setNode i n).nsym = hw.nsym := rfl
@[simp] theorem Hw.setNode_maxf (hw : Hw) (i : NodeIx) (n : Node) : (hw.setNode i n).maxf = hw.maxf := rfl
@[simp] theorem Hw.setNode_nnodes (hw : Hw) (i : NodeIx) (n : Node) : (hw.setNode i n).nnodes = hw.nnodes := rfl
@[simp] theorem Hw.setNode_seq (hw : Hw) (i : NodeIx) (n : Node) : (hw.setNode i n).seq = hw.seq := rfl
@[simp] theorem Hw.setNode_root (hw : Hw) (i : NodeIx) (n : Node) : (hw.setNode i n).root = hw.root := rfl
@[simp] theorem Hw.setNode_rootValid (hw : Hw) (i : NodeIx) (n : Node) : (hw.setNode i n).rootValid = hw.rootValid := rfl
@[simp] theorem Hw.setNode_code (hw : Hw) (i : NodeIx) (n : Node) : (hw.setNode i n).code = hw.code := rfl
@[simp] theorem Hw.setNode_codeAt (hw : Hw) (i : NodeIx) (n : Node) (x : Byte) : (hw.setNode i n).codeAt x = hw.codeAt x := rfl
@[simp] theorem Hw.setNode_acc (hw : Hw) (i : NodeIx) (n : Node) : (hw.setNode i n).acc = hw.acc := rfl
@[simp] theorem Hw.setNode_nacc (hw : Hw) (i : NodeIx) (n : Node) : (hw.setNode i n).nacc = hw.nacc := rfl
@[simp] theorem Hw.setNode_encIn (hw : Hw) (i : NodeIx) (n : Node) : (hw.setNode i n).encIn = hw.encIn := rfl
@[simp] theorem Hw.setNode_encOut (hw : Hw) (i : NodeIx) (n : Node) : (hw.setNode i n).encOut = hw.encOut := rfl
@[simp] theorem Hw.setNode_encBits (hw : Hw) (i : NodeIx) (n : Node) : (hw.setNode i n).encBits = hw.encBits := rfl
@[simp] theorem Hw.setNode_lastbits (hw : Hw) (i : NodeIx) (n : Node) : (hw.setNode i n).lastbits = hw.lastbits := rfl
@[simp] theorem Hw.setNode_lbValid (hw : Hw) (i : NodeIx) (n : Node) : (hw.setNode i n).lbValid = hw.lbValid := rfl
@[simp] theorem Hw.setNode_outq (hw : Hw) (i : NodeIx) (n : Node) : (hw.setNode i n).outq = hw.outq := rfl
@[simp] theorem Hw.setNode_errCode (hw : Hw) (i : NodeIx) (n : Node) : (hw.setNode i n).errCode = hw.errCode := rfl
@[simp] theorem Hw.setNode_errPhase (hw : Hw) (i : NodeIx) (n : Node) : (hw.setNode i n).errPhase = hw.errPhase := rfl

/-! ### countSymbol -/

@[simp] theorem Hw.countSymbol_phase (hw : Hw) (b : Byte) : (hw.countSymbol b).phase = hw.phase := rfl
@[simp] theorem Hw.countSymbol_bsub (hw : Hw) (b : Byte) : (hw.countSymbol b).bsub = hw.bsub := rfl
@[simp] theorem Hw.countSymbol_total (hw : Hw) (b : Byte) : (hw.countSymbol b).total = hw.total + 1 := rfl
@[simp] theorem Hw.countSymbol_node (hw : Hw) (b : Byte) : (hw.countSymbol b).node = hw.node := rfl
@[simp] theorem Hw.countSymbol_nodeAt (hw : Hw) (b : Byte) (x : NodeIx) : (hw.countSymbol b).nodeAt x = hw.nodeAt x := rfl
@[simp] theorem Hw.countSymbol_nnodes (hw : Hw) (b : Byte) : (hw.countSymbol b).nnodes = hw.nnodes := rfl
@[simp] theorem Hw.countSymbol_seq (hw : Hw) (b : Byte) : (hw.countSymbol b).seq = hw.seq := rfl
@[simp] theorem Hw.countSymbol_root (hw : Hw) (b : Byte) : (hw.countSymbol b).root = hw.root := rfl
@[simp] theorem Hw.countSymbol_rootValid (hw : Hw) (b : Byte) : (hw.countSymbol b).rootValid = hw.rootValid := rfl
@[simp] theorem Hw.countSymbol_code (hw : Hw) (b : Byte) : (hw.countSymbol b).code = hw.code := rfl
@[simp] theorem Hw.countSymbol_codeAt (hw : Hw) (b : Byte) (x : Byte) : (hw.countSymbol b).codeAt x = hw.codeAt x := rfl
@[simp] theorem Hw.countSymbol_acc (hw : Hw) (b : Byte) : (hw.countSymbol b).acc = hw.acc := rfl
@[simp] theorem Hw.countSymbol_nacc (hw : Hw) (b : Byte) : (hw.countSymbol b).nacc = hw.nacc := rfl
@[simp] theorem Hw.countSymbol_encIn (hw : Hw) (b : Byte) : (hw.countSymbol b).encIn = hw.encIn := rfl
@[simp] theorem Hw.countSymbol_encOut (hw : Hw) (b : Byte) : (hw.countSymbol b).encOut = hw.encOut := rfl
@[simp] theorem Hw.countSymbol_encBits (hw : Hw) (b : Byte) : (hw.countSymbol b).encBits = hw.encBits := rfl
@[simp] theorem Hw.countSymbol_lastbits (hw : Hw) (b : Byte) : (hw.countSymbol b).lastbits = hw.lastbits := rfl
@[simp] theorem Hw.countSymbol_lbValid (hw : Hw) (b : Byte) : (hw.countSymbol b).lbValid = hw.lbValid := rfl
@[simp] theorem Hw.countSymbol_outq (hw : Hw) (b : Byte) : (hw.countSymbol b).outq = hw.outq := rfl
@[simp] theorem Hw.countSymbol_errCode (hw : Hw) (b : Byte) : (hw.countSymbol b).errCode = hw.errCode := rfl
@[simp] theorem Hw.countSymbol_errPhase (hw : Hw) (b : Byte) : (hw.countSymbol b).errPhase = hw.errPhase := rfl

/-! ### startEncode -/

@[simp] theorem Hw.startEncode_phase (hw : Hw) : (hw.startEncode).phase = .encode := rfl
@[simp] theorem Hw.startEncode_bsub (hw : Hw) : (hw.startEncode).bsub = hw.bsub := rfl
@[simp] theorem Hw.startEncode_hist (hw : Hw) : (hw.startEncode).hist = hw.hist := rfl
@[simp] theorem Hw.startEncode_histAt (hw : Hw) (x : Byte) : (hw.startEncode).histAt x = hw.histAt x := rfl
@[simp] theorem Hw.startEncode_total (hw : Hw) : (hw.startEncode).total = hw.total := rfl
@[simp] theorem Hw.startEncode_nsym (hw : Hw) : (hw.startEncode).nsym = hw.nsym := rfl
@[simp] theorem Hw.startEncode_maxf (hw : Hw) : (hw.startEncode).maxf = hw.maxf := rfl
@[simp] theorem Hw.startEncode_node (hw : Hw) : (hw.startEncode).node = hw.node := rfl
@[simp] theorem Hw.startEncode_nodeAt (hw : Hw) (x : NodeIx) : (hw.startEncode).nodeAt x = hw.nodeAt x := rfl
@[simp] theorem Hw.startEncode_nnodes (hw : Hw) : (hw.startEncode).nnodes = hw.nnodes := rfl
@[simp] theorem Hw.startEncode_seq (hw : Hw) : (hw.startEncode).seq = hw.seq := rfl
@[simp] theorem Hw.startEncode_root (hw : Hw) : (hw.startEncode).root = hw.root := rfl
@[simp] theorem Hw.startEncode_rootValid (hw : Hw) : (hw.startEncode).rootValid = hw.rootValid := rfl
@[simp] theorem Hw.startEncode_code (hw : Hw) : (hw.startEncode).code = hw.code := rfl
@[simp] theorem Hw.startEncode_codeAt (hw : Hw) (x : Byte) : (hw.startEncode).codeAt x = hw.codeAt x := rfl
@[simp] theorem Hw.startEncode_acc (hw : Hw) : (hw.startEncode).acc = 0#8 := rfl
@[simp] theorem Hw.startEncode_nacc (hw : Hw) : (hw.startEncode).nacc = 0 := rfl
@[simp] theorem Hw.startEncode_encIn (hw : Hw) : (hw.startEncode).encIn = 0 := rfl
@[simp] theorem Hw.startEncode_encOut (hw : Hw) : (hw.startEncode).encOut = 0 := rfl
@[simp] theorem Hw.startEncode_encBits (hw : Hw) : (hw.startEncode).encBits = 0 := rfl
@[simp] theorem Hw.startEncode_lastbits (hw : Hw) : (hw.startEncode).lastbits = 0 := rfl
@[simp] theorem Hw.startEncode_lbValid (hw : Hw) : (hw.startEncode).lbValid = false := rfl
@[simp] theorem Hw.startEncode_outq (hw : Hw) : (hw.startEncode).outq = hw.outq := rfl
@[simp] theorem Hw.startEncode_errCode (hw : Hw) : (hw.startEncode).errCode = hw.errCode := rfl
@[simp] theorem Hw.startEncode_errPhase (hw : Hw) : (hw.startEncode).errPhase = hw.errPhase := rfl

/-! ### sorted -/

@[simp] theorem Hw.sorted_phase (hw : Hw) : (hw.sorted).phase = hw.phase := rfl
@[simp] theorem Hw.sorted_hist (hw : Hw) : (hw.sorted).hist = hw.hist := rfl
@[simp] theorem Hw.sorted_histAt (hw : Hw) (x : Byte) : (hw.sorted).histAt x = hw.histAt x := rfl
@[simp] theorem Hw.sorted_total (hw : Hw) : (hw.sorted).total = hw.total := rfl
@[simp] theorem Hw.sorted_nsym (hw : Hw) : (hw.sorted).nsym = hw.nsym := rfl
@[simp] theorem Hw.sorted_maxf (hw : Hw) : (hw.sorted).maxf = hw.maxf := rfl
@[simp] theorem Hw.sorted_nnodes (hw : Hw) : (hw.sorted).nnodes = hw.leafOrder.length := rfl
@[simp] theorem Hw.sorted_seq (hw : Hw) : (hw.sorted).seq = firstSlots hw.leafOrder.length := rfl
@[simp] theorem Hw.sorted_root (hw : Hw) : (hw.sorted).root = hw.root := rfl
@[simp] theorem Hw.sorted_rootValid (hw : Hw) : (hw.sorted).rootValid = hw.rootValid := rfl
@[simp] theorem Hw.sorted_code (hw : Hw) : (hw.sorted).code = hw.code := rfl
@[simp] theorem Hw.sorted_codeAt (hw : Hw) (x : Byte) : (hw.sorted).codeAt x = hw.codeAt x := rfl
@[simp] theorem Hw.sorted_acc (hw : Hw) : (hw.sorted).acc = hw.acc := rfl
@[simp] theorem Hw.sorted_nacc (hw : Hw) : (hw.sorted).nacc = hw.nacc := rfl
@[simp] theorem Hw.sorted_encIn (hw : Hw) : (hw.sorted).encIn = hw.encIn := rfl
@[simp] theorem Hw.sorted_encOut (hw : Hw) : (hw.sorted).encOut = hw.encOut := rfl
@[simp] theorem Hw.sorted_encBits (hw : Hw) : (hw.sorted).encBits = hw.encBits := rfl
@[simp] theorem Hw.sorted_lastbits (hw : Hw) : (hw.sorted).lastbits = hw.lastbits := rfl
@[simp] theorem Hw.sorted_lbValid (hw : Hw) : (hw.sorted).lbValid = hw.lbValid := rfl
@[simp] theorem Hw.sorted_outq (hw : Hw) : (hw.sorted).outq = hw.outq := rfl
@[simp] theorem Hw.sorted_errCode (hw : Hw) : (hw.sorted).errCode = hw.errCode := rfl
@[simp] theorem Hw.sorted_errPhase (hw : Hw) : (hw.sorted).errPhase = hw.errPhase := rfl

/-! ### merged -/

@[simp] theorem Hw.merged_phase (hw : Hw) (a b : NodeIx) (rest : List NodeIx) (m : NodeIx) : (hw.merged a b rest m).phase = hw.phase := rfl
@[simp] theorem Hw.merged_hist (hw : Hw) (a b : NodeIx) (rest : List NodeIx) (m : NodeIx) : (hw.merged a b rest m).hist = hw.hist := rfl
@[simp] theorem Hw.merged_histAt (hw : Hw) (a b : NodeIx) (rest : List NodeIx) (m : NodeIx) (x : Byte) : (hw.merged a b rest m).histAt x = hw.histAt x := rfl
@[simp] theorem Hw.merged_total (hw : Hw) (a b : NodeIx) (rest : List NodeIx) (m : NodeIx) : (hw.merged a b rest m).total = hw.total := rfl
@[simp] theorem Hw.merged_nsym (hw : Hw) (a b : NodeIx) (rest : List NodeIx) (m : NodeIx) : (hw.merged a b rest m).nsym = hw.nsym := rfl
@[simp] theorem Hw.merged_maxf (hw : Hw) (a b : NodeIx) (rest : List NodeIx) (m : NodeIx) : (hw.merged a b rest m).maxf = hw.maxf := rfl
@[simp] theorem Hw.merged_nnodes (hw : Hw) (a b : NodeIx) (rest : List NodeIx) (m : NodeIx) : (hw.merged a b rest m).nnodes = m.val + 1 := rfl
@[simp] theorem Hw.merged_root (hw : Hw) (a b : NodeIx) (rest : List NodeIx) (m : NodeIx) : (hw.merged a b rest m).root = hw.root := rfl
@[simp] theorem Hw.merged_rootValid (hw : Hw) (a b : NodeIx) (rest : List NodeIx) (m : NodeIx) : (hw.merged a b rest m).rootValid = hw.rootValid := rfl
@[simp] theorem Hw.merged_code (hw : Hw) (a b : NodeIx) (rest : List NodeIx) (m : NodeIx) : (hw.merged a b rest m).code = hw.code := rfl
@[simp] theorem Hw.merged_codeAt (hw : Hw) (a b : NodeIx) (rest : List NodeIx) (m : NodeIx) (x : Byte) : (hw.merged a b rest m).codeAt x = hw.codeAt x := rfl
@[simp] theorem Hw.merged_acc (hw : Hw) (a b : NodeIx) (rest : List NodeIx) (m : NodeIx) : (hw.merged a b rest m).acc = hw.acc := rfl
@[simp] theorem Hw.merged_nacc (hw : Hw) (a b : NodeIx) (rest : List NodeIx) (m : NodeIx) : (hw.merged a b rest m).nacc = hw.nacc := rfl
@[simp] theorem Hw.merged_encIn (hw : Hw) (a b : NodeIx) (rest : List NodeIx) (m : NodeIx) : (hw.merged a b rest m).encIn = hw.encIn := rfl
@[simp] theorem Hw.merged_encOut (hw : Hw) (a b : NodeIx) (rest : List NodeIx) (m : NodeIx) : (hw.merged a b rest m).encOut = hw.encOut := rfl
@[simp] theorem Hw.merged_encBits (hw : Hw) (a b : NodeIx) (rest : List NodeIx) (m : NodeIx) : (hw.merged a b rest m).encBits = hw.encBits := rfl
@[simp] theorem Hw.merged_lastbits (hw : Hw) (a b : NodeIx) (rest : List NodeIx) (m : NodeIx) : (hw.merged a b rest m).lastbits = hw.lastbits := rfl
@[simp] theorem Hw.merged_lbValid (hw : Hw) (a b : NodeIx) (rest : List NodeIx) (m : NodeIx) : (hw.merged a b rest m).lbValid = hw.lbValid := rfl
@[simp] theorem Hw.merged_outq (hw : Hw) (a b : NodeIx) (rest : List NodeIx) (m : NodeIx) : (hw.merged a b rest m).outq = hw.outq := rfl
@[simp] theorem Hw.merged_errCode (hw : Hw) (a b : NodeIx) (rest : List NodeIx) (m : NodeIx) : (hw.merged a b rest m).errCode = hw.errCode := rfl
@[simp] theorem Hw.merged_errPhase (hw : Hw) (a b : NodeIx) (rest : List NodeIx) (m : NodeIx) : (hw.merged a b rest m).errPhase = hw.errPhase := rfl

/-! ### finishBuild -/

@[simp] theorem Hw.finishBuild_phase (hw : Hw) (r : NodeIx) (v : Bool) (t : Vector CodeEntry 256) : (hw.finishBuild r v t).phase = .ready := rfl
@[simp] theorem Hw.finishBuild_bsub (hw : Hw) (r : NodeIx) (v : Bool) (t : Vector CodeEntry 256) : (hw.finishBuild r v t).bsub = .sort := rfl
@[simp] theorem Hw.finishBuild_hist (hw : Hw) (r : NodeIx) (v : Bool) (t : Vector CodeEntry 256) : (hw.finishBuild r v t).hist = hw.hist := rfl
@[simp] theorem Hw.finishBuild_histAt (hw : Hw) (r : NodeIx) (v : Bool) (t : Vector CodeEntry 256) (x : Byte) : (hw.finishBuild r v t).histAt x = hw.histAt x := rfl
@[simp] theorem Hw.finishBuild_total (hw : Hw) (r : NodeIx) (v : Bool) (t : Vector CodeEntry 256) : (hw.finishBuild r v t).total = hw.total := rfl
@[simp] theorem Hw.finishBuild_nsym (hw : Hw) (r : NodeIx) (v : Bool) (t : Vector CodeEntry 256) : (hw.finishBuild r v t).nsym = hw.nsym := rfl
@[simp] theorem Hw.finishBuild_maxf (hw : Hw) (r : NodeIx) (v : Bool) (t : Vector CodeEntry 256) : (hw.finishBuild r v t).maxf = hw.maxf := rfl
@[simp] theorem Hw.finishBuild_node (hw : Hw) (r : NodeIx) (v : Bool) (t : Vector CodeEntry 256) : (hw.finishBuild r v t).node = hw.node := rfl
@[simp] theorem Hw.finishBuild_nodeAt (hw : Hw) (r : NodeIx) (v : Bool) (t : Vector CodeEntry 256) (x : NodeIx) : (hw.finishBuild r v t).nodeAt x = hw.nodeAt x := rfl
@[simp] theorem Hw.finishBuild_nnodes (hw : Hw) (r : NodeIx) (v : Bool) (t : Vector CodeEntry 256) : (hw.finishBuild r v t).nnodes = hw.nnodes := rfl
@[simp] theorem Hw.finishBuild_seq (hw : Hw) (r : NodeIx) (v : Bool) (t : Vector CodeEntry 256) : (hw.finishBuild r v t).seq = hw.seq := rfl
@[simp] theorem Hw.finishBuild_root (hw : Hw) (r : NodeIx) (v : Bool) (t : Vector CodeEntry 256) : (hw.finishBuild r v t).root = r := rfl
@[simp] theorem Hw.finishBuild_rootValid (hw : Hw) (r : NodeIx) (v : Bool) (t : Vector CodeEntry 256) : (hw.finishBuild r v t).rootValid = v := rfl
@[simp] theorem Hw.finishBuild_code (hw : Hw) (r : NodeIx) (v : Bool) (t : Vector CodeEntry 256) : (hw.finishBuild r v t).code = t := rfl
@[simp] theorem Hw.finishBuild_acc (hw : Hw) (r : NodeIx) (v : Bool) (t : Vector CodeEntry 256) : (hw.finishBuild r v t).acc = hw.acc := rfl
@[simp] theorem Hw.finishBuild_nacc (hw : Hw) (r : NodeIx) (v : Bool) (t : Vector CodeEntry 256) : (hw.finishBuild r v t).nacc = hw.nacc := rfl
@[simp] theorem Hw.finishBuild_encIn (hw : Hw) (r : NodeIx) (v : Bool) (t : Vector CodeEntry 256) : (hw.finishBuild r v t).encIn = hw.encIn := rfl
@[simp] theorem Hw.finishBuild_encOut (hw : Hw) (r : NodeIx) (v : Bool) (t : Vector CodeEntry 256) : (hw.finishBuild r v t).encOut = hw.encOut := rfl
@[simp] theorem Hw.finishBuild_encBits (hw : Hw) (r : NodeIx) (v : Bool) (t : Vector CodeEntry 256) : (hw.finishBuild r v t).encBits = hw.encBits := rfl
@[simp] theorem Hw.finishBuild_lastbits (hw : Hw) (r : NodeIx) (v : Bool) (t : Vector CodeEntry 256) : (hw.finishBuild r v t).lastbits = hw.lastbits := rfl
@[simp] theorem Hw.finishBuild_lbValid (hw : Hw) (r : NodeIx) (v : Bool) (t : Vector CodeEntry 256) : (hw.finishBuild r v t).lbValid = hw.lbValid := rfl
@[simp] theorem Hw.finishBuild_outq (hw : Hw) (r : NodeIx) (v : Bool) (t : Vector CodeEntry 256) : (hw.finishBuild r v t).outq = hw.outq := rfl
@[simp] theorem Hw.finishBuild_errCode (hw : Hw) (r : NodeIx) (v : Bool) (t : Vector CodeEntry 256) : (hw.finishBuild r v t).errCode = hw.errCode := rfl
@[simp] theorem Hw.finishBuild_errPhase (hw : Hw) (r : NodeIx) (v : Bool) (t : Vector CodeEntry 256) : (hw.finishBuild r v t).errPhase = hw.errPhase := rfl

/-! ### clear and reset -/

@[simp] theorem Hw.reset_phase : Hw.reset.phase = .idle := rfl
@[simp] theorem Hw.clear_phase (hw : Hw) : hw.clear.phase = Hw.reset.phase := rfl
@[simp] theorem Hw.reset_bsub : Hw.reset.bsub = .sort := rfl
@[simp] theorem Hw.clear_bsub (hw : Hw) : hw.clear.bsub = Hw.reset.bsub := rfl
@[simp] theorem Hw.clear_hist (hw : Hw) : hw.clear.hist = Hw.reset.hist := rfl
@[simp] theorem Hw.clear_histAt (hw : Hw) (x : Byte) : hw.clear.histAt x = Hw.reset.histAt x := rfl
@[simp] theorem Hw.reset_total : Hw.reset.total = 0 := rfl
@[simp] theorem Hw.clear_total (hw : Hw) : hw.clear.total = Hw.reset.total := rfl
@[simp] theorem Hw.reset_nsym : Hw.reset.nsym = 0 := rfl
@[simp] theorem Hw.clear_nsym (hw : Hw) : hw.clear.nsym = Hw.reset.nsym := rfl
@[simp] theorem Hw.reset_maxf : Hw.reset.maxf = 0 := rfl
@[simp] theorem Hw.clear_maxf (hw : Hw) : hw.clear.maxf = Hw.reset.maxf := rfl
@[simp] theorem Hw.clear_node (hw : Hw) : hw.clear.node = Hw.reset.node := rfl
@[simp] theorem Hw.clear_nodeAt (hw : Hw) (x : NodeIx) : hw.clear.nodeAt x = Hw.reset.nodeAt x := rfl
@[simp] theorem Hw.reset_nnodes : Hw.reset.nnodes = 0 := rfl
@[simp] theorem Hw.clear_nnodes (hw : Hw) : hw.clear.nnodes = Hw.reset.nnodes := rfl
@[simp] theorem Hw.reset_seq : Hw.reset.seq = [] := rfl
@[simp] theorem Hw.clear_seq (hw : Hw) : hw.clear.seq = Hw.reset.seq := rfl
@[simp] theorem Hw.reset_root : Hw.reset.root = 0 := rfl
@[simp] theorem Hw.clear_root (hw : Hw) : hw.clear.root = Hw.reset.root := rfl
@[simp] theorem Hw.reset_rootValid : Hw.reset.rootValid = false := rfl
@[simp] theorem Hw.clear_rootValid (hw : Hw) : hw.clear.rootValid = Hw.reset.rootValid := rfl
@[simp] theorem Hw.clear_code (hw : Hw) : hw.clear.code = Hw.reset.code := rfl
@[simp] theorem Hw.clear_codeAt (hw : Hw) (x : Byte) : hw.clear.codeAt x = Hw.reset.codeAt x := rfl
@[simp] theorem Hw.reset_acc : Hw.reset.acc = 0#8 := rfl
@[simp] theorem Hw.clear_acc (hw : Hw) : hw.clear.acc = Hw.reset.acc := rfl
@[simp] theorem Hw.reset_nacc : Hw.reset.nacc = 0 := rfl
@[simp] theorem Hw.clear_nacc (hw : Hw) : hw.clear.nacc = Hw.reset.nacc := rfl
@[simp] theorem Hw.reset_encIn : Hw.reset.encIn = 0 := rfl
@[simp] theorem Hw.clear_encIn (hw : Hw) : hw.clear.encIn = Hw.reset.encIn := rfl
@[simp] theorem Hw.reset_encOut : Hw.reset.encOut = 0 := rfl
@[simp] theorem Hw.clear_encOut (hw : Hw) : hw.clear.encOut = Hw.reset.encOut := rfl
@[simp] theorem Hw.reset_encBits : Hw.reset.encBits = 0 := rfl
@[simp] theorem Hw.clear_encBits (hw : Hw) : hw.clear.encBits = Hw.reset.encBits := rfl
@[simp] theorem Hw.reset_lastbits : Hw.reset.lastbits = 0 := rfl
@[simp] theorem Hw.clear_lastbits (hw : Hw) : hw.clear.lastbits = Hw.reset.lastbits := rfl
@[simp] theorem Hw.reset_lbValid : Hw.reset.lbValid = false := rfl
@[simp] theorem Hw.clear_lbValid (hw : Hw) : hw.clear.lbValid = Hw.reset.lbValid := rfl
@[simp] theorem Hw.reset_outq : Hw.reset.outq = [] := rfl
@[simp] theorem Hw.reset_errCode : Hw.reset.errCode = .none := rfl
@[simp] theorem Hw.clear_errCode (hw : Hw) : hw.clear.errCode = Hw.reset.errCode := rfl
@[simp] theorem Hw.reset_errPhase : Hw.reset.errPhase = .idle := rfl
@[simp] theorem Hw.clear_errPhase (hw : Hw) : hw.clear.errPhase = Hw.reset.errPhase := rfl

/-! ## The whole state -/

@[simp] theorem State.withHw_cfg (s : State) (hw : Hw) : (s.withHw hw).cfg = s.cfg := rfl
@[simp] theorem State.withHw_hw (s : State) (hw : Hw) : (s.withHw hw).hw = hw := rfl
@[simp] theorem State.withHw_env (s : State) (hw : Hw) : (s.withHw hw).env = s.env := rfl

@[simp] theorem State.raise_cfg (s : State) (c : ErrCode) : (s.raise c).cfg = s.cfg := rfl
@[simp] theorem State.raise_hw (s : State) (c : ErrCode) : (s.raise c).hw = s.hw.raise c := rfl
@[simp] theorem State.raise_env (s : State) (c : ErrCode) : (s.raise c).env = s.env := rfl

@[simp] theorem State.acceptBeat_cfg (s : State) : (s.acceptBeat).cfg = s.cfg := rfl
@[simp] theorem State.acceptBeat_hw (s : State) : (s.acceptBeat).hw = s.hw := rfl
@[simp] theorem State.acceptBeat_events (s : State) : (s.acceptBeat).env.events = s.env.events := rfl
@[simp] theorem State.acceptBeat_src (s : State) : (s.acceptBeat).env.src = s.env.src.tail := rfl
@[simp] theorem State.acceptBeat_readLog (s : State) : (s.acceptBeat).env.readLog = s.env.readLog := rfl
@[simp] theorem State.acceptBeat_taken (s : State) : (s.acceptBeat).env.taken = s.env.taken := rfl
@[simp] theorem State.acceptBeat_turnBlocks (s : State) : (s.acceptBeat).env.turnBlocks = s.env.turnBlocks := rfl
@[simp] theorem State.acceptBeat_beatBlocks (s : State) : (s.acceptBeat).env.beatBlocks = s.env.beatBlocks := rfl
@[simp] theorem State.acceptBeat_draws (s : State) : (s.acceptBeat).env.draws = s.env.draws := rfl

@[simp] theorem State.returnWord_cfg (s : State) (v : Word) : (s.returnWord v).cfg = s.cfg := rfl
@[simp] theorem State.returnWord_hw (s : State) (v : Word) : (s.returnWord v).hw = s.hw := rfl
@[simp] theorem State.returnWord_events (s : State) (v : Word) : (s.returnWord v).env.events = s.env.events := rfl
@[simp] theorem State.returnWord_src (s : State) (v : Word) : (s.returnWord v).env.src = s.env.src := rfl
@[simp] theorem State.returnWord_readLog (s : State) (v : Word) : (s.returnWord v).env.readLog = s.env.readLog ++ [v] := rfl
@[simp] theorem State.returnWord_taken (s : State) (v : Word) : (s.returnWord v).env.taken = s.env.taken := rfl
@[simp] theorem State.returnWord_turnBlocks (s : State) (v : Word) : (s.returnWord v).env.turnBlocks = s.env.turnBlocks := rfl
@[simp] theorem State.returnWord_beatBlocks (s : State) (v : Word) : (s.returnWord v).env.beatBlocks = s.env.beatBlocks := rfl
@[simp] theorem State.returnWord_draws (s : State) (v : Word) : (s.returnWord v).env.draws = s.env.draws := rfl

@[simp] theorem State.returnFree_cfg (s : State) : (s.returnFree).cfg = s.cfg := rfl
@[simp] theorem State.returnFree_hw (s : State) : (s.returnFree).hw = s.hw := rfl
@[simp] theorem State.returnFree_events (s : State) : (s.returnFree).env.events = s.env.events := rfl
@[simp] theorem State.returnFree_src (s : State) : (s.returnFree).env.src = s.env.src := rfl
@[simp] theorem State.returnFree_taken (s : State) : (s.returnFree).env.taken = s.env.taken := rfl
@[simp] theorem State.returnFree_turnBlocks (s : State) : (s.returnFree).env.turnBlocks = s.env.turnBlocks := rfl
@[simp] theorem State.returnFree_beatBlocks (s : State) : (s.returnFree).env.beatBlocks = s.env.beatBlocks := rfl
@[simp] theorem State.returnFree_draws (s : State) : (s.returnFree).env.draws = s.env.draws + 1 := rfl

@[simp] theorem State.deliver_cfg (s : State) (b : OutBeat) (rest : List OutBeat) : (s.deliver b rest).cfg = s.cfg := rfl
@[simp] theorem State.deliver_hw (s : State) (b : OutBeat) (rest : List OutBeat) : (s.deliver b rest).hw = { s.hw with outq := rest } := rfl
@[simp] theorem State.deliver_events (s : State) (b : OutBeat) (rest : List OutBeat) : (s.deliver b rest).env.events = s.env.events := rfl
@[simp] theorem State.deliver_src (s : State) (b : OutBeat) (rest : List OutBeat) : (s.deliver b rest).env.src = s.env.src := rfl
@[simp] theorem State.deliver_readLog (s : State) (b : OutBeat) (rest : List OutBeat) : (s.deliver b rest).env.readLog = s.env.readLog := rfl
@[simp] theorem State.deliver_taken (s : State) (b : OutBeat) (rest : List OutBeat) : (s.deliver b rest).env.taken = s.env.taken ++ [b] := rfl
@[simp] theorem State.deliver_turnBlocks (s : State) (b : OutBeat) (rest : List OutBeat) : (s.deliver b rest).env.turnBlocks = s.env.turnBlocks := rfl
@[simp] theorem State.deliver_beatBlocks (s : State) (b : OutBeat) (rest : List OutBeat) : (s.deliver b rest).env.beatBlocks = s.env.beatBlocks := rfl
@[simp] theorem State.deliver_draws (s : State) (b : OutBeat) (rest : List OutBeat) : (s.deliver b rest).env.draws = s.env.draws := rfl

@[simp] theorem State.afterTurn_cfg (s : State) : (s.afterTurn).cfg = s.cfg := rfl
@[simp] theorem State.afterTurn_hw (s : State) : (s.afterTurn).hw = s.hw := rfl
theorem State.afterTurn_events_of_cons {s : State} {e : Event} {es : List Event} (h : s.env.events = e :: es) :
    s.afterTurn.env.events = es := by simp [State.afterTurn, h]
theorem State.afterTurn_events_of_nil {s : State} (h : s.env.events = []) :
    s.afterTurn.env.events = (Config.freeTurns s.env.turnBlocks).map agentStep := by simp [State.afterTurn, h]
theorem State.afterTurn_turnBlocks_of_cons {s : State} {e : Event} {es : List Event} (h : s.env.events = e :: es) :
    s.afterTurn.env.turnBlocks = s.env.turnBlocks := by simp [State.afterTurn, h]
theorem State.afterTurn_turnBlocks_of_nil {s : State} (h : s.env.events = []) :
    s.afterTurn.env.turnBlocks = s.env.turnBlocks + 1 := by simp [State.afterTurn, h]
@[simp] theorem State.afterTurn_src (s : State) : (s.afterTurn).env.src = s.env.src := rfl
@[simp] theorem State.afterTurn_readLog (s : State) : (s.afterTurn).env.readLog = s.env.readLog := rfl
@[simp] theorem State.afterTurn_taken (s : State) : (s.afterTurn).env.taken = s.env.taken := rfl
@[simp] theorem State.afterTurn_beatBlocks (s : State) : (s.afterTurn).env.beatBlocks = s.env.beatBlocks := rfl
@[simp] theorem State.afterTurn_draws (s : State) : (s.afterTurn).env.draws = s.env.draws := rfl

/-- A listed turn is taken off the list and nothing else happens to the state (20_memory.md R60). -/
theorem State.afterTurn_of_cons {s : State} {e : Event} {es : List Event} (h : s.env.events = e :: es) :
    s.afterTurn = { s with env := { s.env with events := es } } := by
  obtain ⟨cfg, hw, env⟩ := s; cases env; subst h; rfl

@[simp] theorem State.moreBeats_cfg (s : State) : (s.moreBeats).cfg = s.cfg := rfl
@[simp] theorem State.moreBeats_hw (s : State) : (s.moreBeats).hw = s.hw := rfl
@[simp] theorem State.moreBeats_events (s : State) : (s.moreBeats).env.events = s.env.events := rfl
@[simp] theorem State.moreBeats_turnBlocks (s : State) : (s.moreBeats).env.turnBlocks = s.env.turnBlocks := rfl
@[simp] theorem State.moreBeats_src (s : State) : (s.moreBeats).env.src = Config.freeBeats s.env.beatBlocks := rfl
@[simp] theorem State.moreBeats_beatBlocks (s : State) : (s.moreBeats).env.beatBlocks = s.env.beatBlocks + 1 := rfl
@[simp] theorem State.moreBeats_readLog (s : State) : (s.moreBeats).env.readLog = s.env.readLog := rfl
@[simp] theorem State.moreBeats_taken (s : State) : (s.moreBeats).env.taken = s.env.taken := rfl
@[simp] theorem State.moreBeats_draws (s : State) : (s.moreBeats).env.draws = s.env.draws := rfl

/-- A drawn turn is never the presentation of a beat at the output port. -/
@[simp] theorem agentStep_agentStep (e : Event) : agentStep (agentStep e) = agentStep e := by cases e <;> rfl

/-! ## Arrays after a write -/

@[simp] theorem Hw.setHist_histAt_self (hw : Hw) (b : Byte) (v : Nat) : (hw.setHist b v).histAt b = v := by
  simp [Hw.setHist, Hw.histAt]

theorem Hw.setHist_histAt_ne (hw : Hw) (v : Nat) {b x : Byte} (h : x ≠ b) : (hw.setHist b v).histAt x = hw.histAt x := by
  have : b.toNat ≠ x.toNat := fun e => h (BitVec.eq_of_toNat_eq e.symm)
  simp [Hw.setHist, Hw.histAt, Vector.getElem_set_ne, this]

@[simp] theorem Hw.setNode_nodeAt_self (hw : Hw) (i : NodeIx) (n : Node) : (hw.setNode i n).nodeAt i = n := by
  simp [Hw.setNode, Hw.nodeAt]

theorem Hw.setNode_nodeAt_ne (hw : Hw) (n : Node) {i x : NodeIx} (h : x ≠ i) : (hw.setNode i n).nodeAt x = hw.nodeAt x := by
  have : i.val ≠ x.val := fun e => h (Fin.ext e.symm)
  simp [Hw.setNode, Hw.nodeAt, Vector.getElem_set_ne, this]

/-- Reading symbol x of a code table. -/
theorem recordCode_self (t : Vector CodeEntry 256) (b : Byte) (p : List Bool) :
    (recordCode t b p)[b.toNat]'(b.isLt) = { len := p.length, bits := p } := by
  simp [recordCode]

theorem recordCode_ne (t : Vector CodeEntry 256) (p : List Bool) {b x : Byte} (h : x ≠ b) :
    (recordCode t b p)[x.toNat]'(x.isLt) = t[x.toNat]'(x.isLt) := by
  have : b.toNat ≠ x.toNat := fun e => h (BitVec.eq_of_toNat_eq e.symm)
  simp [recordCode, Vector.getElem_set_ne, this]

@[simp] theorem Hw.reset_histAt (b : Byte) : Hw.reset.histAt b = 0 := by
  simp [Hw.reset, Hw.histAt]

@[simp] theorem Hw.reset_nodeAt (i : NodeIx) : Hw.reset.nodeAt i = Node.zero := by
  simp [Hw.reset, Hw.nodeAt]

@[simp] theorem Hw.reset_codeAt (b : Byte) : Hw.reset.codeAt b = CodeEntry.none := by
  simp [Hw.reset, Hw.codeAt]

@[simp] theorem Hw.countSymbol_histAt_self (hw : Hw) (b : Byte) : (hw.countSymbol b).histAt b = hw.histAt b + 1 :=
  hw.setHist_histAt_self b _

theorem Hw.countSymbol_histAt_ne (hw : Hw) {b x : Byte} (h : x ≠ b) : (hw.countSymbol b).histAt x = hw.histAt x :=
  hw.setHist_histAt_ne _ h

@[simp] theorem Hw.merged_nodeAt_self (hw : Hw) (a b : NodeIx) (rest : List NodeIx) (m : NodeIx) :
    (hw.merged a b rest m).nodeAt m = hw.mergedNode a b :=
  hw.setNode_nodeAt_self m _

theorem Hw.merged_nodeAt_ne (hw : Hw) (a b : NodeIx) (rest : List NodeIx) {m x : NodeIx} (h : x ≠ m) :
    (hw.merged a b rest m).nodeAt x = hw.nodeAt x :=
  hw.setNode_nodeAt_ne _ h

end Sys2Proof.Machine
end

