-- ==== Sys2Proof/Laws/Bits.lean ====
section
/-! SUPPORT. What appending bits does (45_stream_encoder.md R221, R222, R226): it never overfills OUTQ when the room of R225 is there, it
keeps the accumulator's bound, and the bits queued and pending grow by exactly the bits appended. -/

namespace Sys2Proof.Machine

/-! ## One byte -/

theorem shiftIn_getLsbD (acc : Byte) (x : Bool) {k : Nat} (hk : k < 8) :
    (shiftIn acc x).getLsbD k = if k = 0 then x else acc.getLsbD (k - 1) := by
  cases k with
  | zero => cases x <;> simp [shiftIn]
  | succ k => cases x <;> simp [shiftIn, hk, BitVec.getLsbD_eq_getElem (show k < 8 by omega)]

theorem shiftIn_toNat (acc : Byte) (x : Bool) : (shiftIn acc x).toNat = (2 * acc.toNat + x.toNat) % 256 := by
  revert acc x; decide +kernel

/-- The pending bits of an accumulator value with n bits held. -/
theorem pendingBits_eq (hw : Hw) :
    hw.pendingBits = (List.range hw.nacc.val).map fun k => hw.acc.getLsbD (hw.nacc.val - 1 - k) := rfl

/-- One more bit at the end of the bits held. -/
theorem shiftIn_bits (acc : Byte) (x : Bool) {n : Nat} (hn : n < 8) :
    ((List.range (n + 1)).map fun k => (shiftIn acc x).getLsbD (n - k)) =
      ((List.range n).map fun k => acc.getLsbD (n - 1 - k)) ++ [x] := by
  rw [List.range_succ, List.map_append]
  congr 1
  · apply List.map_congr_left
    intro k hk
    have hk : k < n := List.mem_range.1 hk
    rw [shiftIn_getLsbD _ _ (by omega), if_neg (by omega)]
    congr 1; omega
  · simp only [List.map_cons, List.map_nil, Nat.sub_self]
    rw [shiftIn_getLsbD _ _ (by decide), if_pos rfl]

theorem byteBits_shiftIn (acc : Byte) (x : Bool) :
    byteBits (shiftIn acc x) = ((List.range 7).map fun k => acc.getLsbD (7 - 1 - k)) ++ [x] :=
  shiftIn_bits acc x (by decide)

/-- The final byte holds the pending bits left-aligned, then zeros (45_stream_encoder.md R226). -/
theorem byteBits_padByte (hw : Hw) : byteBits hw.padByte = hw.pendingBits ++ List.replicate (8 - hw.nacc.val) false := by
  have hn := hw.nacc.isLt
  apply List.ext_getElem (by simp [byteBits, pendingBits_eq])
  intro k h1 h2
  have hk : k < 8 := by simpa [byteBits] using h1
  simp only [byteBits, Hw.padByte, pendingBits_eq, List.getElem_map, List.getElem_range, List.getElem_append, List.length_map,
    List.length_range, List.getElem_replicate, BitVec.getLsbD_shiftLeft]
  by_cases h : k < hw.nacc.val
  · have e1 : 7 - k < 8 := by omega
    have e2 : ¬ 7 - k < 8 - hw.nacc.val := by omega
    have e3 : 7 - k - (8 - hw.nacc.val) = hw.nacc.val - 1 - k := by omega
    simp [h, e1, e2, e3]
  · have e1 : 7 - k < 8 - hw.nacc.val := by omega
    simp [h, e1]

theorem dataBits_append (q r : List OutBeat) : dataBits (q ++ r) = dataBits q ++ dataBits r := by
  simp [dataBits]

/-! ## append_bit -/

theorem Hw.pushOut_eq {depth : Nat} {b : OutBeat} {hw : Hw} (h : hw.outq.length < depth) :
    hw.pushOut depth b = some { hw with outq := hw.outq ++ [b] } := if_pos h

/-- What a run of appended bits of length n does. -/
structure Hw.Appended (hw : Hw) (bits : List Bool) (hw' : Hw) : Prop where
  frame : hw' = { hw with acc := hw'.acc, nacc := hw'.nacc, outq := hw'.outq, encOut := hw'.encOut }
  nacc : hw'.nacc.val = (hw.nacc.val + bits.length) % 8
  encOut : hw'.encOut = hw.encOut + (hw.nacc.val + bits.length) / 8
  outq : ∃ bytes : List Byte, hw'.outq = hw.outq ++ bytes.map .data ∧ bytes.length = (hw.nacc.val + bits.length) / 8
  stream : hw'.bitStream = hw.bitStream ++ bits
  acc : hw.acc.toNat < 2 ^ hw.nacc.val → hw'.acc.toNat < 2 ^ hw'.nacc.val

theorem Hw.appendBit_spec {depth : Nat} {hw : Hw} (x : Bool) (h : hw.outq.length + (hw.nacc.val + 1) / 8 ≤ depth) :
    ∃ hw', hw.appendBit depth x = some hw' ∧ hw.Appended [x] hw' := by
  unfold Hw.appendBit
  by_cases hn : hw.nacc.val + 1 < 8
  · refine ⟨_, dif_pos hn, ?_⟩
    constructor
    · rfl
    · simp [Nat.mod_eq_of_lt hn]
    · simp [Nat.div_eq_of_lt hn]
    · exact ⟨[], by simp, by simp [Nat.div_eq_of_lt hn]⟩
    · simp only [Hw.bitStream, List.append_assoc, pendingBits_eq]
      have := shiftIn_bits hw.acc x (show hw.nacc.val < 8 by omega)
      simp only [Nat.add_sub_cancel, this]
    · intro ha
      show (shiftIn hw.acc x).toNat < 2 ^ (hw.nacc.val + 1)
      rw [shiftIn_toNat, Nat.pow_succ]
      have : x.toNat ≤ 1 := Bool.toNat_le x
      exact (Nat.mod_le _ _).trans_lt (by omega)
  · have h7 : hw.nacc.val = 7 := by omega
    have hd : (hw.nacc.val + 1) / 8 = 1 := by rw [h7]
    simp only [hn, dif_neg, not_false_eq_true, Hw.pushOut_eq (show hw.outq.length < depth by omega), Option.map_some]
    refine ⟨_, rfl, ?_⟩
    constructor
    · rfl
    · simp [h7]
    · simp [h7]
    · exact ⟨[shiftIn hw.acc x], by simp, by simp [h7]⟩
    · simp only [Hw.bitStream, pendingBits_eq, dataBits_append, List.append_assoc, h7]
      congr 1
      simpa [dataBits] using byteBits_shiftIn hw.acc x
    · intro _; simp

theorem Hw.Appended.trans {hw hw1 hw2 : Hw} {xs ys : List Bool} (h1 : hw.Appended xs hw1) (h2 : hw1.Appended ys hw2) :
    hw.Appended (xs ++ ys) hw2 := by
  have n1 := h1.nacc
  obtain ⟨b1, e1, l1⟩ := h1.outq
  obtain ⟨b2, e2, l2⟩ := h2.outq
  constructor
  · conv_lhs => rw [h2.frame, h1.frame]
  · rw [h2.nacc, n1, List.length_append]; omega
  · rw [h2.encOut, h1.encOut, n1, List.length_append]; omega
  · exact ⟨b1 ++ b2, by rw [e2, e1]; simp, by rw [List.length_append, l1, l2, n1, List.length_append]; omega⟩
  · rw [h2.stream, h1.stream, List.append_assoc]
  · exact fun h => h2.acc (h1.acc h)

/-- Appending bits succeeds when OUTQ has the room they need (45_stream_encoder.md R225). -/
theorem Hw.appendBits_spec {depth : Nat} (bits : List Bool) (hw : Hw)
    (h : hw.outq.length + (hw.nacc.val + bits.length) / 8 ≤ depth) :
    ∃ hw', hw.appendBits depth bits = some hw' ∧ hw.Appended bits hw' := by
  induction bits generalizing hw with
  | nil =>
    refine ⟨hw, rfl, ⟨rfl, ?_, ?_, ⟨[], by simp, ?_⟩, by simp, id⟩⟩
    · exact (Nat.mod_eq_of_lt hw.nacc.isLt).symm
    · exact (congrArg (hw.encOut + ·) (Nat.div_eq_of_lt hw.nacc.isLt)).symm
    · exact (Nat.div_eq_of_lt hw.nacc.isLt).symm
  | cons x xs ih =>
    simp only [List.length_cons] at h
    obtain ⟨hw1, e1, a1⟩ := hw.appendBit_spec (depth := depth) x (by omega)
    have n1 := a1.nacc
    obtain ⟨b1, q1, l1⟩ := a1.outq
    simp only [List.length_singleton] at n1 l1
    obtain ⟨hw2, e2, a2⟩ := ih hw1 (by rw [q1, List.length_append, List.length_map, l1, n1]; omega)
    exact ⟨hw2, by rw [Hw.appendBits, e1, Option.bind_some, e2], a1.trans a2⟩

theorem CodeEntry.string_length (e : CodeEntry) : e.string.length = e.len := by simp [CodeEntry.string]

/-- Where CODE_LEN is the length of CODE_BITS, the appended bits are CODE_BITS. -/
theorem CodeEntry.string_eq {e : CodeEntry} (h : e.len = e.bits.length) : e.string = e.bits := by
  apply List.ext_getElem (by simp [CodeEntry.string, h])
  intro k h1 h2
  simp [CodeEntry.string, List.getD_eq_getElem?_getD, List.getElem?_eq_getElem h2]

/-- A DATA beat of pass 2 that raises nothing (45_stream_encoder.md R222). -/
theorem Hw.encodeSymbol_spec {depth : Nat} {hw : Hw} {b : Byte}
    (h : hw.outq.length + (hw.nacc.val + (hw.codeAt b).len) / 8 ≤ depth) :
    ∃ hw1, hw.Appended (hw.codeAt b).string hw1 ∧
      hw.encodeSymbol depth b = some { hw1 with encIn := hw.encIn + 1, encBits := hw.encBits + (hw.codeAt b).len } := by
  obtain ⟨hw1, e1, a1⟩ := Hw.appendBits_spec (depth := depth) (hw.codeAt b).string hw (by rw [CodeEntry.string_length]; exact h)
  refine ⟨hw1, a1, ?_⟩
  have i1 : hw1.encIn = hw.encIn := by rw [a1.frame]
  have i2 : hw1.encBits = hw.encBits := by rw [a1.frame]
  simp [Hw.encodeSymbol, e1, i1, i2]

/-! ## The final flush -/

/-- The beats the final flush pushes (45_stream_encoder.md R226). -/
def Hw.lastBeats (hw : Hw) : List OutBeat := if 0 < hw.nacc.val then [.data hw.padByte, .endBeat] else [.endBeat]

/-- The END beat of pass 2 that raises nothing (45_stream_encoder.md R226). -/
theorem Hw.finishEncode_spec {depth : Nat} {hw : Hw}
    (h : hw.outq.length + (1 + if 0 < hw.nacc.val then 1 else 0) ≤ depth) :
    hw.finishEncode depth = some { hw with
      lastbits := hw.nacc, acc := 0#8, nacc := 0, lbValid := true, phase := .done
      encOut := if 0 < hw.nacc.val then hw.encOut + 1 else hw.encOut
      outq := hw.outq ++ hw.lastBeats } := by
  unfold Hw.finishEncode Hw.flush Hw.lastBeats
  by_cases hn : 0 < hw.nacc.val
  · simp only [hn, if_true] at h ⊢
    rw [Hw.pushOut_eq (by omega), Option.map_some, Option.bind_some, Hw.pushOut_eq (by simp; omega)]
    simp
  · simp only [hn, if_false] at h ⊢
    rw [Option.bind_some, Hw.pushOut_eq (by simp; omega)]

end Sys2Proof.Machine
end

