-- ==== Sys2Proof/Laws/Counters.lean ====
section
/-! SUPPORT. The symbols as a list, and what one more occurrence does to the sum, the number and the largest of the counts
(41_frequency_counter.md R141, R146). -/

namespace Sys2Proof.Machine

theorem mem_symbols (b : Byte) : b ∈ symbols := by
  simp only [symbols, List.mem_map, List.mem_range]
  exact ⟨b.toNat, b.isLt, BitVec.ofNat_toNat .. |>.trans (by simp)⟩

theorem symbols_nodup : symbols.Nodup := by
  refine List.Nodup.map_on ?_ List.nodup_range
  intro x hx y hy h
  have := congrArg BitVec.toNat h
  simp only [List.mem_range] at hx hy
  simpa [Nat.mod_eq_of_lt hx, Nat.mod_eq_of_lt hy] using this

@[simp] theorem length_symbols : symbols.length = 256 := by simp [symbols]

section Bump

variable {α : Type} {f g : α → Nat} {b : α} (hb : g b = f b + 1) (hne : ∀ x, x ≠ b → g x = f x)
include hne

/-- Away from b nothing changes. -/
theorem map_eq_of_not_mem {l : List α} (h : b ∉ l) : l.map g = l.map f :=
  List.map_congr_left fun x hx => hne x (fun e => h (e ▸ hx))

include hb

theorem sum_map_bump {l : List α} (hl : l.Nodup) (h : b ∈ l) : (l.map g).sum = (l.map f).sum + 1 := by
  induction l with
  | nil => cases h
  | cons x xs ih =>
    obtain ⟨hx, hxs⟩ := List.nodup_cons.1 hl
    by_cases e : x = b
    · subst e; simp [map_eq_of_not_mem hne hx, hb]; omega
    · have : b ∈ xs := by simpa [Ne.symm e] using h
      simp [hne x e, ih hxs this]; omega

theorem maxOf_map_bump {l : List α} (hl : l.Nodup) (h : b ∈ l) : maxOf (l.map g) = max (maxOf (l.map f)) (f b + 1) := by
  induction l with
  | nil => cases h
  | cons x xs ih =>
    obtain ⟨hx, hxs⟩ := List.nodup_cons.1 hl
    by_cases e : x = b
    · subst e
      have := map_eq_of_not_mem hne hx
      simp only [maxOf, List.map_cons, List.foldr_cons, this, hb]; omega
    · have hm : b ∈ xs := by simpa [Ne.symm e] using h
      have := ih hxs hm
      simp only [maxOf, List.map_cons, List.foldr_cons, hne x e] at this ⊢; omega

theorem filter_pos_bump {l : List α} (hl : l.Nodup) (h : b ∈ l) :
    (l.filter fun x => decide (0 < g x)).length =
      (l.filter fun x => decide (0 < f x)).length + (if f b = 0 then 1 else 0) := by
  induction l with
  | nil => cases h
  | cons x xs ih =>
    obtain ⟨hx, hxs⟩ := List.nodup_cons.1 hl
    by_cases e : x = b
    · subst e
      have : (xs.filter fun y => decide (0 < g y)) = xs.filter fun y => decide (0 < f y) :=
        List.filter_congr fun y hy => by rw [hne y (fun e => hx (e ▸ hy))]
      by_cases h0 : f x = 0
      · simp [hb, this, h0]
      · simp [hb, this, Nat.pos_of_ne_zero h0, h0]
    · have hm : b ∈ xs := by simpa [Ne.symm e] using h
      have := ih hxs hm
      by_cases h0 : 0 < f x
      · simp only [List.filter_cons, hne x e, h0, decide_true, if_true, List.length_cons, this]; omega
      · simp only [List.filter_cons, hne x e, h0, decide_false, Bool.false_eq_true, if_false, this]

end Bump

theorem countSymbol_sum (hw : Hw) (b : Byte) :
    (symbols.map (hw.countSymbol b).histAt).sum = (symbols.map hw.histAt).sum + 1 :=
  sum_map_bump (hw.countSymbol_histAt_self b) (fun _ h => hw.countSymbol_histAt_ne h) symbols_nodup (mem_symbols b)

theorem countSymbol_maxOf (hw : Hw) (b : Byte) :
    maxOf (symbols.map (hw.countSymbol b).histAt) = max (maxOf (symbols.map hw.histAt)) (hw.histAt b + 1) :=
  maxOf_map_bump (hw.countSymbol_histAt_self b) (fun _ h => hw.countSymbol_histAt_ne h) symbols_nodup (mem_symbols b)

theorem countSymbol_present (hw : Hw) (b : Byte) :
    (hw.countSymbol b).present.length = hw.present.length + (if hw.histAt b = 0 then 1 else 0) :=
  filter_pos_bump (hw.countSymbol_histAt_self b) (fun _ h => hw.countSymbol_histAt_ne h) symbols_nodup (mem_symbols b)

theorem mem_present {hw : Hw} {b : Byte} : b ∈ hw.present ↔ 0 < hw.histAt b := by
  simp [Hw.present, mem_symbols]

theorem present_nodup (hw : Hw) : hw.present.Nodup := symbols_nodup.filter _

theorem present_length_le (hw : Hw) : hw.present.length ≤ 256 :=
  (List.length_filter_le ..).trans (by simp)

/-- A count is at most the sum of all. -/
theorem histAt_le_sum (hw : Hw) (b : Byte) : hw.histAt b ≤ (symbols.map hw.histAt).sum :=
  List.single_le_sum (by simp) _ (List.mem_map_of_mem (mem_symbols b))

/-- The absent symbols add nothing: the sum over the symbols present is the whole sum. -/
theorem present_sum (hw : Hw) : (hw.present.map hw.histAt).sum = (symbols.map hw.histAt).sum := by
  unfold Hw.present
  induction symbols with
  | nil => rfl
  | cons x xs ih =>
    by_cases h : 0 < hw.histAt x
    · simp [h, ih]
    · simp [ih, Nat.eq_zero_of_not_pos h]

end Sys2Proof.Machine
end

