-- ==== Sys2Proof/Laws/Forest.lean ====
section
/-! SUPPORT. Trees in the node store: what a forest implies of the counts, and that SORT and MERGE keep a forest (10_state.md R41,
42_leaf_orderer.md R163, 43_tree_builder.md R181 to R187). -/

namespace Sys2Proof.Machine

/-! ## One tree -/

theorem HTree.slot_mem (t : HTree) : t.slot ∈ t.slots := by
  cases t <;> simp [HTree.slot, HTree.slots]

/-- A full binary tree with n leaves has 2 n - 1 nodes. -/
theorem HTree.slots_length (t : HTree) : t.slots.length + 1 = 2 * t.syms.length := by
  induction t with
  | leaf i b => rfl
  | branch i l r hl hr => simp only [HTree.slots, HTree.syms, List.length_cons, List.length_append]; omega

theorem HTree.syms_pos (t : HTree) : 0 < t.syms.length := by
  have := t.slots_length; omega

theorem HTree.stored_slot {hw : Hw} {t : HTree} (h : t.Stored hw) : (hw.nodeAt t.slot).f = t.weight hw.histAt := by
  induction t with
  | leaf i b => simp only [HTree.Stored] at h; simp [HTree.slot, h, HTree.weight]
  | branch i l r hl hr =>
    obtain ⟨hi, h1, h2⟩ := h
    show (hw.nodeAt i).f = _
    rw [hi, HTree.weight, ← hl h1, ← hr h2]

/-- Only the slots of the tree and the counts matter to it. -/
theorem HTree.stored_congr {hw hw' : Hw} {t : HTree} (hh : hw'.histAt = hw.histAt)
    (hn : ∀ i ∈ t.slots, hw'.nodeAt i = hw.nodeAt i) (h : t.Stored hw) : t.Stored hw' := by
  induction t with
  | leaf i b => simpa [HTree.Stored, hh, hn i (by simp [HTree.slots])] using h
  | branch i l r hl hr =>
    obtain ⟨hi, h1, h2⟩ := h
    refine ⟨?_, hl (fun j hj => hn j (by simp [HTree.slots, hj])) h1, hr (fun j hj => hn j (by simp [HTree.slots, hj])) h2⟩
    rw [hn i (by simp [HTree.slots]), hn l.slot (by simp [HTree.slots, l.slot_mem]),
      hn r.slot (by simp [HTree.slots, r.slot_mem]), hi]

theorem HTree.weight_eq_sum (h : Byte → Nat) (t : HTree) : t.weight h = (t.syms.map h).sum := by
  induction t with
  | leaf i b => simp [HTree.weight, HTree.syms]
  | branch i l r hl hr => simp [HTree.weight, HTree.syms, hl, hr]

/-! ## A forest -/

theorem flatMap_slots_length (ts : List HTree) :
    (ts.flatMap HTree.slots).length + ts.length = 2 * (ts.flatMap HTree.syms).length := by
  induction ts with
  | nil => rfl
  | cons t ts ih => have := t.slots_length; simp only [List.flatMap_cons, List.length_append, List.length_cons]; omega

section Facts

variable {hw : Hw} {ts : List HTree} (h : hw.Forest ts)
include h

theorem Hw.Forest.slot_lt {t : HTree} (ht : t ∈ ts) {i : NodeIx} (hi : i ∈ t.slots) : i.val < hw.nnodes := by
  have : i.val ∈ (ts.flatMap HTree.slots).map Fin.val := List.mem_map_of_mem (List.mem_flatMap.2 ⟨t, ht, hi⟩)
  simpa using (h.slots.mem_iff).1 this

/-- NNODES + len(SEQ) = 2 n (43_tree_builder.md R182, R184). -/
theorem Hw.Forest.nnodes_seq : hw.nnodes + hw.seq.length = 2 * hw.present.length := by
  have h1 := h.slots.length_eq
  have h2 := h.syms.length_eq
  have h3 := flatMap_slots_length ts
  simp only [List.length_map, List.length_range] at h1
  rw [h.roots, List.length_map]; omega

theorem Hw.Forest.seq_length_le : hw.seq.length ≤ hw.present.length := by
  have h2 := h.syms.length_eq
  rw [h.roots, List.length_map, ← h2]
  clear h h2
  induction ts with
  | nil => simp
  | cons t ts ih => have := t.syms_pos; simp only [List.flatMap_cons, List.length_append, List.length_cons]; omega

theorem Hw.Forest.seq_pos (hp : 0 < hw.present.length) : 0 < hw.seq.length := by
  have h2 := h.syms.length_eq
  rw [h.roots, List.length_map]
  cases ts with
  | nil => simp at h2; omega
  | cons t ts => simp

/-- The frequencies in SEQ add up to the sum of all counts (43_tree_builder.md R186). -/
theorem Hw.Forest.weights : (ts.map (HTree.weight hw.histAt)).sum = (symbols.map hw.histAt).sum := by
  rw [← present_sum, ← (h.syms.map hw.histAt).sum_eq]
  clear h
  induction ts with
  | nil => rfl
  | cons t ts ih => simp [ih, t.weight_eq_sum]

theorem Hw.Forest.syms_nodup {t : HTree} (ht : t ∈ ts) : t.syms.Nodup := by
  have : (ts.flatMap HTree.syms).Nodup := h.syms.nodup_iff.2 (present_nodup hw)
  exact (List.nodup_flatMap.1 this).1 t ht

/-- Every slot's frequency is at most the sum of all counts. -/
theorem Hw.Forest.freq_le (i : NodeIx) : (hw.nodeAt i).f ≤ (symbols.map hw.histAt).sum := by
  by_cases hi : hw.nnodes ≤ i.val
  · simp [h.unallocated i hi, Node.zero]
  · have : i.val ∈ (ts.flatMap HTree.slots).map Fin.val := (h.slots.mem_iff).2 (by simp; omega)
    obtain ⟨j, hj, e⟩ := List.mem_map.1 this
    have : j = i := Fin.ext e
    subst this
    obtain ⟨t, ht, hs⟩ := List.mem_flatMap.1 hj
    have key : ∀ u : HTree, u.Stored hw → ∀ k ∈ u.slots, (hw.nodeAt k).f ≤ u.weight hw.histAt := by
      intro u
      induction u with
      | leaf i b =>
        intro hu k hk
        simp only [HTree.slots, List.mem_singleton] at hk
        subst hk; simp only [HTree.Stored] at hu; simp [hu, HTree.weight]
      | branch i l r hl hr =>
        intro hu k hk
        have hroot := HTree.stored_slot hu
        obtain ⟨_, h1, h2⟩ := hu
        simp only [HTree.slots, List.mem_cons, List.mem_append] at hk
        rcases hk with rfl | hk | hk
        · exact le_of_eq hroot
        · have := hl h1 k hk; simp only [HTree.weight]; omega
        · have := hr h2 k hk; simp only [HTree.weight]; omega
    refine (key t (h.stored t ht) _ hs).trans ?_
    rw [← h.weights]
    exact List.single_le_sum (by simp) _ (List.mem_map_of_mem ht)

end Facts

/-- What a forest depends on. -/
theorem Hw.Forest.congr {hw hw' : Hw} {ts : List HTree} (h : hw.Forest ts) (hh : hw'.hist = hw.hist) (hn : hw'.node = hw.node)
    (hs : hw'.seq = hw.seq) (hk : hw'.nnodes = hw.nnodes) : hw'.Forest ts := by
  have eh : hw'.histAt = hw.histAt := by funext b; simp [Hw.histAt, hh]
  have en : ∀ i, hw'.nodeAt i = hw.nodeAt i := fun i => by simp [Hw.nodeAt, hn]
  exact {
    roots := hs.trans h.roots
    stored := fun t ht => HTree.stored_congr eh (fun i _ => en i) (h.stored t ht)
    slots := hk ▸ h.slots
    syms := by simpa [Hw.present, eh] using h.syms
    ascending := by simpa [eh] using h.ascending
    unallocated := fun i hi => (en i).trans (h.unallocated i (hk ▸ hi)) }

/-! ## MERGE keeps a forest -/

/-- Inserting before the first entry that is not less keeps a list ascending (43_tree_builder.md R183, R187). -/
theorem pairwise_insertIdx_findIdx (x : Nat) (l : List Nat) (h : l.Pairwise (· ≤ ·)) :
    (l.insertIdx (l.findIdx fun y => decide (x ≤ y)) x).Pairwise (· ≤ ·) := by
  induction l with
  | nil => simp
  | cons y ys ih =>
    obtain ⟨hy, hys⟩ := List.pairwise_cons.1 h
    by_cases c : x ≤ y
    · simp only [List.findIdx_cons, c, decide_true, cond_true, List.insertIdx_zero, List.pairwise_cons]
      refine ⟨fun z hz => ?_, hy, hys⟩
      rcases List.mem_cons.1 hz with rfl | hz
      · exact c
      · exact c.trans (hy z hz)
    · simp only [List.findIdx_cons, c, decide_false, cond_false, List.insertIdx_succ_cons, List.pairwise_cons]
      refine ⟨fun z hz => ?_, ih hys⟩
      rcases List.eq_or_mem_of_mem_insertIdx hz with rfl | hz
      · omega
      · exact hy z hz

/-- The insertion index among slots is that among the trees that stand in them. -/
theorem insertAt_trees {hw : Hw} {us : List HTree} (h : ∀ t ∈ us, hw.freq t.slot = t.weight hw.histAt) (f : Nat) :
    hw.insertAt (us.map HTree.slot) f = us.findIdx fun t => decide (f ≤ t.weight hw.histAt) := by
  unfold Hw.insertAt
  induction us with
  | nil => rfl
  | cons t us ih => simp only [List.map_cons, List.findIdx_cons, h t (by simp), ih fun u hu => h u (by simp [hu])]

theorem Hw.Forest.merged {hw : Hw} {ts : List HTree} (h : hw.Forest ts) {a b : NodeIx} {rest : List NodeIx} {m : NodeIx}
    (hs : hw.seq = a :: b :: rest) (hm : m.val = hw.nnodes) : ∃ ts', (hw.merged a b rest m).Forest ts' := by
  rw [h.roots] at hs
  obtain ⟨l, ts, rfl, rfl, hs1⟩ := List.map_eq_cons_iff.1 hs
  obtain ⟨r, us, rfl, rfl, rfl⟩ := List.map_eq_cons_iff.1 hs1
  clear hs hs1
  have hfresh : ∀ t ∈ l :: r :: us, ∀ i ∈ t.slots, i ≠ m := fun t ht i hi e => by
    have := h.slot_lt ht hi; rw [e] at this; omega
  set hw' := hw.merged l.slot r.slot (us.map HTree.slot) m with hw'_def
  have hh : hw'.histAt = hw.histAt := rfl
  have stored' : ∀ t ∈ l :: r :: us, t.Stored hw' := fun t ht =>
    HTree.stored_congr hh (fun i hi => hw.merged_nodeAt_ne _ _ _ (hfresh t ht i hi)) (h.stored t ht)
  have wl := HTree.stored_slot (h.stored l (by simp))
  have wr := HTree.stored_slot (h.stored r (by simp))
  set k := us.findIdx fun t => decide (l.weight hw.histAt + r.weight hw.histAt ≤ t.weight hw.histAt) with hk
  have hidx : hw.insertAt (us.map HTree.slot) (hw.mergedNode l.slot r.slot).f = k := by
    have wu : ∀ t ∈ us, hw.freq t.slot = t.weight hw.histAt := fun t ht => HTree.stored_slot (h.stored t (by simp [ht]))
    have wlr : (hw.mergedNode l.slot r.slot).f = l.weight hw.histAt + r.weight hw.histAt := by
      simp [Hw.mergedNode, Hw.freq, wl, wr]
    rw [wlr, hk]
    exact insertAt_trees wu _
  have hkle : k ≤ us.length := List.findIdx_le_length
  have hperm : (us.insertIdx k (.branch m l r)).Perm (.branch m l r :: us) := List.perm_insertIdx _ _ hkle
  refine ⟨us.insertIdx k (.branch m l r), ?_⟩
  constructor
  · show (us.map HTree.slot).insertIdx _ m = _
    rw [hidx, List.map_insertIdx]; rfl
  · intro t ht
    rcases List.mem_cons.1 (hperm.mem_iff.1 ht) with rfl | ht
    · refine ⟨?_, stored' l (by simp), stored' r (by simp)⟩
      have hl := hw.merged_nodeAt_ne l.slot r.slot (us.map HTree.slot) (hfresh l (by simp) _ l.slot_mem)
      have hr := hw.merged_nodeAt_ne l.slot r.slot (us.map HTree.slot) (hfresh r (by simp) _ r.slot_mem)
      rw [hw'_def, hl, hr, Hw.merged_nodeAt_self]; rfl
    · exact stored' t (by simp [ht])
  · have h1 := (hperm.flatMap_right HTree.slots).map Fin.val
    refine h1.trans ?_
    show List.Perm _ (List.range (m.val + 1))
    rw [hm, List.range_succ]
    have h2 := h.slots
    simp only [List.flatMap_cons, HTree.slots, List.map_cons, List.map_append, List.cons_append, List.append_assoc, hm] at h2 ⊢
    exact (List.perm_append_singleton _ _).symm.trans (List.Perm.append_right _ h2) |>.symm.symm
  · have h1 := hperm.flatMap_right HTree.syms
    refine h1.trans ?_
    have h2 := h.syms
    have hp : hw'.present = hw.present := rfl
    rw [hp]
    simpa [HTree.syms] using h2
  · rw [hh]
    have := h.ascending
    simp only [List.map_cons, List.pairwise_cons] at this
    obtain ⟨-, -, hus⟩ := this
    have key := pairwise_insertIdx_findIdx (l.weight hw.histAt + r.weight hw.histAt) _ hus
    rw [List.map_insertIdx]
    convert key using 2
    · rw [hk, List.findIdx_map]; rfl
    · rfl
  · intro i hi
    have hi : m.val + 1 ≤ i.val := hi
    have : i ≠ m := fun e => by rw [e] at hi; omega
    rw [hw'_def, hw.merged_nodeAt_ne _ _ _ this]
    exact h.unallocated i (by omega)

/-! ## SORT makes a forest -/

theorem leafOrder_perm (hw : Hw) : hw.leafOrder.Perm hw.present := List.perm_insertionSort _ _

/-- The leaves are in ascending order of (HIST[s], s) (42_leaf_orderer.md R161). -/
theorem leafOrder_pairwise (hw : Hw) : hw.leafOrder.Pairwise hw.leafLe := by
  have ht : Std.Total hw.leafLe := ⟨fun a b => by simp only [Hw.leafLe]; omega⟩
  have hr : IsTrans Byte hw.leafLe := ⟨fun a b c => by simp only [Hw.leafLe]; omega⟩
  exact List.pairwise_insertionSort _ _

theorem writeNodes_get (ns : List Node) (k : Nat) (v : Vector Node 511) (i : Nat) (hi : i < 511) :
    (writeNodes ns k v)[i] = if h : k ≤ i ∧ i < k + ns.length then ns[i - k]'(by omega) else v[i] := by
  induction ns generalizing k v with
  | nil => simp [writeNodes]
  | cons n ns ih =>
    rw [writeNodes, ih]
    by_cases h1 : i = k
    · subst h1; simp
    · by_cases h2 : k + 1 ≤ i ∧ i < k + 1 + ns.length
      · have h3 : k ≤ i ∧ i < k + (n :: ns).length := by simp; omega
        rw [dif_pos h2, dif_pos h3]
        have : i - k = (i - (k + 1)) + 1 := by omega
        simp [this]
      · have h3 : ¬ (k ≤ i ∧ i < k + (n :: ns).length) := by simp; omega
        rw [dif_neg h2, dif_neg h3, Vector.getElem_setIfInBounds_ne _ (Ne.symm h1)]

/-- The trees SORT leaves: one leaf a slot. -/
def leafTrees (order : List Byte) : List HTree := List.zipWith HTree.leaf (firstSlots order.length) order

theorem Hw.Unbuilt.sorted {hw : Hw} (h : hw.Unbuilt) : hw.sorted.Forest (leafTrees hw.leafOrder) := by
  have hn : hw.leafOrder.length ≤ 256 := (leafOrder_perm hw).length_eq ▸ present_length_le hw
  have hlen : (firstSlots hw.leafOrder.length).length = hw.leafOrder.length := by simp [firstSlots]
  have hget : ∀ k (hk : k < hw.leafOrder.length), ((firstSlots hw.leafOrder.length)[k]'(by omega)).val = k := fun k hk => by
    simp [firstSlots]; omega
  have hnode : ∀ i : NodeIx, hw.sorted.nodeAt i =
      if h : i.val < hw.leafOrder.length then hw.leafOf hw.leafOrder[i.val] else Node.zero := fun i => by
    have := writeNodes_get (hw.leafOrder.map hw.leafOf) 0 hw.node i.val i.isLt
    show (writeNodes _ 0 hw.node)[i.val] = _
    rw [this]
    by_cases hi : i.val < hw.leafOrder.length
    · simp [hi]
    · have hz := h.nodes i; simp only [Hw.nodeAt] at hz; simp [hi, hz]
  have hsyms : (leafTrees hw.leafOrder).flatMap HTree.syms = hw.leafOrder := by
    have : ∀ (l : List NodeIx) (o : List Byte), l.length = o.length → (List.zipWith HTree.leaf l o).flatMap HTree.syms = o := by
      intro l
      induction l with
      | nil => intro o e; cases o <;> simp_all
      | cons x xs ih => intro o e; cases o with
        | nil => simp at e
        | cons y ys => simp [HTree.syms, ih ys (by simpa using e)]
    exact this _ _ hlen
  have hslots : (leafTrees hw.leafOrder).flatMap HTree.slots = firstSlots hw.leafOrder.length := by
    have : ∀ (l : List NodeIx) (o : List Byte), l.length = o.length → (List.zipWith HTree.leaf l o).flatMap HTree.slots = l := by
      intro l
      induction l with
      | nil => intro o e; cases o <;> simp_all
      | cons x xs ih => intro o e; cases o with
        | nil => simp at e
        | cons y ys => simp [HTree.slots, ih ys (by simpa using e)]
    exact this _ _ hlen
  constructor
  · show firstSlots _ = _
    apply List.ext_getElem (by simp [leafTrees, hlen])
    intro k h1 h2
    simp [leafTrees, HTree.slot]
  · intro t ht
    obtain ⟨k, hk, rfl⟩ := List.getElem_of_mem ht
    have hk' : k < hw.leafOrder.length := by simpa [leafTrees, hlen] using hk
    simp only [leafTrees, List.getElem_zipWith, HTree.Stored]
    rw [hnode, dif_pos (by rw [hget k hk']; exact hk')]
    simp only [hget k hk']; rfl
  · rw [hslots]
    show ((firstSlots hw.leafOrder.length).map Fin.val).Perm (List.range hw.leafOrder.length)
    have : (firstSlots hw.leafOrder.length).map Fin.val = List.range hw.leafOrder.length := by
      apply List.ext_getElem (by simp [hlen])
      intro k h1 h2
      rw [List.getElem_map, hget k (by simpa using h2)]; simp
    rw [this]
  · rw [hsyms]; exact leafOrder_perm hw
  · have : (leafTrees hw.leafOrder).map (HTree.weight hw.sorted.histAt) = hw.leafOrder.map hw.histAt := by
      apply List.ext_getElem (by simp [leafTrees, hlen])
      intro k h1 h2
      simp [leafTrees, HTree.weight]
    rw [this, List.pairwise_map]
    exact (leafOrder_pairwise hw).imp fun {a b} hab => by rcases hab with h | h <;> omega
  · intro i hi
    rw [hnode, dif_neg]
    exact Nat.not_lt.2 hi

end Sys2Proof.Machine
end

