-- ==== Sys2Proof/Laws/Codes.lean ====
section
/-! SUPPORT. The walk of a stored tree records exactly its paths (44_code_generator.md R200 to R204), and what the paths of a tree are:
one for each leaf, none a beginning of another (R206), with Kraft sum 1 (R207). -/

namespace Sys2Proof.Machine

/-! ## The paths of a tree -/

theorem HTree.paths_syms (t : HTree) (p : List Bool) : (t.paths p).map Prod.fst = t.syms := by
  induction t generalizing p with
  | leaf i b => rfl
  | branch i l r hl hr => simp [HTree.paths, HTree.syms, hl, hr]

theorem HTree.codes_syms (t : HTree) : t.codes.map Prod.fst = t.syms := by
  cases t with
  | leaf i b => rfl
  | branch i l r => exact HTree.paths_syms _ _

/-- Every path goes on from where the walk stands. -/
theorem HTree.paths_extend {t : HTree} {p : List Bool} {e : Byte × List Bool} (h : e ∈ t.paths p) : ∃ q, e.2 = p ++ q := by
  induction t generalizing p with
  | leaf i b => simp only [HTree.paths, List.mem_singleton] at h; exact ⟨[], by simp [h]⟩
  | branch i l r hl hr =>
    rcases List.mem_append.1 h with h | h
    · obtain ⟨q, hq⟩ := hl h; exact ⟨false :: q, by simp [hq]⟩
    · obtain ⟨q, hq⟩ := hr h; exact ⟨true :: q, by simp [hq]⟩

/-- A path is shorter than the number of leaves. -/
theorem HTree.paths_length {t : HTree} {p : List Bool} {e : Byte × List Bool} (h : e ∈ t.paths p) :
    p.length ≤ e.2.length ∧ e.2.length + 1 ≤ p.length + t.syms.length := by
  induction t generalizing p with
  | leaf i b => simp only [HTree.paths, List.mem_singleton] at h; simp [h, HTree.syms]
  | branch i l r hl hr =>
    have := l.syms_pos; have := r.syms_pos
    simp only [HTree.syms, List.length_append]
    rcases List.mem_append.1 h with h | h
    · have := hl h; simp only [List.length_append, List.length_singleton] at this; omega
    · have := hr h; simp only [List.length_append, List.length_singleton] at this; omega

/-- Every code has length 1..255 when the tree has at most 256 leaves (44_code_generator.md R203, R204). -/
theorem HTree.codes_length {t : HTree} (ht : t.syms.length ≤ 256) {e : Byte × List Bool} (h : e ∈ t.codes) :
    1 ≤ e.2.length ∧ e.2.length ≤ 255 := by
  cases t with
  | leaf i b => simp only [HTree.codes, List.mem_singleton] at h; simp [h]
  | branch i l r =>
    rw [HTree.codes] at h
    constructor
    · rcases List.mem_append.1 h with h | h
      · simpa using (HTree.paths_length h).1
      · simpa using (HTree.paths_length h).1
    · have := (HTree.paths_length h).2; simp only [List.length_nil] at this; omega

/-- No path of a tree is a beginning of another (44_code_generator.md R206). -/
theorem HTree.paths_prefix_free {t : HTree} {p : List Bool} {e f : Byte × List Bool} (ht : t.syms.Nodup)
    (he : e ∈ t.paths p) (hf : f ∈ t.paths p) (hp : e.2 <+: f.2) : e = f := by
  induction t generalizing p with
  | leaf i b => simp only [HTree.paths, List.mem_singleton] at he hf; rw [he, hf]
  | branch i l r hl hr =>
    obtain ⟨nl, nr, -⟩ := List.nodup_append.1 ht
    have off : ∀ {x y : Byte × List Bool} {b c : Bool} {u v : HTree}, b ≠ c → x ∈ u.paths (p ++ [b]) → y ∈ v.paths (p ++ [c]) →
        ¬ x.2 <+: y.2 := by
      intro x y b c u v hbc hx hy h
      obtain ⟨q, hq⟩ := HTree.paths_extend hx
      obtain ⟨q', hq'⟩ := HTree.paths_extend hy
      rw [hq, hq', List.append_assoc, List.append_assoc, List.prefix_append_right_inj] at h
      simp [hbc] at h
    rcases List.mem_append.1 he with he | he <;> rcases List.mem_append.1 hf with hf | hf
    · exact hl nl he hf
    · exact absurd hp (off (by decide) he hf)
    · exact absurd hp (off (by decide) he hf)
    · exact hr nr he hf

/-- The Kraft sum of the paths, scaled by 2^N (44_code_generator.md R207). -/
theorem HTree.paths_kraft (t : HTree) (p : List Bool) (N : Nat) (h : p.length + t.syms.length ≤ N + 1) :
    ((t.paths p).map fun e => 2 ^ (N - e.2.length)).sum = 2 ^ (N - p.length) := by
  induction t generalizing p with
  | leaf i b => simp [HTree.paths]
  | branch i l r hl hr =>
    have := l.syms_pos; have := r.syms_pos
    simp only [HTree.syms, List.length_append] at h
    have h1 := hl (p ++ [false]) (by simp; omega)
    have h2 := hr (p ++ [true]) (by simp; omega)
    simp only [HTree.paths, List.map_append, List.sum_append, h1, h2, List.length_append, List.length_singleton]
    have : N - p.length = (N - (p.length + 1)) + 1 := by omega
    rw [this, Nat.pow_succ]; omega

/-! ## The walk -/

/-- Recording each of a list of codes in turn. -/
def recordAll (es : List (Byte × List Bool)) (t : Vector CodeEntry 256) : Vector CodeEntry 256 :=
  es.foldl (fun t e => recordCode t e.1 e.2) t

theorem recordAll_append (es fs : List (Byte × List Bool)) (t : Vector CodeEntry 256) :
    recordAll (es ++ fs) t = recordAll fs (recordAll es t) := List.foldl_append

/-- The walk of a stored tree records its paths and needs no more fuel than it has slots. -/
theorem walk_stored {hw : Hw} {t : HTree} (ht : t.Stored hw) (fuel : Nat) (hf : t.slots.length ≤ fuel) (p : List Bool)
    (c : Vector CodeEntry 256) : walk hw.node fuel t.slot p c = some (recordAll (t.paths p) c) := by
  induction t generalizing fuel p c with
  | leaf i b =>
    obtain ⟨fuel, rfl⟩ : ∃ k, fuel = k + 1 := ⟨fuel - 1, by simp only [HTree.slots, List.length_singleton] at hf; omega⟩
    have : hw.node[i.val] = _ := ht
    simp [walk, HTree.slot, this, recordAll, HTree.paths]
  | branch i l r hl hr =>
    simp only [HTree.slots, List.length_cons, List.length_append] at hf
    obtain ⟨fuel, rfl⟩ : ∃ k, fuel = k + 1 := ⟨fuel - 1, by omega⟩
    obtain ⟨hi, h1, h2⟩ := ht
    have hi : hw.node[i.val] = _ := hi
    rw [walk]
    simp only [show (HTree.branch i l r).slot = i from rfl, hi]
    rw [hl h1 fuel (by omega), Option.bind_some, hr h2 fuel (by omega), HTree.paths, recordAll_append]

theorem recordAll_get_not_mem (es : List (Byte × List Bool)) (t : Vector CodeEntry 256) {b : Byte} (h : b ∉ es.map Prod.fst) :
    (recordAll es t)[b.toNat]'(b.isLt) = t[b.toNat]'(b.isLt) := by
  induction es generalizing t with
  | nil => rfl
  | cons e es ih =>
    simp only [List.map_cons, List.mem_cons, not_or] at h
    exact (ih _ h.2).trans (recordCode_ne t e.2 h.1)

theorem recordAll_get_mem (es : List (Byte × List Bool)) (t : Vector CodeEntry 256) (hn : (es.map Prod.fst).Nodup)
    {e : Byte × List Bool} (h : e ∈ es) :
    (recordAll es t)[e.1.toNat]'(e.1.isLt) = { len := e.2.length, bits := e.2 } := by
  induction es generalizing t with
  | nil => cases h
  | cons f fs ih =>
    obtain ⟨h1, h2⟩ := List.nodup_cons.1 hn
    rcases List.mem_cons.1 h with rfl | h
    · exact (recordAll_get_not_mem fs _ h1).trans (recordCode_self t e.1 e.2)
    · exact ih _ h2 h

/-- CODEGEN's table of a stored tree: its codes. -/
theorem codeTable_stored {hw : Hw} {t : HTree} (ht : t.Stored hw) (hs : t.slots.length ≤ 511) (c : Vector CodeEntry 256) :
    codeTable hw.node t.slot c = some (recordAll t.codes c) := by
  cases t with
  | leaf i b =>
    have : hw.node[i.val] = _ := ht
    simp [codeTable, HTree.slot, this, recordAll, HTree.codes]
  | branch i l r =>
    have hi : hw.node[i.val] = _ := ht.1
    have := walk_stored ht 511 hs [] c
    simp only [codeTable, show (HTree.branch i l r).slot = i from rfl, hi] at this ⊢
    exact this

/-- After CODEGEN the code table is that of the tree. -/
theorem Hw.coded_of_codes {hw hw' : Hw} {t : HTree} (hn : hw.NoCodes) (hs : t.syms.Nodup)
    (h : hw'.code = recordAll t.codes hw.code) : hw'.Coded t := by
  constructor
  · intro e he
    simp only [Hw.codeAt, h]
    exact recordAll_get_mem _ _ (by rwa [t.codes_syms]) he
  · intro b hb
    have := hn b
    simp only [Hw.codeAt, h] at this ⊢
    rw [recordAll_get_not_mem _ _ (by rwa [t.codes_syms]), this]

/-! ## The code table of a built state -/

/-- A symbol of a coded tree has one of its codes. -/
theorem Hw.Coded.entry {hw : Hw} {t : HTree} (h : hw.Coded t) {b : Byte} (hb : b ∈ t.syms) :
    ∃ p, (b, p) ∈ t.codes ∧ hw.codeAt b = { len := p.length, bits := p } := by
  rw [← t.codes_syms] at hb
  obtain ⟨⟨b', p⟩, he, rfl⟩ := List.mem_map.1 hb
  exact ⟨p, he, h.1 _ he⟩

/-- A symbol with a nonzero CODE_LEN is in the tree. -/
theorem Hw.Coded.mem {hw : Hw} {t : HTree} (h : hw.Coded t) {b : Byte} (hb : (hw.codeAt b).len ≠ 0) : b ∈ t.syms := by
  by_contra hc; exact hb (by rw [h.2 b hc]; rfl)

end Sys2Proof.Machine
end

