-- ==== Sys2Proof/Laws/Moves.lean ====
section
/-! SUPPORT. What one step can do to HUFENC's own state, said once: every instruction's meaning makes one of these moves, with the
conditions it was made under; and no step changes the configuration. Later proofs take a step apart with these lemmas and unfold no
meaning. -/

namespace Sys2Proof.Machine

/-- The moves of HUFENC's own state (10_state.md: "written by"). -/
inductive Hw.Moves (c : Config) (hw : Hw) : Hw → Prop where
  | stays : Hw.Moves c hw hw
  | clears : Hw.Moves c hw hw.clear
  | resets : Hw.Moves c hw Hw.reset
  | errs (e : ErrCode) : hw.phase ≠ .error → e ≠ .none → Hw.Moves c hw (hw.raise e)
  | starts : hw.phase = .idle → Hw.Moves c hw { hw with phase := .count }
  | counts (b : Byte) : hw.phase = .count → hw.total ≠ cntMax c → Hw.Moves c hw (hw.countSymbol b)
  | counted : hw.phase = .count → Hw.Moves c hw { hw with phase := .counted }
  | builds : hw.phase = .counted → Hw.Moves c hw { hw with phase := .build, bsub := .sort }
  | sorts : hw.phase = .build → hw.bsub = .sort → Hw.Moves c hw hw.sorted
  | merges (a b : NodeIx) (rest : List NodeIx) (m : NodeIx) : hw.phase = .build → hw.bsub = .merge →
      hw.seq = a :: b :: rest → m.val = hw.nnodes → Hw.Moves c hw (hw.merged a b rest m)
  | plants : hw.phase = .build → hw.bsub = .codegen → hw.seq = [] → Hw.Moves c hw (hw.finishBuild 0 false hw.code)
  | generates (r : NodeIx) (rest : List NodeIx) (t : Vector CodeEntry 256) : hw.phase = .build → hw.bsub = .codegen →
      hw.seq = r :: rest → codeTable hw.node r hw.code = some t → Hw.Moves c hw (hw.finishBuild r true t)
  | opens : hw.phase = .ready ∨ (hw.phase = .done ∧ hw.outq = []) → Hw.Moves c hw hw.startEncode
  | encodes (b : Byte) (hw' : Hw) : hw.phase = .encode → hw.outq.length + hw.needData b ≤ c.depth → hw.encIn ≠ hw.total →
      (hw.codeAt b).len ≠ 0 → hw.encodeSymbol c.depth b = some hw' → Hw.Moves c hw hw'
  | finishes (hw' : Hw) : hw.phase = .encode → hw.outq.length + hw.needEnd ≤ c.depth → hw.encIn = hw.total →
      hw.finishEncode c.depth = some hw' → Hw.Moves c hw hw'
  | delivers (b : OutBeat) (rest : List OutBeat) : hw.outq = b :: rest → Hw.Moves c hw { hw with outq := rest }

/-! ## Shared operations -/

theorem command_next {ok : Bool} {act : Hw → Hw} {s t : State} (h : command ok act s = .next t) :
    t.cfg = s.cfg ∧ (t.hw = s.hw ∨ (ok = true ∧ t.hw = act s.hw) ∨ (s.hw.phase ≠ .error ∧ t.hw = s.hw.raise .cmdSeq)) := by
  unfold command at h
  split at h
  · cases h; exact ⟨rfl, .inl rfl⟩
  · split at h
    · cases h; exact ⟨rfl, .inr (.inl ⟨‹_›, rfl⟩)⟩
    · cases h; exact ⟨rfl, .inr (.inr ⟨‹_›, rfl⟩)⟩

theorem illegalCommand_moves {s t : State} (h : illegalCommand s = .next t) : t.cfg = s.cfg ∧ s.hw.Moves s.cfg t.hw := by
  unfold illegalCommand at h
  split at h
  · cases h; exact ⟨rfl, .stays⟩
  · cases h; exact ⟨rfl, .errs _ ‹_› (by decide)⟩

theorem transfer_moves {b : OutBeat} {s t : State} (h : transfer b s = .next t) : t.cfg = s.cfg ∧ s.hw.Moves s.cfg t.hw := by
  unfold transfer waits at h
  split at h
  · split at h <;> cases h
    · exact ⟨rfl, .delivers _ _ ‹_›⟩
    · exact ⟨rfl, .stays⟩
  · cases h; exact ⟨rfl, .stays⟩

theorem acceptAndRaise_moves {e : ErrCode} {s t : State} (he : e ≠ .none) (hp : s.hw.phase ≠ .error)
    (h : acceptAndRaise e s = .next t) : t.cfg = s.cfg ∧ s.hw.Moves s.cfg t.hw := by
  cases h; exact ⟨rfl, .errs e hp he⟩

/-! ## The commands -/

theorem execCount_moves {s t : State} (h : execCount s = .next t) : t.cfg = s.cfg ∧ s.hw.Moves s.cfg t.hw := by
  obtain ⟨hc, e | ⟨ok, e⟩ | ⟨hp, e⟩⟩ := command_next h <;> rw [e] <;> refine ⟨hc, ?_⟩
  · exact .stays
  · exact .starts (by simpa using ok)
  · exact .errs _ hp (by decide)

theorem execBuild_moves {s t : State} (h : execBuild s = .next t) : t.cfg = s.cfg ∧ s.hw.Moves s.cfg t.hw := by
  obtain ⟨hc, e | ⟨ok, e⟩ | ⟨hp, e⟩⟩ := command_next h <;> rw [e] <;> refine ⟨hc, ?_⟩
  · exact .stays
  · exact .builds (by simpa using ok)
  · exact .errs _ hp (by decide)

theorem execEncode_moves {s t : State} (h : execEncode s = .next t) : t.cfg = s.cfg ∧ s.hw.Moves s.cfg t.hw := by
  obtain ⟨hc, e | ⟨ok, e⟩ | ⟨hp, e⟩⟩ := command_next h <;> rw [e] <;> refine ⟨hc, ?_⟩
  · exact .stays
  · exact .opens (by simpa [Hw.mayEncode] using ok)
  · exact .errs _ hp (by decide)

theorem performCommand_moves {v : Word} {s t : State} (h : performCommand v s = .next t) :
    t.cfg = s.cfg ∧ s.hw.Moves s.cfg t.hw := by
  unfold performCommand at h
  split at h
  · exact illegalCommand_moves h
  · split at h
    · cases h; exact ⟨rfl, .stays⟩
    · cases h; exact ⟨rfl, .clears⟩
    · exact execCount_moves h
    · exact execBuild_moves h
    · exact execEncode_moves h
    · exact illegalCommand_moves h

/-! ## Input beats -/

theorem execInDataCount_moves {b : Byte} {s t : State} (h : execInDataCount b s = .next t) :
    t.cfg = s.cfg ∧ s.hw.Moves s.cfg t.hw := by
  unfold execInDataCount waits acceptWith at h
  split at h
  · cases h; exact ⟨rfl, .stays⟩
  · rename_i hp
    have hp : s.hw.phase = .count := by simpa using hp
    split at h
    · exact acceptAndRaise_moves (by decide) (by simp [hp]) h
    · cases h; exact ⟨rfl, .counts b hp ‹_›⟩

theorem execInEndCount_moves {d : Byte} {s t : State} (h : execInEndCount d s = .next t) :
    t.cfg = s.cfg ∧ s.hw.Moves s.cfg t.hw := by
  unfold execInEndCount waits acceptWith at h
  split at h
  · cases h; exact ⟨rfl, .stays⟩
  · cases h; exact ⟨rfl, .counted (by simp_all)⟩

theorem execInErrorCount_moves {d : Byte} {s t : State} (h : execInErrorCount d s = .next t) :
    t.cfg = s.cfg ∧ s.hw.Moves s.cfg t.hw := by
  unfold execInErrorCount waits at h
  split at h
  · cases h; exact ⟨rfl, .stays⟩
  · exact acceptAndRaise_moves (by decide) (by simp_all) h

theorem execInErrorEncode_moves {d : Byte} {s t : State} (h : execInErrorEncode d s = .next t) :
    t.cfg = s.cfg ∧ s.hw.Moves s.cfg t.hw := by
  unfold execInErrorEncode waits at h
  split at h
  · cases h; exact ⟨rfl, .stays⟩
  · exact acceptAndRaise_moves (by decide) (by simp_all) h

theorem execInDataEncode_moves {b : Byte} {s t : State} (h : execInDataEncode b s = .next t) :
    t.cfg = s.cfg ∧ s.hw.Moves s.cfg t.hw := by
  unfold execInDataEncode waits acceptWith at h
  split at h
  · cases h; exact ⟨rfl, .stays⟩
  · rename_i hp
    have hp : s.hw.phase = .encode := by simpa using hp
    split at h
    · cases h; exact ⟨rfl, .stays⟩
    · rename_i hr
      split at h
      · exact acceptAndRaise_moves (by decide) (by simp [hp]) h
      · split at h
        · exact acceptAndRaise_moves (by decide) (by simp [hp]) h
        · split at h
          · cases h; exact ⟨rfl, .encodes b _ hp (by simpa [State.hasRoom] using hr) ‹_› ‹_› ‹_›⟩
          · cases h

theorem execInEndEncode_moves {d : Byte} {s t : State} (h : execInEndEncode d s = .next t) :
    t.cfg = s.cfg ∧ s.hw.Moves s.cfg t.hw := by
  unfold execInEndEncode waits acceptWith at h
  split at h
  · cases h; exact ⟨rfl, .stays⟩
  · rename_i hp
    have hp : s.hw.phase = .encode := by simpa using hp
    split at h
    · cases h; exact ⟨rfl, .stays⟩
    · rename_i hr
      split at h
      · exact acceptAndRaise_moves (by decide) (by simp [hp]) h
      · rename_i hl
        split at h
        · cases h; exact ⟨rfl, .finishes _ hp (by simpa [State.hasRoom] using hr) (by simpa using hl) ‹_›⟩
        · cases h

/-! ## Core steps, sink, register port -/

theorem execSort_moves {s t : State} (h : execSort s = .next t) : t.cfg = s.cfg ∧ s.hw.Moves s.cfg t.hw := by
  unfold execSort waits at h
  split at h
  · rename_i hp; cases h; exact ⟨rfl, .sorts hp.1 hp.2⟩
  · cases h; exact ⟨rfl, .stays⟩

theorem execMerge_moves {s t : State} (h : execMerge s = .next t) : t.cfg = s.cfg ∧ s.hw.Moves s.cfg t.hw := by
  unfold execMerge waits at h
  split at h
  · rename_i hp
    split at h
    · split at h
      · cases h; exact ⟨rfl, .merges _ _ _ _ hp.1 hp.2 ‹_› rfl⟩
      · cases h
    · cases h
  · cases h; exact ⟨rfl, .stays⟩

theorem execCodegen_moves {s t : State} (h : execCodegen s = .next t) : t.cfg = s.cfg ∧ s.hw.Moves s.cfg t.hw := by
  unfold execCodegen waits at h
  split at h
  · rename_i hp
    split at h
    · cases h; exact ⟨rfl, .plants hp.1 hp.2 ‹_›⟩
    · split at h
      · cases h; exact ⟨rfl, .generates _ _ _ hp.1 hp.2 ‹_› ‹_›⟩
      · cases h
  · cases h; exact ⟨rfl, .stays⟩

theorem execSnkTake_moves {s t : State} (h : execSnkTake s = .next t) : t.cfg = s.cfg ∧ s.hw.Moves s.cfg t.hw := by
  unfold execSnkTake waits at h
  split at h <;> cases h
  · exact ⟨rfl, .delivers _ _ ‹_›⟩
  · exact ⟨rfl, .stays⟩

theorem execSnkFail_moves {s t : State} (h : execSnkFail s = .next t) : t.cfg = s.cfg ∧ s.hw.Moves s.cfg t.hw := by
  unfold execSnkFail at h
  split at h <;> cases h
  · rename_i ha
    refine ⟨rfl, .errs _ (fun hp => ?_) (by decide)⟩
    simp [Hw.artifactOpen, hp] at ha
  · exact ⟨rfl, .stays⟩

theorem execRegRead_keeps {a : WordAddr} {s t : State} (h : execRegRead a s = .next t) : t.cfg = s.cfg ∧ t.hw = s.hw := by
  unfold execRegRead at h
  split at h <;> cases h <;> exact ⟨rfl, rfl⟩

/-! ## Every instruction, every step -/

/-- Every instruction that answers a next state makes one of the moves, and changes no parameter. -/
theorem exec_moves (i : Instr) {s t : State} (h : exec i s = .next t) : t.cfg = s.cfg ∧ s.hw.Moves s.cfg t.hw := by
  cases i with
  | nop => cases h; exact ⟨rfl, .stays⟩
  | clear => cases h; exact ⟨rfl, .clears⟩
  | count => exact execCount_moves h
  | build => exact execBuild_moves h
  | encode => exact execEncode_moves h
  | cmdIllegalOp5 => exact illegalCommand_moves h
  | cmdIllegalOp67 x => exact illegalCommand_moves h
  | cmdIllegalOp8F x => exact illegalCommand_moves h
  | cmdIllegalRsvd r o => exact illegalCommand_moves h
  | inDataCount b => exact execInDataCount_moves h
  | inEndCount d => exact execInEndCount_moves (d := d) h
  | inErrorCount d => exact execInErrorCount_moves (d := d) h
  | inRsvdCount d => exact execInErrorCount_moves (d := d) h
  | inDataEncode b => exact execInDataEncode_moves h
  | inEndEncode d => exact execInEndEncode_moves (d := d) h
  | inErrorEncode d => exact execInErrorEncode_moves (d := d) h
  | inRsvdEncode d => exact execInErrorEncode_moves (d := d) h
  | inAnyOther k d => cases h; exact ⟨rfl, .stays⟩
  | outData b => exact transfer_moves h
  | outEnd => exact transfer_moves h
  | outAbort => exact transfer_moves h
  | regRead a => obtain ⟨hc, hh⟩ := execRegRead_keeps h; exact ⟨hc, hh ▸ .stays⟩
  | regWrite a v =>
    simp only [exec, execRegWrite] at h
    split at h
    · exact performCommand_moves h
    · cases h; exact ⟨rfl, .stays⟩
  | snkTake => exact execSnkTake_moves h
  | snkFail => exact execSnkFail_moves h
  | sort => exact execSort_moves h
  | merge => exact execMerge_moves h
  | codegen => exact execCodegen_moves h
  | reset => cases h; exact ⟨rfl, .resets⟩

/-- What a step comes to: an instruction that the turn presents runs, or the turn passes. -/
theorem step_next {s t : State} (h : step s = .next t) :
    (∃ i, s.fetch = .run i ∧ exec i s.afterTurn = .next t) ∨ (s.fetch = .idle ∧ t = s.afterTurn) ∨
      (s.fetch = .noBeat ∧ t = s.afterTurn.moreBeats) := by
  unfold step at h
  split at h
  · exact .inl ⟨_, ‹_›, h⟩
  · cases h; exact .inr (.inl ⟨‹_›, rfl⟩)
  · cases h; exact .inr (.inr ⟨‹_›, rfl⟩)
  · cases h

/-- Every step makes one of the moves, and changes no parameter. -/
theorem step_moves {s t : State} (h : step s = .next t) : t.cfg = s.cfg ∧ s.hw.Moves s.cfg t.hw := by
  obtain ⟨i, -, h⟩ | ⟨-, rfl⟩ | ⟨-, rfl⟩ := step_next h
  · exact exec_moves i (s := s.afterTurn) h
  · exact ⟨rfl, .stays⟩
  · exact ⟨rfl, .stays⟩

end Sys2Proof.Machine
end

