-- ==== Sys2Proof/Laws/Invariant.lean ====
section
/-! SUPPORT. What each part of the invariant depends on, so that a step that leaves those elements alone keeps it. -/

namespace Sys2Proof.Machine

/-- HIST decides every count. -/
theorem histAt_congr {hw hw' : Hw} (h : hw'.hist = hw.hist) : hw'.histAt = hw.histAt := by
  funext b; simp [Hw.histAt, h]

/-- What the counter invariants depend on. -/
theorem Hw.CountInv.of_same {hw hw' : Hw} {c : Config} (h : hw.CountInv c) (h1 : hw'.hist = hw.hist) (h2 : hw'.total = hw.total)
    (h3 : hw'.nsym = hw.nsym) (h4 : hw'.maxf = hw.maxf) (h5 : hw'.phase = .idle → hw.phase = .idle) : hw'.CountInv c := by
  have e := histAt_congr h1
  exact ⟨by rw [h2, e, h.total], by rw [h3, h.nsym]; simp [Hw.present, e], by rw [h4, e, h.maxf], h2 ▸ h.bound,
    fun i => h2.trans (h.idle (h5 i))⟩

/-- Counters at their reset values meet the counter invariants. -/
theorem Hw.reset_countInv (c : Config) (hw : Hw) (hh : hw.hist = Hw.reset.hist) (ht : hw.total = 0) (hn : hw.nsym = 0)
    (hm : hw.maxf = 0) : hw.CountInv c := by
  have e : hw.histAt = fun _ => 0 := by funext b; rw [histAt_congr hh]; simp
  have z : ∀ l : List Byte, (l.map fun _ => 0).sum = 0 ∧ (l.filter fun _ => decide (0 < 0)).length = 0 ∧
      maxOf (l.map fun _ => 0) = 0 := by
    intro l
    induction l with
    | nil => exact ⟨rfl, rfl, rfl⟩
    | cons x xs ih => obtain ⟨a, b, c⟩ := ih; refine ⟨?_, ?_, ?_⟩ <;> simp_all [maxOf]
  refine ⟨?_, ?_, ?_, by omega, fun _ => ht⟩
  · rw [ht, e]; exact (z symbols).1.symm
  · rw [hn, Hw.present, e]; exact (z symbols).2.1.symm
  · rw [hm, e]; exact (z symbols).2.2.symm

/-- What `Unbuilt` depends on. -/
theorem Hw.Unbuilt.of_same {hw hw' : Hw} (h : hw.Unbuilt) (h1 : hw'.nnodes = hw.nnodes) (h2 : hw'.seq = hw.seq)
    (h3 : hw'.node = hw.node) (h4 : hw'.root = hw.root) (h5 : hw'.rootValid = hw.rootValid) (h6 : hw'.code = hw.code) : hw'.Unbuilt :=
  ⟨h1.trans h.nnodes, h2.trans h.seq, fun i => by simpa [Hw.nodeAt, h3] using h.nodes i, by rw [h4, h5]; exact h.root,
   fun b => by simpa [Hw.codeAt, h6] using h.codes b⟩

/-- What `Growing` depends on. -/
theorem Hw.Growing.of_same {hw hw' : Hw} (h : hw.Growing) (h0 : hw'.hist = hw.hist) (h1 : hw'.nnodes = hw.nnodes) (h2 : hw'.seq = hw.seq)
    (h3 : hw'.node = hw.node) (h4 : hw'.root = hw.root) (h5 : hw'.rootValid = hw.rootValid) (h6 : hw'.code = hw.code) : hw'.Growing :=
  ⟨h.forest.imp fun _ f => f.congr h0 h3 h2 h1, by rw [h4, h5]; exact h.root,
   fun b => by simpa [Hw.codeAt, h6] using h.codes b⟩

/-- What `Built` depends on. -/
theorem Hw.Built.of_same {hw hw' : Hw} (h : hw.Built) (h0 : hw'.hist = hw.hist) (h1 : hw'.nnodes = hw.nnodes) (h2 : hw'.seq = hw.seq)
    (h3 : hw'.node = hw.node) (h4 : hw'.root = hw.root) (h5 : hw'.rootValid = hw.rootValid) (h6 : hw'.code = hw.code) : hw'.Built := by
  have hc : hw'.codeAt = hw.codeAt := by funext b; simp [Hw.codeAt, h6]
  rcases h with ⟨t, f, v, r, c⟩ | ⟨f, v, r, c⟩
  · exact .inl ⟨t, f.congr h0 h3 h2 h1, h5.trans v, h4.trans r, by unfold Hw.Coded at *; rw [hc]; exact c⟩
  · exact .inr ⟨f.congr h0 h3 h2 h1, h5.trans v, h4.trans r, by unfold Hw.NoCodes at *; rw [hc]; exact c⟩

/-- A tree, root and code table at their reset values are unbuilt. -/
theorem reset_unbuilt {hw : Hw} (h1 : hw.nnodes = Hw.reset.nnodes) (h2 : hw.seq = Hw.reset.seq) (h3 : hw.node = Hw.reset.node)
    (h4 : hw.root = Hw.reset.root) (h5 : hw.rootValid = Hw.reset.rootValid) (h6 : hw.code = Hw.reset.code) : hw.Unbuilt :=
  Hw.Unbuilt.of_same (hw := Hw.reset) ⟨rfl, rfl, fun i => by simp, ⟨rfl, rfl⟩, fun b => by simp⟩ h1 h2 h3 h4 h5 h6

/-- In every phase the build stands at one of its three stages. -/
theorem Hw.BuildInv.anyStage {hw : Hw} (h : hw.BuildInv) : hw.Unbuilt ∨ hw.Growing ∨ hw.Built := by
  cases hp : hw.phase
  · exact .inl (h.before (by simp [hp]))
  · exact .inl (h.before (by simp [hp]))
  · exact .inl (h.before (by simp [hp]))
  · by_cases hb : hw.bsub = .sort
    · exact .inl (h.sorting hp hb)
    · exact .inr (.inl (h.growing hp hb))
  · exact .inr (.inr (h.built (by simp [hp])))
  · exact .inr (.inr (h.built (by simp [hp])))
  · exact .inr (.inr (h.built (by simp [hp])))
  · exact h.stopped hp

/-- Every count is at most the largest. -/
theorem le_maxOf_map {l : List Byte} (f : Byte → Nat) {b : Byte} (hb : b ∈ l) : f b ≤ maxOf (l.map f) := by
  induction l with
  | nil => cases hb
  | cons x xs ih =>
    rcases List.mem_cons.1 hb with rfl | hb
    · simp [maxOf]
    · have := ih hb; simp only [maxOf, List.map_cons, List.foldr_cons] at this ⊢; omega

end Sys2Proof.Machine
end

