-- ==== Sys2Proof/Laws/PerInstr.lean ====
section
/-! SUPPORT. Statements made for every instruction as syntax, one lemma a constructor. The family TableMatch: what presents a well-formed
instruction carries the fixed bits of that instruction's row of spec/opcode_table.json, where the row has a mask. -/

namespace Sys2Proof.Laws.TableMatch

open Sys2Proof

/-- The instruction's number at its port matches its row's mask and match. -/
def Statement (i : Instr) : Prop :=
  i.wellFormed = true → ∀ row, i.tableMask = some row → ∃ n, (encode i).number = some n ∧ matchesRow row n = true

/-- For a row whose bits are checked against a number. -/
theorem of_row {i : Instr} {row : Nat × Nat} {n : Nat} (hr : i.tableMask = some row) (hn : (encode i).number = some n)
    (hm : matchesRow row n = true) : Statement i :=
  fun _ _ h => ⟨n, hn, Option.some.inj (hr.symm.trans h) ▸ hm⟩

/-- For a row that has no mask. -/
theorem of_none {i : Instr} (h : i.tableMask = none) : Statement i := fun _ _ h' => by rw [h] at h'; cases h'

/-- The fixed KIND bits of a beat, whatever its DATA. -/
theorem kind_bits (d : Byte) :
    matchesRow (0x000, 0x300) (beatWord 0b00#2 d).toNat = true ∧ matchesRow (0x100, 0x300) (beatWord 0b01#2 d).toNat = true ∧
      matchesRow (0x200, 0x300) (beatWord 0b10#2 d).toNat = true ∧ matchesRow (0x300, 0x300) (beatWord 0b11#2 d).toNat = true := by
  revert d; decide +kernel

theorem nop : Statement .nop := of_row rfl rfl (by decide)
theorem clear : Statement .clear := of_row rfl rfl (by decide)
theorem count : Statement .count := of_row rfl rfl (by decide)
theorem build : Statement .build := of_row rfl rfl (by decide)
theorem encode : Statement .encode := of_row rfl rfl (by decide)
theorem cmdIllegalOp5 : Statement .cmdIllegalOp5 := of_row rfl rfl (by decide)
theorem cmdIllegalOp67 (x : BitVec 1) : Statement (.cmdIllegalOp67 x) := of_row rfl rfl (by revert x; decide)
theorem cmdIllegalOp8F (x : BitVec 3) : Statement (.cmdIllegalOp8F x) := of_row rfl rfl (by revert x; decide)
theorem cmdIllegalRsvd (rsvd : BitVec 28) (op : BitVec 4) : Statement (.cmdIllegalRsvd rsvd op) := of_none rfl
theorem inDataCount (b : Byte) : Statement (.inDataCount b) := of_row rfl rfl (kind_bits b).1
theorem inEndCount (d : Byte) : Statement (.inEndCount d) := of_row rfl rfl (kind_bits d).2.1
theorem inErrorCount (d : Byte) : Statement (.inErrorCount d) := of_row rfl rfl (kind_bits d).2.2.1
theorem inRsvdCount (d : Byte) : Statement (.inRsvdCount d) := of_row rfl rfl (kind_bits d).2.2.2
theorem inDataEncode (b : Byte) : Statement (.inDataEncode b) := of_row rfl rfl (kind_bits b).1
theorem inEndEncode (d : Byte) : Statement (.inEndEncode d) := of_row rfl rfl (kind_bits d).2.1
theorem inErrorEncode (d : Byte) : Statement (.inErrorEncode d) := of_row rfl rfl (kind_bits d).2.2.1
theorem inRsvdEncode (d : Byte) : Statement (.inRsvdEncode d) := of_row rfl rfl (kind_bits d).2.2.2
theorem inAnyOther (kind : BitVec 2) (d : Byte) : Statement (.inAnyOther kind d) := of_row rfl rfl (by simp [matchesRow])
theorem outData (b : Byte) : Statement (.outData b) := of_row rfl rfl (kind_bits b).1
theorem outEnd : Statement .outEnd := of_row rfl rfl (by decide)
theorem outAbort : Statement .outAbort := of_row rfl rfl (by decide)
theorem regRead (a : WordAddr) : Statement (.regRead a) := of_none rfl
theorem regWrite (a : WordAddr) (v : Word) : Statement (.regWrite a v) := of_none rfl
theorem snkTake : Statement .snkTake := of_none rfl
theorem snkFail : Statement .snkFail := of_none rfl
theorem sort : Statement .sort := of_none rfl
theorem merge : Statement .merge := of_none rfl
theorem codegen : Statement .codegen := of_none rfl
theorem reset : Statement .reset := of_none rfl

end Sys2Proof.Laws.TableMatch
end

