-- ==== Sys2Proof/Tests/Slice0.lean ====
section
/-! SUPPORT. The model's own tests: the well-formedness smoke test, words written out from the encoding tables, single steps checked
against the spec's vectors (95_test_vectors.md, cited as V-...) and rule examples, and a concrete state that meets the hypotheses of each
statement. The states are those of the run over "AABC" (vector V-T-1), of the empty input (V-T-7) and of "XXX" (V-T-6). -/

set_option Elab.async false

namespace Sys2Proof.Machine.Tests

open Sys2Proof Sys2Proof.Machine

/-! ## States -/

/-- A state with the default parameters and a quiet environment. -/
def st (hw : Hw) : State := { cfg := Config.default, hw := hw, env := Env.quiet }

/-- The same with turns and offered beats. -/
def st' (hw : Hw) (events : List Event) (src : List BeatWord) : State :=
  { st hw with env := { Env.quiet with events := events, src := src } }

/-- A leaf. -/
def lf (b : Byte) (f : Nat) : Node := { kind := .leaf, f := f, sym := b, left := 0, right := 0 }

/-- An internal node. -/
def int (f : Nat) (l r : NodeIx) : Node := { kind := .internal, f := f, sym := 0#8, left := l, right := r }

/-- V-T-1 in COUNTED: A 2, B 1, C 1. -/
def counted : Hw :=
  { Hw.reset with
    phase := .counted, total := 4, nsym := 3, maxf := 2
    hist := ((Hw.reset.hist.set 0x41 2).set 0x42 1).set 0x43 1 }

def sorting : Hw := { counted with phase := .build }

def merging : Hw :=
  { sorting with
    bsub := .merge, nnodes := 3, seq := [0, 1, 2]
    node := ((Hw.reset.node.set 0 (lf 0x42 1)).set 1 (lf 0x43 1)).set 2 (lf 0x41 2) }

def merging2 : Hw := { merging with nnodes := 4, seq := [3, 2], node := merging.node.set 3 (int 2 0 1) }

def coding : Hw := { merging2 with bsub := .codegen, nnodes := 5, seq := [4], node := merging2.node.set 4 (int 4 3 2) }

def ready : Hw :=
  { coding with
    phase := .ready, bsub := .sort, root := 4, rootValid := true
    code := ((Hw.reset.code.set 0x41 { len := 1, bits := [true] }).set 0x42 { len := 2, bits := [false, false] }).set 0x43
      { len := 2, bits := [false, true] } }

def encoding : Hw := { ready with phase := .encode }

/-- After pass 2 of 41 41 42 (V-E-3). -/
def encoding3 : Hw := { encoding with encIn := 3, encBits := 4, acc := 0x0C#8, nacc := 4 }

/-- After pass 2 of 41 41 42 43 (V-E-4). -/
def encoding4 : Hw := { encoding with encIn := 4, encBits := 6, acc := 0x31#8, nacc := 6 }

/-- V-E-7: the artifact not yet taken. -/
def finished : Hw :=
  { ready with
    phase := .done, encIn := 4, encOut := 1, encBits := 6, lastbits := 6, lbValid := true
    outq := [.data 0xC4#8, .endBeat] }

/-- V-E-17: NO_CODE. -/
def failed : Hw :=
  { encoding with
    phase := .error, errCode := .noCode, errPhase := .encode, outq := [.abort], encIn := 2, encBits := 2, acc := 0x03#8, nacc := 2 }

/-- Empty input. -/
def emptySorting : Hw := { Hw.reset with phase := .build }
def emptyCoding : Hw := { emptySorting with bsub := .codegen }
def emptyReady : Hw := { Hw.reset with phase := .ready }
def emptyEncoding : Hw := { Hw.reset with phase := .encode }

/-- "XXX": one distinct symbol. -/
def soleSorting : Hw :=
  { Hw.reset with phase := .build, total := 3, nsym := 1, maxf := 3, hist := Hw.reset.hist.set 0x58 3 }

def soleCoding : Hw := { soleSorting with bsub := .codegen, nnodes := 1, seq := [0], node := Hw.reset.node.set 0 (lf 0x58 3) }

def soleReady : Hw :=
  { soleCoding with
    phase := .ready, bsub := .sort, rootValid := true, code := Hw.reset.code.set 0x58 { len := 1, bits := [false] } }

/-! ## These states meet the invariant -/

/-- The tree of "AABC". -/
def treeBC : HTree := .branch 3 (.leaf 0 0x42#8) (.leaf 1 0x43#8)
def treeA : HTree := .leaf 2 0x41#8
def treeABC : HTree := .branch 4 treeBC treeA
def treeX : HTree := .leaf 0 0x58#8

theorem unbuilt_reset {hw : Hw} (h1 : hw.nnodes = 0) (h2 : hw.seq = []) (h3 : hw.node = Hw.reset.node) (h4 : hw.root = 0)
    (h5 : hw.rootValid = false) (h6 : hw.code = Hw.reset.code) : hw.Unbuilt := reset_unbuilt h1 h2 h3 h4 h5 h6

theorem buildInv_before {hw : Hw} (hp : hw.phase = .idle ∨ hw.phase = .count ∨ hw.phase = .counted) (hb : hw.bsub = .sort)
    (h : hw.Unbuilt) : hw.BuildInv := by
  rcases hp with hp | hp | hp <;> constructor <;> simp [hp, hb, h]

theorem buildInv_sorting {hw : Hw} (hp : hw.phase = .build) (hb : hw.bsub = .sort) (h : hw.Unbuilt) : hw.BuildInv := by
  constructor <;> simp [hp, hb, h]

theorem buildInv_growing {hw : Hw} (hp : hw.phase = .build) (hb : hw.bsub ≠ .sort) (h : hw.Growing)
    (hm : hw.bsub = .merge → 2 ≤ hw.seq.length) (hc : hw.bsub = .codegen → hw.seq.length ≤ 1) : hw.BuildInv :=
  ⟨by simp [hp], by simp [hp], by simp [hb], fun _ _ => h, fun _ => hm, fun _ => hc, by simp [hp], by simp [hp]⟩

theorem buildInv_built {hw : Hw} (hp : hw.phase = .ready ∨ hw.phase = .encode ∨ hw.phase = .done) (hb : hw.bsub = .sort)
    (h : hw.Built) : hw.BuildInv := by
  rcases hp with hp | hp | hp <;> constructor <;> simp [hp, hb, h]

theorem buildInv_error {hw : Hw} (hp : hw.phase = .error) (hb : hw.bsub = .sort) (h : hw.Built) : hw.BuildInv := by
  constructor <;> simp [hp, hb, h]

theorem histAt_counted : counted.histAt = fun b => if b = 0x41#8 then 2 else if b = 0x42#8 ∨ b = 0x43#8 then 1 else 0 := by
  funext b
  have h1 : (0x41 = b.toNat) = (b = 0x41#8) := propext ⟨fun h => BitVec.eq_of_toNat_eq h.symm, fun h => h ▸ rfl⟩
  have h2 : (0x42 = b.toNat) = (b = 0x42#8) := propext ⟨fun h => BitVec.eq_of_toNat_eq h.symm, fun h => h ▸ rfl⟩
  have h3 : (0x43 = b.toNat) = (b = 0x43#8) := propext ⟨fun h => BitVec.eq_of_toNat_eq h.symm, fun h => h ▸ rfl⟩
  simp only [Hw.histAt, counted, Vector.getElem_set, h1, h2, h3, Hw.reset, Vector.getElem_replicate]
  by_cases e1 : b = 0x41#8
  · subst e1; rfl
  · by_cases e2 : b = 0x42#8
    · subst e2; rfl
    · by_cases e3 : b = 0x43#8 <;> simp [e1, e2, e3]

theorem present_counted : counted.present = [0x41#8, 0x42#8, 0x43#8] := by
  simp only [Hw.present, histAt_counted]; decide +kernel

/-- A slot that the builder has not written is as reset left it. -/
theorem nodeAt_set_ne {hw : Hw} {v : Vector Node 511} {k : Nat} {hk : k < 511} {n : Node} (h : hw.node = v.set k n hk) {i : NodeIx}
    (hi : i.val ≠ k) : hw.nodeAt i = v[i.val] := by
  simp [Hw.nodeAt, h, Vector.getElem_set_ne _ _ (Ne.symm hi)]

theorem forest_merging : merging.Forest [.leaf 0 0x42#8, .leaf 1 0x43#8, treeA] := by
  constructor
  · rfl
  · intro t ht; simp at ht; rcases ht with rfl | rfl | rfl <;> simp only [HTree.Stored, treeA] <;> decide +kernel
  · decide +kernel
  · show List.Perm _ counted.present; rw [present_counted]; decide
  · decide +kernel
  · intro i hi
    have hi : 3 ≤ i.val := hi
    simp only [Hw.nodeAt, merging, Vector.getElem_set]
    simp [Hw.reset, show ¬ 2 = i.val by omega, show ¬ 1 = i.val by omega, show ¬ 0 = i.val by omega]

theorem forest_merging2 : merging2.Forest [treeBC, treeA] := by
  constructor
  · rfl
  · intro t ht; simp at ht; rcases ht with rfl | rfl <;> simp only [HTree.Stored, treeA, treeBC] <;> decide +kernel
  · decide +kernel
  · show List.Perm _ counted.present; rw [present_counted]; decide
  · decide +kernel
  · intro i hi
    have hi : 4 ≤ i.val := hi
    exact (nodeAt_set_ne (hk := by decide) rfl (show i.val ≠ 3 by omega)).trans (forest_merging.unallocated i (show 3 ≤ i.val by omega))

theorem forest_coding : coding.Forest [treeABC] := by
  constructor
  · rfl
  · intro t ht; simp at ht; subst ht; simp only [HTree.Stored, treeA, treeBC, treeABC]; decide +kernel
  · decide +kernel
  · show List.Perm _ counted.present; rw [present_counted]; decide
  · decide +kernel
  · intro i hi
    have hi : 5 ≤ i.val := hi
    exact (nodeAt_set_ne (hk := by decide) rfl (show i.val ≠ 4 by omega)).trans (forest_merging2.unallocated i (show 4 ≤ i.val by omega))

theorem coded_ready : ready.Coded treeABC := by
  refine ⟨by decide +kernel, fun b hb => ?_⟩
  have hb : b ≠ 0x42#8 ∧ b ≠ 0x43#8 ∧ b ≠ 0x41#8 := by simpa [treeABC, treeBC, treeA, HTree.syms] using hb
  have ne : ∀ {c : Byte}, b ≠ c → c.toNat ≠ b.toNat := fun h e => h (BitVec.eq_of_toNat_eq e.symm)
  simp only [Hw.codeAt, ready, Vector.getElem_set]
  simp [show ¬ 0x41 = b.toNat from ne hb.2.2, show ¬ 0x42 = b.toNat from ne hb.1, show ¬ 0x43 = b.toNat from ne hb.2.1, Hw.reset]

theorem built_ready : ready.Built := .inl ⟨treeABC, forest_coding.congr rfl rfl rfl rfl, rfl, rfl, coded_ready⟩

theorem forest_empty {hw : Hw} (h : hw.Unbuilt) (hh : hw.hist = Hw.reset.hist) : hw.Forest [] := by
  have : hw.present = [] := by
    have e : hw.histAt = Hw.reset.histAt := histAt_congr hh
    simp [Hw.present, e]
  exact ⟨h.seq, by simp, by simp [h.nnodes], by simp [this], by simp, fun i _ => h.nodes i⟩

theorem histAt_sole : soleSorting.histAt = fun b => if b = 0x58#8 then 3 else 0 := by
  funext b
  have h1 : (0x58 = b.toNat) = (b = 0x58#8) := propext ⟨fun h => BitVec.eq_of_toNat_eq h.symm, fun h => h ▸ rfl⟩
  simp only [Hw.histAt, soleSorting, Vector.getElem_set, h1, Hw.reset, Vector.getElem_replicate]

theorem present_sole : soleSorting.present = [0x58#8] := by
  simp only [Hw.present, histAt_sole]; decide +kernel

theorem forest_sole : soleCoding.Forest [treeX] := by
  constructor
  · rfl
  · intro t ht; simp at ht; subst ht; simp only [HTree.Stored, treeX]; decide +kernel
  · decide +kernel
  · show List.Perm _ soleSorting.present; rw [present_sole]; decide
  · decide +kernel
  · intro i hi
    have hi : 1 ≤ i.val := hi
    exact (nodeAt_set_ne (v := Hw.reset.node) (hk := by decide) rfl (show i.val ≠ 0 by omega)).trans (by simp [Hw.reset])

theorem coded_sole : soleReady.Coded treeX := by
  refine ⟨by decide +kernel, fun b hb => ?_⟩
  have hb : b ≠ 0x58#8 := by simpa [treeX, HTree.syms] using hb
  have ne : 0x58 ≠ b.toNat := fun e => hb (BitVec.eq_of_toNat_eq e.symm)
  simp only [Hw.codeAt, soleReady, Vector.getElem_set]
  simp [ne, Hw.reset]

theorem built_sole : soleReady.Built := .inl ⟨treeX, forest_sole.congr rfl rfl rfl rfl, rfl, rfl, coded_sole⟩

theorem noCodes {hw : Hw} (h : hw.code = Hw.reset.code) : hw.NoCodes := fun b => by simp [Hw.codeAt, h, Hw.reset]

/-- The parts of the invariant that are plain numbers, under the default parameters. -/
structure Plain (hw : Hw) : Prop where
  count : hw.CountInv Config.default
  encode : hw.EncodeInv
  queue : hw.QueueInv Config.default
  error : hw.ErrorInv

theorem Plain.inv {hw : Hw} (h : Plain hw) (b : hw.BuildInv) (env : Env) : ({ cfg := Config.default, hw := hw, env := env } : State).Inv :=
  ⟨(by decide : Config.default.Legal), h.count, b, h.encode, h.queue, h.error⟩

theorem count_counted : counted.CountInv Config.default :=
  ⟨by rw [histAt_counted]; decide +kernel, by rw [present_counted]; rfl, by rw [histAt_counted]; decide +kernel, by decide, by decide⟩

theorem count_sole : soleSorting.CountInv Config.default :=
  ⟨by rw [histAt_sole]; decide +kernel, by rw [present_sole]; rfl, by rw [histAt_sole]; decide +kernel, by decide, by decide⟩

theorem count_reset : Hw.reset.CountInv Config.default := Hw.reset_countInv _ _ rfl rfl rfl rfl

theorem inv_idle (env : Env) : ({ cfg := Config.default, hw := Hw.reset, env := env } : State).Inv :=
  Plain.inv (hw := Hw.reset)
    ⟨count_reset.of_same rfl rfl rfl rfl id, by constructor <;> decide, by constructor <;> decide, by constructor <;> decide⟩
    (buildInv_before (by decide) rfl (unbuilt_reset rfl rfl rfl rfl rfl rfl)) env

theorem inv_counted (env : Env) : ({ cfg := Config.default, hw := counted, env := env } : State).Inv :=
  Plain.inv (hw := counted)
    ⟨count_counted.of_same rfl rfl rfl rfl (fun h => nomatch h), by constructor <;> decide, by constructor <;> decide,
      by constructor <;> decide⟩
    (buildInv_before (by decide) rfl (unbuilt_reset rfl rfl rfl rfl rfl rfl)) env

theorem inv_counting (env : Env) : ({ cfg := Config.default, hw := { counted with phase := .count }, env := env } : State).Inv :=
  Plain.inv (hw := { counted with phase := .count })
    ⟨count_counted.of_same rfl rfl rfl rfl (fun h => nomatch h), by constructor <;> decide, by constructor <;> decide,
      by constructor <;> decide⟩
    (buildInv_before (by decide) rfl (unbuilt_reset rfl rfl rfl rfl rfl rfl)) env

theorem inv_sorting (env : Env) : ({ cfg := Config.default, hw := sorting, env := env } : State).Inv :=
  Plain.inv (hw := sorting)
    ⟨count_counted.of_same rfl rfl rfl rfl (fun h => nomatch h), by constructor <;> decide, by constructor <;> decide,
      by constructor <;> decide⟩
    (buildInv_sorting rfl rfl (unbuilt_reset rfl rfl rfl rfl rfl rfl)) env

theorem inv_merging (env : Env) : ({ cfg := Config.default, hw := merging, env := env } : State).Inv :=
  Plain.inv (hw := merging)
    ⟨count_counted.of_same rfl rfl rfl rfl (fun h => nomatch h), by constructor <;> decide, by constructor <;> decide,
      by constructor <;> decide⟩
    (buildInv_growing rfl (by decide) ⟨⟨_, forest_merging⟩, ⟨rfl, rfl⟩, noCodes rfl⟩ (by decide) (by decide)) env

theorem inv_merging2 (env : Env) : ({ cfg := Config.default, hw := merging2, env := env } : State).Inv :=
  Plain.inv (hw := merging2)
    ⟨count_counted.of_same rfl rfl rfl rfl (fun h => nomatch h), by constructor <;> decide, by constructor <;> decide,
      by constructor <;> decide⟩
    (buildInv_growing rfl (by decide) ⟨⟨_, forest_merging2⟩, ⟨rfl, rfl⟩, noCodes rfl⟩ (by decide) (by decide)) env

theorem inv_coding (env : Env) : ({ cfg := Config.default, hw := coding, env := env } : State).Inv :=
  Plain.inv (hw := coding)
    ⟨count_counted.of_same rfl rfl rfl rfl (fun h => nomatch h), by constructor <;> decide, by constructor <;> decide,
      by constructor <;> decide⟩
    (buildInv_growing rfl (by decide) ⟨⟨_, forest_coding⟩, ⟨rfl, rfl⟩, noCodes rfl⟩ (by decide) (by decide)) env

theorem inv_ready (env : Env) : ({ cfg := Config.default, hw := ready, env := env } : State).Inv :=
  Plain.inv (hw := ready)
    ⟨count_counted.of_same rfl rfl rfl rfl (fun h => nomatch h), by constructor <;> decide, by constructor <;> decide,
      by constructor <;> decide⟩
    (buildInv_built (by decide) rfl built_ready) env

theorem inv_encoding (env : Env) : ({ cfg := Config.default, hw := encoding, env := env } : State).Inv :=
  Plain.inv (hw := encoding)
    ⟨count_counted.of_same rfl rfl rfl rfl (fun h => nomatch h), by constructor <;> decide, by constructor <;> decide,
      by constructor <;> decide⟩
    (buildInv_built (by decide) rfl (built_ready.of_same rfl rfl rfl rfl rfl rfl rfl)) env

theorem inv_encoding3 (env : Env) : ({ cfg := Config.default, hw := encoding3, env := env } : State).Inv :=
  Plain.inv (hw := encoding3)
    ⟨count_counted.of_same rfl rfl rfl rfl (fun h => nomatch h), by constructor <;> decide, by constructor <;> decide,
      by constructor <;> decide⟩
    (buildInv_built (by decide) rfl (built_ready.of_same rfl rfl rfl rfl rfl rfl rfl)) env

theorem inv_encoding4 (env : Env) : ({ cfg := Config.default, hw := encoding4, env := env } : State).Inv :=
  Plain.inv (hw := encoding4)
    ⟨count_counted.of_same rfl rfl rfl rfl (fun h => nomatch h), by constructor <;> decide, by constructor <;> decide,
      by constructor <;> decide⟩
    (buildInv_built (by decide) rfl (built_ready.of_same rfl rfl rfl rfl rfl rfl rfl)) env

theorem inv_finished (env : Env) : ({ cfg := Config.default, hw := finished, env := env } : State).Inv :=
  Plain.inv (hw := finished)
    ⟨count_counted.of_same rfl rfl rfl rfl (fun h => nomatch h), by constructor <;> decide, by constructor <;> decide,
      by constructor <;> decide⟩
    (buildInv_built (by decide) rfl (built_ready.of_same rfl rfl rfl rfl rfl rfl rfl)) env

theorem inv_failed (env : Env) : ({ cfg := Config.default, hw := failed, env := env } : State).Inv :=
  Plain.inv (hw := failed)
    ⟨count_counted.of_same rfl rfl rfl rfl (fun h => nomatch h), by constructor <;> decide, by constructor <;> decide,
      by constructor <;> decide⟩
    (buildInv_error rfl rfl (built_ready.of_same rfl rfl rfl rfl rfl rfl rfl)) env

theorem inv_emptySorting (env : Env) : ({ cfg := Config.default, hw := emptySorting, env := env } : State).Inv :=
  Plain.inv (hw := emptySorting)
    ⟨count_reset.of_same rfl rfl rfl rfl (fun h => nomatch h), by constructor <;> decide, by constructor <;> decide,
      by constructor <;> decide⟩
    (buildInv_sorting rfl rfl (unbuilt_reset rfl rfl rfl rfl rfl rfl)) env

theorem inv_emptyCoding (env : Env) : ({ cfg := Config.default, hw := emptyCoding, env := env } : State).Inv :=
  Plain.inv (hw := emptyCoding)
    ⟨count_reset.of_same rfl rfl rfl rfl (fun h => nomatch h), by constructor <;> decide, by constructor <;> decide,
      by constructor <;> decide⟩
    (buildInv_growing rfl (by decide) ⟨⟨_, forest_empty (unbuilt_reset rfl rfl rfl rfl rfl rfl) rfl⟩, ⟨rfl, rfl⟩, noCodes rfl⟩
      (by decide) (by decide)) env

theorem built_empty {hw : Hw} (h : hw.Unbuilt) (hh : hw.hist = Hw.reset.hist) : hw.Built :=
  .inr ⟨forest_empty h hh, h.root.2, h.root.1, h.codes⟩

theorem inv_emptyReady (env : Env) : ({ cfg := Config.default, hw := emptyReady, env := env } : State).Inv :=
  Plain.inv (hw := emptyReady)
    ⟨count_reset.of_same rfl rfl rfl rfl (fun h => nomatch h), by constructor <;> decide, by constructor <;> decide,
      by constructor <;> decide⟩
    (buildInv_built (by decide) rfl (built_empty (unbuilt_reset rfl rfl rfl rfl rfl rfl) rfl)) env

theorem inv_emptyEncoding (env : Env) : ({ cfg := Config.default, hw := emptyEncoding, env := env } : State).Inv :=
  Plain.inv (hw := emptyEncoding)
    ⟨count_reset.of_same rfl rfl rfl rfl (fun h => nomatch h), by constructor <;> decide, by constructor <;> decide,
      by constructor <;> decide⟩
    (buildInv_built (by decide) rfl (built_empty (unbuilt_reset rfl rfl rfl rfl rfl rfl) rfl)) env

theorem inv_soleSorting (env : Env) : ({ cfg := Config.default, hw := soleSorting, env := env } : State).Inv :=
  Plain.inv (hw := soleSorting)
    ⟨count_sole.of_same rfl rfl rfl rfl (fun h => nomatch h), by constructor <;> decide, by constructor <;> decide,
      by constructor <;> decide⟩
    (buildInv_sorting rfl rfl (unbuilt_reset rfl rfl rfl rfl rfl rfl)) env

theorem inv_soleCoding (env : Env) : ({ cfg := Config.default, hw := soleCoding, env := env } : State).Inv :=
  Plain.inv (hw := soleCoding)
    ⟨count_sole.of_same rfl rfl rfl rfl (fun h => nomatch h), by constructor <;> decide, by constructor <;> decide,
      by constructor <;> decide⟩
    (buildInv_growing rfl (by decide) ⟨⟨_, forest_sole⟩, ⟨rfl, rfl⟩, noCodes rfl⟩ (by decide) (by decide)) env

theorem inv_soleReady (env : Env) : ({ cfg := Config.default, hw := soleReady, env := env } : State).Inv :=
  Plain.inv (hw := soleReady)
    ⟨count_sole.of_same rfl rfl rfl rfl (fun h => nomatch h), by constructor <;> decide, by constructor <;> decide,
      by constructor <;> decide⟩
    (buildInv_built (by decide) rfl built_sole) env

/-! ## Well-formedness -/

theorem test_wf_refuses_an_illegal_word_with_rsvd_zero : (Instr.cmdIllegalRsvd 0#28 1#4).wellFormed = false := by decide
theorem test_wf_accepts_an_illegal_word : (Instr.cmdIllegalRsvd 1#28 1#4).wellFormed = true := by decide
theorem test_wf_refuses_a_write_at_cmd : (Instr.regWrite (addrOf 0x0004) 2#32).wellFormed = false := by decide
theorem test_wf_accepts_a_write_elsewhere : (Instr.regWrite (addrOf 0x0010) 5#32).wellFormed = true := by decide
theorem test_row_of_pass_one_not_in_pass_two : (Instr.inDataCount 0x41#8).selectedIn .encode .sort = false := by decide
theorem test_merge_not_while_sort_pending : Instr.merge.selectedIn .build .sort = false := by decide

/-! ## Words written out from the encoding tables (30_encoding.md R90 to R94) -/

theorem test_word_nop : decodeCommand 0b0000_0000_0000_0000_0000_0000_0000_0000#32 = .nop := by decide
theorem test_word_clear : decodeCommand 0b0000_0000_0000_0000_0000_0000_0000_0001#32 = .clear := by decide
theorem test_word_count : decodeCommand 0b0000_0000_0000_0000_0000_0000_0000_0010#32 = .count := by decide
theorem test_word_build : decodeCommand 0b0000_0000_0000_0000_0000_0000_0000_0011#32 = .build := by decide
theorem test_word_encode : decodeCommand 0b0000_0000_0000_0000_0000_0000_0000_0100#32 = .encode := by decide
theorem test_word_op5 : decodeCommand 0b0000_0000_0000_0000_0000_0000_0000_0101#32 = .cmdIllegalOp5 := by decide
theorem test_word_op7 : decodeCommand 0b0000_0000_0000_0000_0000_0000_0000_0111#32 = .cmdIllegalOp67 1#1 := by decide
theorem test_word_opF : decodeCommand 0b0000_0000_0000_0000_0000_0000_0000_1111#32 = .cmdIllegalOp8F 0b111#3 := by decide
/-- V-C-9: 0x00000011 is not CLEAR. -/
theorem test_word_rsvd_low : decodeCommand 0b0000_0000_0000_0000_0000_0000_0001_0001#32 = .cmdIllegalRsvd 1#28 1#4 := by decide
/-- V-C-11. -/
theorem test_word_rsvd_high :
    decodeCommand 0b1000_0000_0000_0000_0000_0000_0000_0010#32 = .cmdIllegalRsvd 0x8000000#28 2#4 := by decide

theorem test_beats_of_pass_one :
    [0b00_0100_0001#10, 0b01_0000_0000#10, 0b10_0000_0000#10, 0b11_0000_0101#10].map (decodeInBeat .count) =
      [.inDataCount 0x41#8, .inEndCount 0x00#8, .inErrorCount 0x00#8, .inRsvdCount 0x05#8] := by decide
theorem test_beats_of_pass_two :
    [0b00_0100_0001#10, 0b01_0000_0000#10, 0b10_0000_0000#10, 0b11_0000_0101#10].map (decodeInBeat .encode) =
      [.inDataEncode 0x41#8, .inEndEncode 0x00#8, .inErrorEncode 0x00#8, .inRsvdEncode 0x05#8] := by decide
theorem test_beat_elsewhere : decodeInBeat .ready 0b11_0000_0101#10 = .inAnyOther 3#2 0x05#8 := by decide

theorem test_beats_out :
    decodeOutBeat 0b00_1100_0100#10 = .ok (.outData 0xC4#8) ∧ decodeOutBeat 0b01_0000_0000#10 = .ok .outEnd ∧
      decodeOutBeat 0b10_0000_0000#10 = .ok .outAbort ∧ decodeOutBeat 0b11_0000_0000#10 = .error (.outKindReserved 0x300#10) ∧
      decodeOutBeat 0b01_0000_0001#10 = .error (.outDataNotZero 0x101#10) := by decide

theorem test_port_words :
    decode .idle .sort (.hostRead 0b0_0000_0000_0010#13) = .ok (.regRead (addrOf 0x0008)) ∧
      decode .idle .sort (.hostWrite 0b0_0000_0000_0100#13 5#32) = .ok (.regWrite (addrOf 0x0010) 5#32) ∧
      decode .idle .sort (.hostWrite 0b0_0000_0000_0001#13 5#32) = .ok .cmdIllegalOp5 ∧
      decode .idle .sort .sinkTake = .ok .snkTake ∧ decode .idle .sort .sinkFail = .ok .snkFail ∧
      decode .idle .sort .reset = .ok .reset := by decide

theorem test_core_rows :
    decode .build .sort .core = .ok .sort ∧ decode .build .merge .core = .ok .merge ∧ decode .build .codegen .core = .ok .codegen ∧
      decode .ready .sort .core = .error .noCoreStep := by decide

theorem test_host_question :
    decodeTableWord 32 0x00000003 = some .build ∧ decodeTableWord 16 0x0041 = some (.inDataCount 0x41#8) ∧
      decodeTableWord 10 0x300 = some (.inRsvdCount 0x00#8) := by decide

/-! ## Single steps -/

/-- HUFENC's own state after a step. -/
def hwOf : Result → Option Hw
  | .next t => some t.hw
  | .fault _ | .refused _ => none

/-- Whether a step answers a next state. -/
def isNext : Result → Bool
  | .next _ => true
  | .fault _ | .refused _ => false

/-- The registers of the sequencer, the counters and the tree builder. -/
def front (hw : Hw) : Phase × BSub × Nat × Nat × Nat × Nat × List NodeIx :=
  (hw.phase, hw.bsub, hw.total, hw.nsym, hw.maxf, hw.nnodes, hw.seq)

/-- The registers of the encoder, the output queue and the error. -/
def back (hw : Hw) : Byte × Fin 8 × Nat × Nat × Nat × Fin 8 × Bool × List OutBeat × ErrCode × Phase :=
  (hw.acc, hw.nacc, hw.encIn, hw.encOut, hw.encBits, hw.lastbits, hw.lbValid, hw.outq, hw.errCode, hw.errPhase)

/-- A step that leaves these and what the source offers as they are. -/
def unchanged (s : State) : Result → Bool
  | .next t => front t.hw == front s.hw && back t.hw == back s.hw && t.env.src == s.env.src
  | .fault _ | .refused _ => false

/-- Whether a step's result agrees with `hw` in the registers, the first five nodes, ROOT and the codes of `bs`. -/
def gives (hw : Hw) (bs : List Byte) (r : Result) : Bool :=
  match r with
  | .next t => front t.hw == front hw && back t.hw == back hw && t.hw.root == hw.root && t.hw.rootValid == hw.rootValid &&
      ([0, 1, 2, 3, 4].all fun i => t.hw.nodeAt i == hw.nodeAt i) && bs.all fun b => t.hw.codeAt b == hw.codeAt b
  | .fault _ | .refused _ => false

/-- STATUS and ERR after a step. -/
def statusErr (r : Result) : Option (Nat × Nat) := (hwOf r).map fun hw => (hw.statusWord.toNat, hw.errWord.toNat)

/-- What a register read returns. -/
def readAt (hw : Hw) (off : Nat) : Option Nat :=
  match exec (.regRead (addrOf off)) (st hw) with
  | .next t => t.env.readLog.head?.map BitVec.toNat
  | .fault _ | .refused _ => none

/-- V-C-1. -/
theorem test_nop : unchanged (st Hw.reset) (exec .nop (st Hw.reset)) = true := by decide +kernel
/-- V-C-2. -/
theorem test_count : statusErr (exec .count (st Hw.reset)) = some (0x49, 0) := by decide +kernel
/-- V-C-4. -/
theorem test_count_again : statusErr (exec .count (st { Hw.reset with phase := .count })) = some (0xC7, 0x17) := by decide +kernel
/-- V-C-7. -/
theorem test_build : statusErr (exec .build (st counted)) = some (0x4B, 0) := by decide +kernel
/-- V-C-5. -/
theorem test_build_in_idle : statusErr (exec .build (st Hw.reset)) = some (0xC7, 0x07) := by decide +kernel
/-- V-C-8. -/
theorem test_encode : statusErr (exec .encode (st ready)) = some (0x4D, 0) := by decide +kernel
/-- V-C-14: ENCODE while the artifact is not yet taken. -/
theorem test_encode_untaken : statusErr (exec .encode (st finished)) = some (0x187, 0x67) := by decide +kernel
/-- V-C-16. -/
theorem test_clear_in_encode : statusErr (exec .clear (st encoding3)) = some (0x100, 0) := by decide +kernel
/-- V-C-17. -/
theorem test_clear_done : statusErr (exec .clear (st { finished with outq := [] })) = some (0x40, 0) := by decide +kernel
/-- V-C-10. -/
theorem test_illegal_op5 : statusErr (exec .cmdIllegalOp5 (st Hw.reset)) = some (0xC7, 0x06) := by decide +kernel
/-- R127: an illegal word in COUNT. -/
theorem test_illegal_op6 : statusErr (exec (.cmdIllegalOp67 0#1) (st { Hw.reset with phase := .count })) = some (0xC7, 0x16) := by
  decide +kernel
/-- V-C-12. -/
theorem test_illegal_opF : statusErr (exec (.cmdIllegalOp8F 7#3) (st Hw.reset)) = some (0xC7, 0x06) := by decide +kernel
/-- V-C-9. -/
theorem test_illegal_rsvd : statusErr (exec (.cmdIllegalRsvd 1#28 1#4) (st ready)) = some (0xC7, 0x46) := by decide +kernel
/-- V-C-21: ignored in ERROR. -/
theorem test_illegal_ignored : unchanged (st failed) (exec (.cmdIllegalRsvd 1#28 1#4) (st failed)) = true := by decide +kernel
/-- V-C-6, through the register port. -/
theorem test_write_cmd : statusErr (exec (.regWrite (addrOf 0x0004) 4#32) (st Hw.reset)) = some (0xC7, 0x07) := by decide +kernel
/-- V-RP-6. -/
theorem test_write_total : unchanged (st counted) (exec (.regWrite (addrOf 0x0010) 5#32) (st counted)) = true := by decide +kernel

/-- V-F-1, the third beat. -/
theorem test_in_data_count :
    (hwOf (exec (.inDataCount 0x42#8) (st { Hw.reset with
      phase := .count, hist := Hw.reset.hist.set 0x41 2, total := 2, nsym := 1, maxf := 2 }))).map
      (fun hw => (hw.histAt 0x41#8, hw.histAt 0x42#8, hw.total, hw.nsym, hw.maxf)) = some (2, 1, 3, 2, 2) := by decide +kernel

/-- Three counts under CNT_W = 2 (V-F-7). -/
def full : State :=
  { cfg := { cntW := 2, depth := 40 }, env := Env.quiet
    hw := { Hw.reset with phase := .count, hist := Hw.reset.hist.set 0x41 3, total := 3, nsym := 1, maxf := 3 } }

/-- V-F-7. -/
theorem test_count_overflow :
    statusErr (exec (.inDataCount 0x42#8) full) = some (0xC7, 0x13) ∧
      (hwOf (exec (.inDataCount 0x42#8) full)).map (fun hw => (hw.total, hw.histAt 0x42#8)) = some (3, 0) := by decide +kernel
/-- V-F-2. -/
theorem test_in_end_count : statusErr (exec (.inEndCount 0#8) (st { Hw.reset with phase := .count })) = some (0x42, 0) := by
  decide +kernel
/-- V-F-5. -/
theorem test_in_error_count : statusErr (exec (.inErrorCount 0#8) (st { Hw.reset with phase := .count })) = some (0xC7, 0x11) := by
  decide +kernel
/-- V-F-6. -/
theorem test_in_rsvd_count : statusErr (exec (.inRsvdCount 0#8) (st { Hw.reset with phase := .count })) = some (0xC7, 0x11) := by
  decide +kernel
/-- V-F-11: the beat stays offered. -/
theorem test_in_any_other :
    unchanged (st' Hw.reset [] [0x041#10]) (exec (.inAnyOther 0#2 0x41#8) (st' Hw.reset [] [0x041#10])) = true := by decide +kernel

/-- V-S-1. -/
theorem test_sort : gives merging [0x41#8, 0x43#8] (exec .sort (st sorting)) = true := by decide +kernel
/-- V-S-2. -/
theorem test_sort_empty : gives emptyCoding [0x41#8, 0x43#8] (exec .sort (st emptySorting)) = true := by decide +kernel
/-- V-M-1: the new node ties with A and goes before it (90_conflicts.md C1). -/
theorem test_merge_tie : gives merging2 [0x41#8, 0x43#8] (exec .merge (st merging)) = true := by decide +kernel
/-- V-M-2. -/
theorem test_merge_last : gives coding [0x41#8, 0x43#8] (exec .merge (st merging2)) = true := by decide +kernel
/-- V-CG-1. -/
theorem test_codegen : gives ready [0x41#8, 0x43#8] (exec .codegen (st coding)) = true := by decide +kernel
/-- V-CG-3. -/
theorem test_codegen_sole : gives soleReady [0x41#8, 0x58#8] (exec .codegen (st soleCoding)) = true := by decide +kernel

/-- V-E-4. -/
theorem test_in_data_encode :
    gives encoding4 [0x41#8, 0x43#8] (exec (.inDataEncode 0x43#8) (st encoding3)) = true := by decide +kernel
/-- V-E-19: LEN_MISMATCH is checked before NO_CODE. -/
theorem test_in_data_too_many : statusErr (exec (.inDataEncode 0x44#8) (st encoding4)) = some (0x187, 0x55) := by decide +kernel
/-- V-E-7. -/
theorem test_in_end_encode :
    gives finished [0x41#8, 0x43#8] (exec (.inEndEncode 0#8) (st encoding4)) = true := by decide +kernel
/-- V-E-20. -/
theorem test_in_end_too_early :
    (hwOf (exec (.inEndEncode 0#8) (st encoding3))).map (fun hw => (hw.errWord.toNat, hw.encIn, hw.nacc.val, hw.acc.toNat)) =
      some (0x55, 3, 4, 0x0C) := by decide +kernel
/-- R228: the rule's own example. -/
theorem test_in_error_encode :
    (hwOf (exec (.inErrorEncode 0#8) (st { encoding with outq := [.data 0x12#8] }))).map (fun hw => (hw.outq, hw.errWord.toNat)) =
      some ([.abort], 0x51) := by decide +kernel
/-- V-E-16, with the reserved kind. -/
theorem test_in_rsvd_encode :
    statusErr (exec (.inRsvdEncode 0#8) (st { encoding with outq := List.replicate 32 (.data 0#8) })) = some (0x187, 0x51) := by
  decide +kernel

/-- V-K-1, the first take. -/
theorem test_snk_take :
    (match exec .snkTake (st finished) with
      | .next t => some (t.hw.outq, t.env.taken)
      | .fault _ | .refused _ => none) = some ([.endBeat], [.data 0xC4#8]) := by decide +kernel
/-- V-K-6. -/
theorem test_snk_take_empty : unchanged (st ready) (exec .snkTake (st ready)) = true := by decide +kernel
theorem test_out_data :
    gives { finished with outq := [.endBeat] } [0x41#8, 0x43#8] (exec (.outData 0xC4#8) (st finished)) = true := by decide +kernel
theorem test_out_end :
    gives { finished with outq := [] } [] (exec .outEnd (st { finished with outq := [.endBeat] })) = true := by decide +kernel
theorem test_out_abort :
    gives { failed with outq := [] } [0x41#8, 0x43#8] (exec .outAbort (st failed)) = true := by decide +kernel
/-- V-K-2. -/
theorem test_snk_fail : statusErr (exec .snkFail (st encoding)) = some (0x187, 0x52) := by decide +kernel
/-- V-K-4. -/
theorem test_snk_fail_ignored : statusErr (exec .snkFail (st { finished with outq := [] })) = some (0x46, 0) := by decide +kernel
/-- V-R-2. -/
theorem test_reset :
    gives Hw.reset [0x41#8] (exec .reset (st { encoding with outq := [.data 0x79#8] })) = true := by decide +kernel

/-- V-RP-1 to V-RP-3, and the node and code windows of "AABC" (V-W-1, V-W-3, R106). -/
theorem test_reads :
    [0x0000, 0x0008, 0x0040].map (readAt Hw.reset) = [some 0x48554631, some 0x40, some 0x2020] ∧
      [0x001C, 0x1018, 0x101C, 0x1024, 0x1028, 0x3040, 0x3044, 0x30C0, 0x30C4, 0x0504].map (readAt ready) =
        [some 0x80000004, some 2, some 0x80010000, some 0x80020003, some 0, some 1, some 0x80000000, some 2, some 0x40000000,
          some 2] := by decide +kernel
/-- V-RP-8: a fresh draw. -/
theorem test_read_in_build :
    (match exec (.regRead (addrOf 0x1000)) (st sorting) with
      | .next t => some (t.env.readLog.length, t.env.draws)
      | .fault _ | .refused _ => none) = some (1, 1) := by decide +kernel

/-- The turns reach the decoder: a host write of COUNT, and an offered beat in pass 1. -/
theorem test_step_command :
    statusErr (step (st' Hw.reset [.hostWrite (addrOf 0x0004) 2#32] [])) = some (0x49, 0) := by decide +kernel
theorem test_step_placed : statusErr (step (State.reset.withFetchWord 16 0x200)) = some (0xC7, 0x11) := by decide +kernel

/-! ## Every statement's hypotheses can be met

One theorem for each statement that has hypotheses: a concrete state and operands that meet all of them together, one for each clause. -/

theorem test_meets_ResetReadsBackItsValues : (st counted).cfg.Legal := by decide
theorem test_meets_IllegalCommandsRaise :
    Instr.cmdIllegalRsvd 1#28 2#4 ∈ [Instr.cmdIllegalOp5, .cmdIllegalOp67 0#1, .cmdIllegalOp8F 0#3, .cmdIllegalRsvd 1#28 2#4] := by decide
theorem test_meets_RegisterWriteEffects : 0x0000 % 4 = 0 ∧ 0x0000 ≤ 0x7FFC ∧ 0x0000 ≠ 0x0004 ∧ 0x7FFC % 4 = 0 := by decide
theorem test_meets_ErrorsArePrecise :
    encoding.phase ≠ .error ∧ (hwOf (exec .snkFail (st encoding))).map Hw.phase = some .error := by decide +kernel
theorem test_meets_OnlyClearAndResetLeaveError :
    failed.phase = .error ∧
      ∀ i ∈ [Instr.clear, .reset, .regWrite (addrOf 0x0004) 1#32, .snkTake, .count], isNext (exec i (st failed)) = true := by decide +kernel
theorem test_meets_CountBeatUpdatesTheCounters :
    (st { counted with phase := .count }).hw.phase = .count ∧ (st { counted with phase := .count }).hw.total ≠ 2 ^ 32 - 1 ∧
      full.hw.phase = .count ∧ full.hw.total = 2 ^ full.cfg.cntW - 1 := by decide
theorem test_meets_CountingOrderDoesNotMatter :
    (st { Hw.reset with phase := .count }).hw.phase = .count ∧ (st { Hw.reset with phase := .count }).hw.total + 1 < 2 ^ 32 - 1 := by decide
theorem test_meets_CountPassEndsOrFails : (st { counted with phase := .count }).hw.phase = .count := rfl
theorem test_meets_HistogramIsImmutableAfterCount :
    isNext (step (st' encoding [.source] [0x041#10])) = true ∧ isNext (step (st' ready [.hostWrite cmdAddr 1#32] [])) = true ∧
      encoding.phase ≠ .count ∧ ready.phase ≠ .count := by decide +kernel
theorem test_meets_CoreStepsWait :
    ¬ (ready.phase = .build ∧ ready.bsub = .sort) ∧ ¬ (sorting.phase = .build ∧ sorting.bsub = .merge) ∧
      ¬ (merging.phase = .build ∧ merging.bsub = .codegen) := by decide
theorem test_meets_SortWritesTheOrderedLeaves :
    ((st sorting).Inv ∧ sorting.phase = .build ∧ sorting.bsub = .sort) ∧ ((st emptySorting).Inv ∧ emptySorting.bsub = .sort) ∧
      (st soleSorting).Inv :=
  ⟨⟨inv_sorting _, rfl, rfl⟩, ⟨inv_emptySorting _, rfl⟩, inv_soleSorting _⟩
theorem test_meets_MergeJoinsTheTwoFrontNodes :
    (merging.phase = .build ∧ merging.bsub = .merge ∧ merging.seq = 0 :: 1 :: [2] ∧ (3 : NodeIx).val = merging.nnodes) ∧
      (merging2.phase = .build ∧ merging2.bsub = .merge ∧ merging2.seq = 3 :: 2 :: [] ∧ (4 : NodeIx).val = merging2.nnodes) := by
  decide
theorem test_meets_MergesInAscendingOrder :
    (st merging).Inv ∧ merging.phase = .build ∧ merging.bsub = .merge ∧ merging.seq = 0 :: 1 :: [2] ∧
      (hwOf (exec .merge (st merging))).map Hw.seq = some (3 :: 2 :: []) :=
  ⟨inv_merging _, rfl, rfl, rfl, by decide +kernel⟩
theorem test_meets_CodegenRecordsThePathsOfTheTree :
    ((st coding).Inv ∧ coding.phase = .build ∧ coding.bsub = .codegen ∧ coding.nsym = 3) ∧
      ((st emptyCoding).Inv ∧ emptyCoding.bsub = .codegen ∧ emptyCoding.nsym = 0) ∧
      ((st soleCoding).Inv ∧ soleCoding.bsub = .codegen ∧ soleCoding.nsym = 1) :=
  ⟨⟨inv_coding _, rfl, rfl, rfl⟩, ⟨inv_emptyCoding _, rfl, rfl⟩, ⟨inv_soleCoding _, rfl, rfl⟩⟩
theorem test_meets_BuildTakesExactlyItsSteps :
    ((st' sorting (List.replicate (max sorting.nsym 1 + 1) .core ++ []) []).Inv ∧ sorting.phase = .build ∧ sorting.bsub = .sort) ∧
      ((st emptySorting).Inv ∧ emptySorting.nsym = 0) ∧ ((st soleSorting).Inv ∧ soleSorting.nsym = 1) :=
  ⟨⟨inv_sorting _, rfl, rfl⟩, ⟨inv_emptySorting _, rfl⟩, ⟨inv_soleSorting _, rfl⟩⟩
theorem test_meets_CodeTableDependsOnTheHistogramOnly :
    (st' sorting (List.replicate (max sorting.nsym 1 + 1) .core ++ []) []).Inv ∧
      (st' sorting (List.replicate (max sorting.nsym 1 + 1) .core ++ [.sinkTake]) [0x041#10]).Inv ∧ sorting.hist = sorting.hist ∧
      sorting.phase = .build ∧ sorting.bsub = .sort :=
  ⟨inv_sorting _, inv_sorting _, rfl, rfl, rfl⟩
theorem test_meets_FrequentSymbolsHaveNoLongerCodes :
    (st' sorting (List.replicate (max sorting.nsym 1 + 1) .core ++ []) []).Inv ∧ sorting.phase = .build ∧ sorting.bsub = .sort ∧
      0 < sorting.histAt 0x42#8 ∧ sorting.histAt 0x42#8 < sorting.histAt 0x41#8 :=
  ⟨inv_sorting _, rfl, rfl, by decide +kernel, by decide +kernel⟩
theorem test_meets_CodeTableIsReadOnlyAfterBuild :
    isNext (step (st' encoding [.source] [0x041#10])) = true ∧ encoding.phase ≠ .build := by decide +kernel
theorem test_meets_TreeInvariantOfBuiltStates :
    ((st ready).Inv ∧ ready.phase = .ready ∧ ready.rootValid = true) ∧ ((st soleReady).Inv ∧ soleReady.rootValid = true) ∧
      (st encoding).Inv ∧ (st finished).Inv ∧ (ready.nodeAt 4).kind = .internal ∧ (ready.nodeAt 0).kind = .leaf :=
  ⟨⟨inv_ready _, rfl, rfl⟩, ⟨inv_soleReady _, rfl⟩, inv_encoding _, inv_finished _, by decide +kernel, by decide +kernel⟩
theorem test_meets_CodesArePrefixFree :
    (st ready).Inv ∧ ready.phase = .ready ∧ (0x41#8 : Byte) ≠ 0x42#8 ∧ 0 < (ready.codeAt 0x41#8).len ∧ 0 < (ready.codeAt 0x42#8).len :=
  ⟨inv_ready _, rfl, by decide, by decide +kernel, by decide +kernel⟩
theorem test_meets_KraftSumOfTheCodeTable :
    ((st ready).Inv ∧ ready.nsym = 3) ∧ ((st soleReady).Inv ∧ soleReady.nsym = 1) ∧ ((st emptyReady).Inv ∧ emptyReady.nsym = 0) :=
  ⟨⟨inv_ready _, rfl⟩, ⟨inv_soleReady _, rfl⟩, ⟨inv_emptyReady _, rfl⟩⟩
theorem test_meets_DecodingTheCodesGivesTheBytesBack :
    (st ready).Inv ∧ ready.phase = .ready ∧ ∀ b ∈ [0x41#8, 0x41#8, 0x42#8, 0x43#8], 0 < (ready.codeAt b).len :=
  ⟨inv_ready _, rfl, by decide +kernel⟩
theorem test_meets_EncodeBeatAppendsItsCode :
    ((st encoding3).Inv ∧ encoding3.phase = .encode ∧ encoding3.encIn ≠ encoding3.total ∧ 0 < (encoding3.codeAt 0x43#8).len ∧
      encoding3.outq.length + (encoding3.nacc.val + (encoding3.codeAt 0x43#8).len) / 8 ≤ (st encoding3).cfg.depth) ∧
      (encoding3.codeAt 0x44#8).len = 0 ∧ ((st encoding4).Inv ∧ encoding4.phase = .encode ∧ encoding4.encIn = encoding4.total) :=
  ⟨⟨inv_encoding3 _, rfl, by decide, by decide +kernel, by decide +kernel⟩, by decide +kernel, inv_encoding4 _, rfl, rfl⟩
theorem test_meets_EncodeEndFlushesAndEnds :
    (encoding3.phase = .encode ∧ encoding3.outq.length ≤ (st encoding3).cfg.depth ∧ encoding3.encIn ≠ encoding3.total) ∧
      (encoding4.phase = .encode ∧ encoding4.encIn = encoding4.total ∧ encoding4.nacc ≠ 0 ∧
        encoding4.outq.length + 2 ≤ (st encoding4).cfg.depth) ∧
      (emptyEncoding.phase = .encode ∧ emptyEncoding.encIn = emptyEncoding.total ∧ emptyEncoding.nacc = 0 ∧
        emptyEncoding.outq.length + 1 ≤ (st emptyEncoding).cfg.depth) := by decide
theorem test_meets_EncodeReadFailureRaises : (st encoding3).hw.phase = .encode := rfl

/-- V-E-13: 31 beats queued, END needs two entries. -/
def crowded : Hw := { encoding4 with outq := List.replicate 31 (.data 0#8) }

theorem inv_crowded (env : Env) : ({ cfg := Config.default, hw := crowded, env := env } : State).Inv :=
  Plain.inv (hw := crowded)
    ⟨count_counted.of_same rfl rfl rfl rfl (fun h => nomatch h), by constructor <;> decide, by constructor <;> decide,
      by constructor <;> decide⟩
    (buildInv_built (by decide) rfl (built_ready.of_same rfl rfl rfl rfl rfl rfl rfl)) env

theorem test_meets_InputPortAcceptance :
    ((st { counted with phase := .count }).Inv) ∧ ((st encoding3).Inv ∧ encoding3.phase = .encode) ∧
      ((st crowded).Inv ∧ crowded.phase = .encode ∧ kindField 0x100#10 = 1#2 ∧ (st crowded).cfg.depth < crowded.outq.length + 2) ∧
      ((st ready).Inv ∧ ready.phase ≠ .count ∧ ready.phase ≠ .encode) ∧ kindField 0x041#10 = 0#2 ∧ 2 ≤ (kindField 0x300#10).toNat :=
  ⟨inv_counting _, ⟨inv_encoding3 _, rfl⟩, ⟨inv_crowded _, rfl, by decide, by decide⟩, ⟨inv_ready _, by decide, by decide⟩, by decide,
    by decide⟩
theorem test_end_waits_for_room : unchanged (st crowded) (exec (.inEndEncode 0#8) (st crowded)) = true := by decide +kernel
theorem test_meets_BeatsWaitOutsideTheirPhase : ready.phase ≠ .count ∧ ready.phase ≠ .encode := by decide

/-- Pass 2 of "AABC" as the environment drives it. -/
def passTwo : State := st' encoding (passTwoTurns 4) (passBeats [0x41#8, 0x41#8, 0x42#8, 0x43#8])

theorem test_meets_PassTwoDeliversTheCodedStream :
    passTwo.Inv ∧ passTwo.hw.phase = .encode ∧ passTwo.hw.encIn = 0 ∧ passTwo.hw.outq = [] ∧
      passTwo.hw.total = [0x41#8, 0x41#8, 0x42#8, 0x43#8].length ∧
      (∀ b ∈ [0x41#8, 0x41#8, 0x42#8, 0x43#8], 0 < (passTwo.hw.codeAt b).len) ∧ passTwo.env.events = passTwoTurns 4 ∧
      passTwo.env.src = passBeats [0x41#8, 0x41#8, 0x42#8, 0x43#8] ++ [] :=
  ⟨inv_encoding _, rfl, rfl, rfl, rfl, by decide +kernel, rfl, rfl⟩

/-- A whole run over "AABC". -/
def wholeRun : State :=
  st' Hw.reset (pipelineTurns [0x41#8, 0x41#8, 0x42#8, 0x43#8])
    (passBeats [0x41#8, 0x41#8, 0x42#8, 0x43#8] ++ passBeats [0x41#8, 0x41#8, 0x42#8, 0x43#8])

theorem test_meets_WholeRunRoundTrips :
    wholeRun.Inv ∧ wholeRun.hw.phase = .idle ∧ wholeRun.hw.outq = [] ∧
      [0x41#8, 0x41#8, 0x42#8, 0x43#8].length ≤ 2 ^ wholeRun.cfg.cntW - 1 ∧
      wholeRun.env.events = pipelineTurns [0x41#8, 0x41#8, 0x42#8, 0x43#8] ∧
      wholeRun.env.src = passBeats [0x41#8, 0x41#8, 0x42#8, 0x43#8] ++ (passBeats [0x41#8, 0x41#8, 0x42#8, 0x43#8] ++ []) :=
  ⟨inv_idle _, rfl, rfl, by decide, rfl, rfl⟩

/-- `encoding4` with one beat not yet taken. -/
def waiting : Hw := { encoding4 with outq := [.data 0#8] }

theorem test_meets_ArtifactIndependentOfTheSink :
    encoding4.phase = .encode ∧ waiting = { encoding4 with outq := waiting.outq } ∧
      (hwOf (exec (.inEndEncode 0#8) (st encoding4))).map Hw.phase = some .done ∧
      (hwOf (exec (.inEndEncode 0#8) (st waiting))).map Hw.phase = some .done := ⟨rfl, rfl, by decide +kernel, by decide +kernel⟩
theorem test_meets_ValidBitCountsOfPassTwo : ((st encoding3).Inv ∧ encoding3.phase = .encode) ∧ ((st finished).Inv ∧ finished.phase = .done) :=
  ⟨⟨inv_encoding3 _, rfl⟩, ⟨inv_finished _, rfl⟩⟩
theorem test_meets_SinkTakesTheHead : finished.outq = .data 0xC4#8 :: [.endBeat] ∧ ready.outq = [] := by decide
theorem test_meets_SinkTakesTheHead_idle_error :
    ((st Hw.reset).Inv ∧ Hw.reset.phase = .idle) ∧ ((st failed).Inv ∧ failed.phase = .error) :=
  ⟨⟨inv_idle _, rfl⟩, inv_failed _, rfl⟩
theorem test_meets_OutputBeatsTransferTheHead :
    finished.outq = .data 0xC4#8 :: [.endBeat] ∧ failed.outq = .abort :: [] ∧ ({ finished with outq := [.endBeat] } : Hw).outq = .endBeat :: [] ∧
      finished.outq.head? ≠ some (.data 0#8) ∧ ready.outq.head? ≠ some .endBeat ∧ finished.outq.head? ≠ some .abort := by decide
theorem test_meets_OutputQueueIsFirstInFirstOut :
    (st' finished [.sinkTake] []).Inv ∧ isNext (step (st' finished [.sinkTake] [])) = true ∧
      (st' encoding4 [.source] [0x100#10]).Inv ∧ isNext (step (st' encoding4 [.source] [0x100#10])) = true :=
  ⟨inv_finished _, by decide +kernel, inv_encoding4 _, by decide +kernel⟩
theorem test_meets_ReadsHaveNoSideEffect : ready.phase ≠ .build := by decide
theorem test_meets_BuildReadsAreFreshDraws :
    sorting.phase = .build ∧ OpenInBuild 0x1000 ∧ OpenInBuild 0x1FF4 ∧ OpenInBuild 0x001C ∧ OpenInBuild 0x0024 ∧ OpenInBuild 0x2000 ∧
      OpenInBuild 0x5FFC ∧ ¬ OpenInBuild 0x0018 ∧ ¬ OpenInBuild 0x0028 ∧ ¬ OpenInBuild 0x1FF8 ∧ ¬ OpenInBuild 0x0400 := by and_intros <;> decide
theorem test_meets_ConstantOffsetsRead :
    Reserved 0x0044 ∧ Reserved 0x03FC ∧ Reserved 0x0800 ∧ Reserved 0x1FFC ∧ Reserved 0x6000 ∧ Reserved 0x7FFC ∧ ¬ Reserved 0x0040 ∧
      ¬ Reserved 0x0400 := by and_intros <;> decide
theorem test_meets_StatusRegisterFields : (st finished).Inv ∧ (st merging).Inv ∧ (st failed).Inv :=
  ⟨inv_finished _, inv_merging _, inv_failed _⟩
theorem test_meets_CounterRegistersReadExactly : (st { counted with phase := .count }).Inv ∧ (st encoding3).Inv :=
  ⟨inv_counting _, inv_encoding3 _⟩
theorem test_meets_CounterRegisters_offsets : 0x0040 % 4 = 0 ∧ (0x0400 ≤ 0x0400 ∧ 0x0400 ≤ 0x07FC) ∧ (0x0400 ≤ 0x07FC ∧ 0x07FC % 4 = 0) := by decide
theorem test_meets_TreeRegistersReadTheTree :
    (st ready).Inv ∧ ready.phase ≠ .build ∧ (4 : NodeIx).val < ready.nnodes ∧ ready.nnodes ≤ (5 : NodeIx).val ∧
      (ready.nodeAt 4).kind = .internal ∧ (ready.nodeAt 2).kind = .leaf :=
  ⟨inv_ready _, by decide, by decide, by decide, by decide +kernel, by decide +kernel⟩
theorem test_meets_CodeWindowReadsTheCodes : (st ready).Inv ∧ ready.phase ≠ .build := ⟨inv_ready _, by decide⟩
theorem test_meets_DecodeOfEncode :
    (Instr.regWrite 0#13 0#32).wellFormed = true ∧ (Instr.regWrite 0#13 0#32).selectedIn .idle .sort = true ∧
      Instr.merge.wellFormed = true ∧ Instr.merge.selectedIn .build .merge = true := by decide
theorem test_meets_EncodeOfDecode : decode .count .sort (.inBeat 0x041#10) = .ok (.inDataCount 0x41#8) := by decide
theorem test_meets_EveryCommandWordIsDecoded :
    (0x6#32).toNat = 6 ∧ 8 ≤ (0xF#32).toNat ∧ (0xF#32).toNat < 16 ∧ 16 ≤ (0x10#32).toNat := by decide
theorem test_meets_StepRunsTheDecodedInstruction :
    let s := st' Hw.reset [.hostWrite cmdAddr 2#32] []
    s.env.events = .hostWrite cmdAddr 2#32 :: [] ∧ s.present (.hostWrite cmdAddr 2#32) = some (.hostWrite cmdAddr 2#32) ∧
      decode s.hw.phase s.hw.bsub (.hostWrite cmdAddr 2#32) = .ok .count ∧
      decode s.hw.phase s.hw.bsub (.outBeat 0x300#10) = .error (.outKindReserved 0x300#10) ∧ s.env.src = [] ∧
      (st' Hw.reset [.source] []).env.events = .source :: [] := by decide
theorem test_meets_CoreMovesWhenNoTurnIsListed :
    (st merging).env.events = [] ∧ merging.phase = .build ∧ (st ready).env.events = [] ∧ ready.phase ≠ .build := by decide
theorem test_meets_PhasesFollowThePipeline :
    (hwOf (step (st' Hw.reset [.hostWrite cmdAddr 2#32] []))).map Hw.phase = some .count ∧ Hw.reset.phase = .idle := by decide +kernel
theorem test_meets_StepKeepsTheInvariant :
    (st coding).Inv ∧ isNext (step (st coding)) = true ∧ (st' encoding3 [.source] [0x043#10]).Inv ∧
      isNext (step (st' encoding3 [.source] [0x043#10])) = true :=
  ⟨inv_coding _, by decide +kernel, inv_encoding3 _, by decide +kernel⟩
theorem test_meets_NoAssertionFires : (st merging).Inv ∧ (st encoding4).Inv := ⟨inv_merging _, inv_encoding4 _⟩
theorem test_meets_EveryElementFitsItsWidth : (st finished).Inv := inv_finished _
/-- R60: with a listed turn, the listed turns alone say what follows; with none, the core's turn lists a block nothing can evaluate. -/
theorem test_meets_ExecutionsGoOnAndServeTheCore :
    (st' merging [.hostRead 2#13, .sinkTake] []).Inv ∧ (∀ e ∈ [Event.hostRead 2#13, .sinkTake], agentStep e = e) ∧ merging.phase = .build :=
  ⟨inv_merging _, by decide, rfl⟩
theorem test_turns_go_on :
    isNext (step (st ready)) = true ∧ isNext (step (st' ready [.source] [])) = true ∧ agentStep (.outBeat 0x300#10) = .sinkTake := by
  decide +kernel

end Sys2Proof.Machine.Tests
end

/-! # Scope: the parameters stay, and every element fits its width (00_scope.md R8, R10; 10_state.md R36) -/

namespace Sys2Proof.Machine

/-! ## The counters of pass 1 -/

/-- A legal CNT_W is at most 32 (00_scope.md R8). -/
theorem cntMax_lt_of_legal {c : Config} (h : c.Legal) : cntMax c < 2 ^ 32 := by
  obtain ⟨-, hw, -⟩ := h
  have : 2 ^ c.cntW ≤ 2 ^ 32 := Nat.pow_le_pow_right (by decide) hw
  unfold cntMax; omega

section Counters

variable {hw : Hw} {c : Config} (h : hw.CountInv c)
include h

/-- R142 bounds TOTAL alone; whatever is at most the sum of the counts is bounded through it. -/
theorem Hw.CountInv.sum_le : (symbols.map hw.histAt).sum ≤ cntMax c := h.total ▸ h.bound

theorem Hw.CountInv.histAt_le (b : Byte) : hw.histAt b ≤ cntMax c := (histAt_le_sum hw b).trans h.sum_le

theorem Hw.CountInv.nsym_le : hw.nsym ≤ 256 := h.nsym ▸ present_length_le hw

theorem Hw.CountInv.maxf_le : hw.maxf ≤ cntMax c := by
  rw [h.maxf]
  refine List.max_le_of_forall_le _ _ fun n hn => ?_
  obtain ⟨b, -, rfl⟩ := List.mem_map.1 hn
  exact h.histAt_le b

end Counters

/-! ## The node store and SEQ -/

/-- A forest over at most 256 symbols takes at most 511 slots: 2 n less the number of its trees (43_tree_builder.md R186). -/
theorem Hw.Forest.nnodes_le {hw : Hw} {ts : List HTree} (h : hw.Forest ts) : hw.nnodes ≤ 511 := by
  have hsum := h.nnodes_seq
  have hn := present_length_le hw
  rcases Nat.eq_zero_or_pos hw.present.length with h0 | hp
  · omega
  · have := h.seq_pos hp
    omega

/-- In every phase there is no tree yet, or a forest. -/
theorem Hw.BuildInv.unbuilt_or_forest {hw : Hw} (h : hw.BuildInv) : hw.Unbuilt ∨ ∃ ts, hw.Forest ts := by
  obtain hu | hg | ⟨t, hf, -⟩ | ⟨hf, -⟩ := h.anyStage
  · exact .inl hu
  · exact .inr hg.forest
  · exact .inr ⟨[t], hf⟩
  · exact .inr ⟨[], hf⟩

theorem Hw.BuildInv.freq_le {hw : Hw} (h : hw.BuildInv) (i : NodeIx) : (hw.nodeAt i).f ≤ (symbols.map hw.histAt).sum := by
  obtain hu | ⟨ts, hf⟩ := h.unbuilt_or_forest
  · simp [hu.nodes i, Node.zero]
  · exact hf.freq_le i

theorem Hw.BuildInv.nnodes_le {hw : Hw} (h : hw.BuildInv) : hw.nnodes ≤ 511 := by
  obtain hu | ⟨ts, hf⟩ := h.unbuilt_or_forest
  · simp [hu.nnodes]
  · exact hf.nnodes_le

theorem Hw.BuildInv.seq_length_le {hw : Hw} (h : hw.BuildInv) : hw.seq.length ≤ 256 := by
  obtain hu | ⟨ts, hf⟩ := h.unbuilt_or_forest
  · simp [hu.seq]
  · exact hf.seq_length_le.trans (present_length_le hw)

/-! ## The code table -/

/-- In every phase there is no code, or the codes are those of the one tree. -/
theorem Hw.BuildInv.noCodes_or_coded {hw : Hw} (h : hw.BuildInv) : hw.NoCodes ∨ ∃ t, hw.Forest [t] ∧ hw.Coded t := by
  obtain hu | hg | ⟨t, hf, -, -, hc⟩ | ⟨-, -, -, hc⟩ := h.anyStage
  · exact .inl hu.codes
  · exact .inl hg.codes
  · exact .inr ⟨t, hf, hc⟩
  · exact .inl hc

/-- The leaves of a sole tree are the symbols present. -/
theorem Hw.Forest.syms_length_le {hw : Hw} {t : HTree} (h : hw.Forest [t]) : t.syms.length ≤ 256 := by
  have hlen : t.syms.length = hw.present.length := by simpa using h.syms.length_eq
  exact hlen ▸ present_length_le hw

/-- CODE_LEN is the length of CODE_BITS, at most 255 (10_state.md R32). -/
theorem Hw.BuildInv.code_fits {hw : Hw} (h : hw.BuildInv) (b : Byte) :
    (hw.codeAt b).len = (hw.codeAt b).bits.length ∧ (hw.codeAt b).len ≤ 255 := by
  obtain hn | ⟨t, hf, hc⟩ := h.noCodes_or_coded
  · simp [hn b, CodeEntry.none]
  · by_cases hb : b ∈ t.syms
    · obtain ⟨p, hp, he⟩ := hc.entry hb
      rw [he]
      exact ⟨rfl, (HTree.codes_length hf.syms_length_le hp).2⟩
    · simp [hc.2 b hb, CodeEntry.none]

/-! ## The counters of pass 2 -/

/-- The bytes pushed are the full ones, and at the end the padded one (45_stream_encoder.md R232). -/
theorem Hw.EncodeInv.encOut_le {hw : Hw} (h : hw.EncodeInv) : hw.encOut ≤ (hw.encBits + 7) / 8 := by
  cases hl : hw.lbValid with
  | false =>
    obtain ⟨-, hout, -⟩ := h.running hl
    omega
  | true =>
    obtain ⟨-, -, hout⟩ := h.finished hl
    exact hout.le

/-- At most 2^32 - 1 symbols of at most 255 bits each (10_state.md R36). -/
theorem State.Inv.encBits_lt {s : State} (h : s.Inv) : s.hw.encBits < 2 ^ 40 := by
  have hcnt := cntMax_lt_of_legal h.config
  have htotal := h.count.bound
  have hin := h.encode.length
  have hbits := h.encode.bits
  omega

/-! ## The obligations -/

/-- Settles O54: every step makes one of the moves of HUFENC's own state, and none changes the configuration. -/
theorem stepKeepsTheParameters : Obligations.StepKeepsTheParameters := fun _ _ h => (step_moves h).1

/-- Settles O59: TOTAL's bound carries to every count and frequency, the shape of the forest bounds the node store, SEQ and the
codes, and the counters of pass 2 follow from TOTAL and the longest code. -/
theorem everyElementFitsItsWidth : Obligations.EveryElementFitsItsWidth := fun s h => {
  hist := h.count.histAt_le
  total := h.count.bound
  nsym := h.count.nsym_le
  maxf := h.count.maxf_le
  freq := fun i => (h.build.freq_le i).trans h.count.sum_le
  nnodes := h.build.nnodes_le
  seq := h.build.seq_length_le
  code := h.build.code_fits
  encIn := h.encode.length.trans h.count.bound
  encOut := by
    have hbits := h.encBits_lt
    have hout := h.encode.encOut_le
    omega
  encBits := h.encBits_lt
  outq := h.queue.depth }

end Sys2Proof.Machine

/-! # State: the reset table, the phases, OUTQ, and the invariant of every step (10_state.md) -/

namespace Sys2Proof.Machine

/-! ## The reset table -/

/-- Every row of the reset table, whatever OUTQ is left with (10_state.md R43). -/
theorem Hw.reset_atReset (q : List OutBeat) : ({ Hw.reset with outq := q } : Hw).AtReset q where
  phase := rfl
  bsub := rfl
  hist := Hw.reset_histAt
  counters := ⟨rfl, rfl, rfl⟩
  node := Hw.reset_nodeAt
  nnodes := rfl
  seq := rfl
  root := ⟨rfl, rfl⟩
  code := Hw.reset_codeAt
  acc := ⟨rfl, rfl⟩
  enc := ⟨rfl, rfl, rfl⟩
  lastbits := ⟨rfl, rfl⟩
  outq := rfl
  err := ⟨rfl, rfl⟩

/-- Settles O1: both write `Hw.reset`, CLEAR with the OUTQ of its own rule, and neither writes the environment. -/
theorem resetAndClearRestoreTheTable : Obligations.ResetAndClearRestoreTheTable :=
  ⟨Hw.reset_atReset [], fun s =>
    ⟨⟨s.withHw Hw.reset, rfl, Hw.reset_atReset [], rfl, rfl⟩, ⟨s.withHw s.hw.clear, rfl, rfl, rfl, Hw.reset_atReset _⟩⟩⟩

/-! ## The beats of pass 2 -/

/-- What a DATA beat of pass 2 that raises nothing leaves (45_stream_encoder.md R222, R225). -/
theorem Hw.encodeSymbol_next {depth : Nat} {hw hw' : Hw} {b : Byte} (hroom : hw.outq.length + hw.needData b ≤ depth)
    (hmore : hw.encIn ≠ hw.total) (hcode : (hw.codeAt b).len ≠ 0) (h : hw.encodeSymbol depth b = some hw') :
    ∃ (acc : Byte) (nacc : Fin 8) (bytes : List Byte),
      hw' = { hw with
        acc := acc, nacc := nacc, outq := hw.outq ++ bytes.map .data
        encOut := hw.encOut + (hw.nacc.val + (hw.codeAt b).len) / 8
        encIn := hw.encIn + 1, encBits := hw.encBits + (hw.codeAt b).len } ∧
      bytes.length = (hw.nacc.val + (hw.codeAt b).len) / 8 ∧ nacc.val = (hw.nacc.val + (hw.codeAt b).len) % 8 ∧
      (hw.acc.toNat < 2 ^ hw.nacc.val → acc.toNat < 2 ^ nacc.val) := by
  rw [Hw.needData, if_neg (not_or.2 ⟨hmore, hcode⟩)] at hroom
  obtain ⟨hw1, ha, he⟩ := Hw.encodeSymbol_spec hroom
  obtain ⟨bytes, hq, hlen⟩ := ha.outq
  have hout := ha.encOut
  have hnacc := ha.nacc
  rw [CodeEntry.string_length] at hlen hout hnacc
  refine ⟨hw1.acc, hw1.nacc, bytes, ?_, hlen, hnacc, ha.acc⟩
  rw [← Option.some.inj (he.symm.trans h), ha.frame]
  simp only [hq, hout]

theorem Hw.lastBeats_length (hw : Hw) : hw.lastBeats.length = 1 + if 0 < hw.nacc.val then 1 else 0 := by
  unfold Hw.lastBeats; split <;> rfl

/-- What the END beat of pass 2 that raises nothing leaves (45_stream_encoder.md R225, R226). -/
theorem Hw.finishEncode_next {depth : Nat} {hw hw' : Hw} (hroom : hw.outq.length + hw.needEnd ≤ depth)
    (hall : hw.encIn = hw.total) (h : hw.finishEncode depth = some hw') :
    hw.outq.length + hw.lastBeats.length ≤ depth ∧ hw' = { hw with
      lastbits := hw.nacc, acc := 0#8, nacc := 0, lbValid := true, phase := .done
      encOut := if 0 < hw.nacc.val then hw.encOut + 1 else hw.encOut
      outq := hw.outq ++ hw.lastBeats } := by
  rw [Hw.needEnd, if_neg (not_not.2 hall)] at hroom
  exact ⟨by rwa [Hw.lastBeats_length], Option.some.inj (h.symm.trans (Hw.finishEncode_spec hroom))⟩

/-! ## The phase -/

/-- An error entry leaves a code: the first error's (60_exceptions.md R252). -/
theorem Hw.raise_errCode_ne_none (hw : Hw) {e : ErrCode} (he : e ≠ .none) : (hw.raise e).errCode ≠ .none := by
  unfold Hw.raise
  by_cases hc : hw.errCode = .none <;> simp [hc, he]

/-- The table of phases of 10_state.md R22 without its ways to IDLE and ERROR. -/
def pipeline : List (Phase × Phase) :=
  [(.idle, .count), (.count, .counted), (.counted, .build), (.build, .ready), (.ready, .encode), (.encode, .done), (.done, .encode)]

/-- What a move does to the phase. -/
theorem Hw.Moves.phase {c : Config} {hw hw' : Hw} (h : hw.Moves c hw') :
    hw'.phase = hw.phase ∨ (hw.phase, hw'.phase) ∈ pipeline ∨ (hw'.phase = .error ∧ hw'.errCode ≠ .none) ∨ ∃ q, hw'.AtReset q := by
  cases h with
  | stays | counts | sorts | merges | delivers => exact .inl rfl
  | clears | resets => exact .inr (.inr (.inr ⟨_, Hw.reset_atReset _⟩))
  | errs e _ he => exact .inr (.inr (.inl ⟨rfl, hw.raise_errCode_ne_none he⟩))
  | starts hp | counted hp | builds hp | plants hp | generates _ _ _ hp => exact .inr (.inl (by simp [hp, pipeline]))
  | opens hp => obtain hp | ⟨hp, -⟩ := hp <;> exact .inr (.inl (by simp [hp, pipeline]))
  | encodes b hw' _ hroom hmore hcode he =>
    obtain ⟨acc, nacc, bytes, rfl, -⟩ := Hw.encodeSymbol_next hroom hmore hcode he
    exact .inl rfl
  | finishes hw' hp hroom hall he =>
    obtain ⟨-, rfl⟩ := Hw.finishEncode_next hroom hall he
    exact .inr (.inl (by simp [hp, pipeline]))

/-- Settles O55: by the moves of HUFENC's own state. -/
theorem phasesFollowThePipeline : Obligations.PhasesFollowThePipeline := fun _ _ h hne =>
  (step_moves h).2.phase.resolve_left hne

end Sys2Proof.Machine

/-! # State: every step keeps the invariant (10_state.md R22, R38, R41) -/

namespace Sys2Proof.Machine

/-! ## The counter invariants -/

/-- The counters of pass 1 follow one more occurrence (41_frequency_counter.md R141, R146). -/
theorem Hw.CountInv.countSymbol {hw : Hw} {c : Config} (h : hw.CountInv c) (b : Byte) (hp : hw.phase = .count)
    (hmax : hw.total ≠ cntMax c) : (hw.countSymbol b).CountInv c where
  total := by rw [countSymbol_sum, ← h.total]; rfl
  nsym := by
    rw [countSymbol_present, ← h.nsym]
    show (if hw.histAt b = 0 then hw.nsym + 1 else hw.nsym) = _
    split <;> rfl
  maxf := by
    rw [countSymbol_maxOf, ← h.maxf]
    show (if hw.histAt b + 1 > hw.maxf then hw.histAt b + 1 else hw.maxf) = _
    split <;> omega
  bound := Nat.lt_of_le_of_ne h.bound hmax
  idle := fun hi => by simp [hp] at hi

theorem Hw.Moves.countInv {c : Config} {hw hw' : Hw} (hm : hw.Moves c hw') (h : hw.CountInv c) : hw'.CountInv c := by
  cases hm with
  | stays => exact h
  | clears | resets => exact Hw.reset_countInv c _ rfl rfl rfl rfl
  | counts b hp hmax => exact h.countSymbol b hp hmax
  | errs | starts | counted | builds | plants | generates | opens => exact h.of_same rfl rfl rfl rfl (by simp)
  | sorts | merges | delivers => exact h.of_same rfl rfl rfl rfl id
  | encodes b hw' _ hroom hmore hcode he =>
    obtain ⟨acc, nacc, bytes, rfl, -⟩ := Hw.encodeSymbol_next hroom hmore hcode he
    exact h.of_same rfl rfl rfl rfl id
  | finishes hw' _ hroom hall he =>
    obtain ⟨-, rfl⟩ := Hw.finishEncode_next hroom hall he
    exact h.of_same rfl rfl rfl rfl (by simp)

/-! ## How far the build has come -/

/-- The elements the stages of the build are about. -/
structure Hw.SameBuild (hw hw' : Hw) : Prop where
  hist : hw'.hist = hw.hist
  nnodes : hw'.nnodes = hw.nnodes
  seq : hw'.seq = hw.seq
  node : hw'.node = hw.node
  root : hw'.root = hw.root
  rootValid : hw'.rootValid = hw.rootValid
  code : hw'.code = hw.code

section SameBuild

variable {hw hw' : Hw} (e : hw.SameBuild hw')
include e

theorem Hw.SameBuild.unbuilt (h : hw.Unbuilt) : hw'.Unbuilt := h.of_same e.nnodes e.seq e.node e.root e.rootValid e.code

theorem Hw.SameBuild.growing (h : hw.Growing) : hw'.Growing := h.of_same e.hist e.nnodes e.seq e.node e.root e.rootValid e.code

theorem Hw.SameBuild.built (h : hw.Built) : hw'.Built := h.of_same e.hist e.nnodes e.seq e.node e.root e.rootValid e.code

end SameBuild

theorem Hw.BuildInv.of_same {hw hw' : Hw} (h : hw.BuildInv) (e : hw.SameBuild hw') (hp : hw'.phase = hw.phase) (hb : hw'.bsub = hw.bsub) :
    hw'.BuildInv where
  bsub := by rw [hp, hb]; exact h.bsub
  before := by rw [hp]; exact fun p => e.unbuilt (h.before p)
  sorting := by rw [hp, hb]; exact fun p b => e.unbuilt (h.sorting p b)
  growing := by rw [hp, hb]; exact fun p b => e.growing (h.growing p b)
  merging := by rw [hp, hb, e.seq]; exact h.merging
  gathered := by rw [hp, hb, e.seq]; exact h.gathered
  built := by rw [hp]; exact fun p => e.built (h.built p)
  stopped := by rw [hp]; exact fun p => (h.stopped p).imp e.unbuilt (Or.imp e.growing e.built)


section Stages

variable {hw : Hw}

/-- In every phase up to the SORT step nothing is built. -/
theorem Hw.BuildInv.of_unbuilt (h : hw.Unbuilt) (hb : hw.bsub = .sort)
    (hp : hw.phase = .idle ∨ hw.phase = .count ∨ hw.phase = .counted ∨ hw.phase = .build) : hw.BuildInv := by
  obtain hp | hp | hp | hp := hp <;> constructor <;> simp [hp, hb, h]

theorem Hw.BuildInv.of_growing (h : hw.Growing) (hp : hw.phase = .build)
    (hb : (hw.bsub = .merge ∧ 2 ≤ hw.seq.length) ∨ (hw.bsub = .codegen ∧ hw.seq.length ≤ 1)) : hw.BuildInv := by
  obtain ⟨hb, hl⟩ | ⟨hb, hl⟩ := hb <;> constructor <;> simp [hp, hb, h, hl]

theorem Hw.BuildInv.of_built (h : hw.Built) (hb : hw.bsub = .sort)
    (hp : hw.phase = .ready ∨ hw.phase = .encode ∨ hw.phase = .done) : hw.BuildInv := by
  obtain hp | hp | hp := hp <;> constructor <;> simp [hp, hb, h]

theorem Hw.BuildInv.of_stopped (h : hw.Unbuilt ∨ hw.Growing ∨ hw.Built) (hb : hw.bsub = .sort) (hp : hw.phase = .error) :
    hw.BuildInv := by
  constructor <;> simp [hp, hb, h]

theorem Hw.sorted_bsub (hw : Hw) : hw.sorted.bsub = if 2 ≤ hw.leafOrder.length then .merge else .codegen := rfl

/-- SORT leaves MERGE pending for two leaves or more, and CODEGEN for fewer (42_leaf_orderer.md R163). -/
theorem Hw.BuildInv.sorted (h : hw.BuildInv) (hp : hw.phase = .build) (hb : hw.bsub = .sort) : hw.sorted.BuildInv := by
  have hu := h.sorting hp hb
  refine .of_growing ⟨⟨_, hu.sorted⟩, hu.root, hu.codes⟩ hp ?_
  rw [Hw.sorted_seq, Hw.sorted_bsub, firstSlots, List.length_map, List.length_range]
  by_cases h2 : 2 ≤ hw.leafOrder.length
  · exact .inl ⟨if_pos h2, h2⟩
  · exact .inr ⟨if_neg h2, by omega⟩

theorem Hw.merged_seq_length (hw : Hw) (a b : NodeIx) (rest : List NodeIx) (m : NodeIx) :
    (hw.merged a b rest m).seq.length = rest.length + 1 :=
  List.length_insertIdx_of_le_length List.findIdx_le_length _

theorem Hw.merged_bsub (hw : Hw) (a b : NodeIx) (rest : List NodeIx) (m : NodeIx) :
    (hw.merged a b rest m).bsub = if rest.length + 1 = 1 then .codegen else hw.bsub := by
  rw [← hw.merged_seq_length a b rest m]; rfl

/-- MERGE leaves one entry less, and CODEGEN pending when one is left (43_tree_builder.md R181). -/
theorem Hw.BuildInv.merged (h : hw.BuildInv) (hp : hw.phase = .build) (hb : hw.bsub = .merge) {a b : NodeIx} {rest : List NodeIx}
    {m : NodeIx} (hs : hw.seq = a :: b :: rest) (hm : m.val = hw.nnodes) : (hw.merged a b rest m).BuildInv := by
  have hg := h.growing hp (by simp [hb])
  obtain ⟨ts, hf⟩ := hg.forest
  refine .of_growing ⟨hf.merged hs hm, hg.root, hg.codes⟩ hp ?_
  rw [Hw.merged_seq_length, Hw.merged_bsub, hb]
  by_cases hr : rest.length + 1 = 1
  · exact .inr ⟨if_pos hr, by omega⟩
  · exact .inl ⟨if_neg hr, by omega⟩

/-- CODEGEN of an empty SEQ: no tree and no code (44_code_generator.md R201). -/
theorem Hw.BuildInv.planted (h : hw.BuildInv) (hp : hw.phase = .build) (hb : hw.bsub = .codegen) (hs : hw.seq = []) :
    (hw.finishBuild 0 false hw.code).BuildInv := by
  have hg := h.growing hp (by simp [hb])
  obtain ⟨ts, hf⟩ := hg.forest
  obtain rfl : ts = [] := List.map_eq_nil_iff.1 (hf.roots.symm.trans hs)
  exact .of_built (.inr ⟨hf.congr rfl rfl rfl rfl, rfl, rfl, hg.codes⟩) rfl (.inl rfl)

theorem Hw.Forest.slots_length_le {t : HTree} (h : hw.Forest [t]) : t.slots.length ≤ 511 := by
  have hlen : t.slots.length = hw.nnodes := by simpa using h.slots.length_eq
  exact hlen ▸ h.nnodes_le

/-- CODEGEN of the one entry of SEQ: ROOT, and the codes of the tree under it (44_code_generator.md R200 to R204). -/
theorem Hw.BuildInv.generated (h : hw.BuildInv) (hp : hw.phase = .build) (hb : hw.bsub = .codegen) {r : NodeIx}
    {rest : List NodeIx} {code : Vector CodeEntry 256} (hs : hw.seq = r :: rest) (hc : codeTable hw.node r hw.code = some code) :
    (hw.finishBuild r true code).BuildInv := by
  have hg := h.growing hp (by simp [hb])
  have hlen := h.gathered hp hb
  obtain ⟨ts, hf⟩ := hg.forest
  obtain rfl : rest = [] := List.eq_nil_of_length_eq_zero (by rw [hs, List.length_cons] at hlen; omega)
  obtain ⟨t, rfl, rfl⟩ := List.map_eq_singleton_iff.1 (hf.roots.symm.trans hs)
  have ht : t ∈ [t] := List.mem_singleton_self t
  rw [codeTable_stored (hf.stored t ht) hf.slots_length_le] at hc
  have hcoded : (hw.finishBuild t.slot true code).Coded t :=
    Hw.coded_of_codes hg.codes (hf.syms_nodup ht) (Option.some.inj hc).symm
  exact .of_built (.inl ⟨t, hf.congr rfl rfl rfl rfl, rfl, rfl, hcoded⟩) rfl (.inl rfl)

end Stages

theorem Hw.Moves.buildInv {c : Config} {hw hw' : Hw} (hm : hw.Moves c hw') (h : hw.BuildInv) : hw'.BuildInv := by
  cases hm with
  | stays => exact h
  | clears | resets => exact .of_unbuilt (reset_unbuilt rfl rfl rfl rfl rfl rfl) rfl (.inl rfl)
  | errs e =>
    have same : hw.SameBuild (hw.raise e) := ⟨rfl, rfl, rfl, rfl, rfl, rfl, rfl⟩
    exact .of_stopped (h.anyStage.imp same.unbuilt (Or.imp same.growing same.built)) rfl rfl
  | starts hp | counts b hp | counted hp =>
    have hu : hw.Unbuilt := h.before (by simp [hp])
    exact .of_unbuilt (hu.of_same rfl rfl rfl rfl rfl rfl) (h.bsub (by simp [hp])) (by simp [hp])
  | builds hp =>
    have hu : hw.Unbuilt := h.before (by simp [hp])
    exact .of_unbuilt (hu.of_same rfl rfl rfl rfl rfl rfl) rfl (by simp)
  | sorts hp hb => exact h.sorted hp hb
  | merges a b rest m hp hb hs hm => exact h.merged hp hb hs hm
  | plants hp hb hs => exact h.planted hp hb hs
  | generates r rest t hp hb hs hc => exact h.generated hp hb hs hc
  | opens hp =>
    have same : hw.SameBuild hw.startEncode := ⟨rfl, rfl, rfl, rfl, rfl, rfl, rfl⟩
    have hp : hw.phase = .ready ∨ hw.phase = .done := hp.imp_right And.left
    exact .of_built (same.built (h.built (hp.imp_right .inr))) (h.bsub fun hb => by simp [hb] at hp) (.inr (.inl rfl))
  | encodes b hw' _ hroom hmore hcode he =>
    obtain ⟨acc, nacc, bytes, rfl, -⟩ := Hw.encodeSymbol_next hroom hmore hcode he
    exact h.of_same ⟨rfl, rfl, rfl, rfl, rfl, rfl, rfl⟩ rfl rfl
  | finishes hw' hp hroom hall he =>
    obtain ⟨-, rfl⟩ := Hw.finishEncode_next hroom hall he
    have hb : hw.Built := h.built (by simp [hp])
    exact .of_built (hb.of_same rfl rfl rfl rfl rfl rfl rfl) (h.bsub (by simp [hp])) (.inr (.inr rfl))
  | delivers => exact h.of_same ⟨rfl, rfl, rfl, rfl, rfl, rfl, rfl⟩ rfl rfl

/-! ## Pass 2 -/

/-- What the reset table has of the encoder (10_state.md R43). -/
theorem Hw.EncodeInv.of_start {hw : Hw} (hacc : hw.acc = 0#8 ∧ hw.nacc = 0) (henc : hw.encIn = 0 ∧ hw.encOut = 0 ∧ hw.encBits = 0)
    (hlast : hw.lastbits = 0 ∧ hw.lbValid = false) (hp : hw.phase ≠ .done) : hw.EncodeInv := by
  obtain ⟨ha, hn⟩ := hacc
  obtain ⟨hi, ho, hb⟩ := henc
  obtain ⟨hl, hv⟩ := hlast
  constructor <;> simp [*]

/-- A move that leaves the encoder's registers keeps their invariant when it enters no phase of which more is required. -/
theorem Hw.EncodeInv.of_same {hw hw' : Hw} (h : hw.EncodeInv) (hacc : hw'.acc = hw.acc ∧ hw'.nacc = hw.nacc)
    (henc : hw'.encIn = hw.encIn ∧ hw'.encOut = hw.encOut ∧ hw'.encBits = hw.encBits)
    (hlast : hw'.lastbits = hw.lastbits ∧ hw'.lbValid = hw.lbValid) (ht : hw.total ≤ hw'.total)
    (he : hw'.phase = .encode → hw.phase = .encode) (hd : hw'.phase = .done → hw.phase = .done ∧ hw'.total = hw.total)
    (hb : hw'.phase = .idle ∨ hw'.phase = .count ∨ hw'.phase = .counted ∨ hw'.phase = .build ∨ hw'.phase = .ready →
      hw.phase = .idle ∨ hw.phase = .count ∨ hw.phase = .counted ∨ hw.phase = .build ∨ hw.phase = .ready) : hw'.EncodeInv := by
  obtain ⟨ha, hn⟩ := hacc
  obtain ⟨hi, ho, hbits⟩ := henc
  obtain ⟨hl, hv⟩ := hlast
  exact {
    acc := by rw [ha, hn]; exact h.acc
    length := by rw [hi]; exact h.length.trans ht
    bits := by rw [hbits, hi]; exact h.bits
    running := by rw [hv, hn, hbits, ho, hl]; exact h.running
    finished := by rw [hv, hn, hl, hbits, ho]; exact h.finished
    encode := fun p => hv.trans (h.encode (he p))
    done := fun p => by rw [hv, hi, (hd p).2]; exact h.done (hd p).1
    before := fun p => by rw [hi, hv]; exact h.before (hb p) }

/-- A DATA beat of pass 2 (45_stream_encoder.md R222, R232). -/
theorem Hw.EncodeInv.encoded {hw hw' : Hw} {depth : Nat} {b : Byte} (h : hw.EncodeInv) (hp : hw.phase = .encode)
    (hroom : hw.outq.length + hw.needData b ≤ depth) (hmore : hw.encIn ≠ hw.total) (hcode : (hw.codeAt b).len ≠ 0)
    (hlen : (hw.codeAt b).len ≤ 255) (he : hw.encodeSymbol depth b = some hw') : hw'.EncodeInv := by
  obtain ⟨acc, nacc, bytes, rfl, -, hnacc, hacc⟩ := Hw.encodeSymbol_next hroom hmore hcode he
  have hlb := h.encode hp
  obtain ⟨hn, ho, hl⟩ := h.running hlb
  exact {
    acc := hacc h.acc
    length := Nat.lt_of_le_of_ne h.length hmore
    bits := by have := h.bits; simp only; omega
    running := fun _ => ⟨by simp only; omega, by simp only; omega, hl⟩
    finished := by simp [hlb]
    encode := fun _ => hlb
    done := by simp [hp]
    before := by simp [hp] }

/-- The END beat of pass 2 (45_stream_encoder.md R226, R232). -/
theorem Hw.EncodeInv.ended {hw hw' : Hw} {depth : Nat} (h : hw.EncodeInv) (hp : hw.phase = .encode)
    (hroom : hw.outq.length + hw.needEnd ≤ depth) (hall : hw.encIn = hw.total) (he : hw.finishEncode depth = some hw') :
    hw'.EncodeInv := by
  obtain ⟨-, rfl⟩ := Hw.finishEncode_next hroom hall he
  obtain ⟨hn, ho, -⟩ := h.running (h.encode hp)
  exact {
    acc := by simp
    length := h.length
    bits := h.bits
    running := nofun
    finished := fun _ => ⟨rfl, hn, by simp only; split <;> omega⟩
    encode := nofun
    done := fun _ => ⟨rfl, hall⟩
    before := by simp }

theorem Hw.Moves.encodeInv {c : Config} {hw hw' : Hw} (hm : hw.Moves c hw') (hlen : ∀ b, (hw.codeAt b).len ≤ 255)
    (h : hw.EncodeInv) : hw'.EncodeInv := by
  cases hm with
  | stays => exact h
  | clears | resets | opens => exact .of_start ⟨rfl, rfl⟩ ⟨rfl, rfl, rfl⟩ ⟨rfl, rfl⟩ (by simp)
  | errs => exact h.of_same ⟨rfl, rfl⟩ ⟨rfl, rfl, rfl⟩ ⟨rfl, rfl⟩ le_rfl (by simp) (by simp) (by simp)
  | starts hp | counts b hp | counted hp | builds hp | plants hp | generates _ _ _ hp =>
    exact h.of_same ⟨rfl, rfl⟩ ⟨rfl, rfl, rfl⟩ ⟨rfl, rfl⟩ (by simp) (by simp [hp]) (by simp [hp]) (by simp [hp])
  | sorts | merges | delivers =>
    exact h.of_same ⟨rfl, rfl⟩ ⟨rfl, rfl, rfl⟩ ⟨rfl, rfl⟩ le_rfl id (fun p => ⟨p, rfl⟩) id
  | encodes b hw' hp hroom hmore hcode he => exact h.encoded hp hroom hmore hcode (hlen b) he
  | finishes hw' hp hroom hall he => exact h.ended hp hroom hall he

/-! ## The output queue -/

/-- An error entry leaves the one ABORT beat in OUTQ, or OUTQ was empty and stays so (60_exceptions.md R252). -/
theorem Hw.raise_outq (hw : Hw) (e : ErrCode) :
    (hw.raise e).outq = [.abort] ∨ ((hw.raise e).outq = [] ∧ hw.outq = []) := by
  unfold Hw.raise
  by_cases hq : hw.phase = .encode ∨ hw.outq ≠ []
  · exact .inl (if_pos hq)
  · obtain ⟨-, hempty⟩ := not_or.1 hq
    have hempty := not_not.1 hempty
    exact .inr ⟨(if_neg hq).trans hempty, hempty⟩

/-- CLEAR leaves in OUTQ the one ABORT beat or nothing (40_commands.md R122). -/
theorem Hw.clear_outq (hw : Hw) : hw.clear.outq = [] ∨ hw.clear.outq = [.abort] := by
  unfold Hw.clear
  by_cases hq : hw.phase = .encode ∨ hw.outq ≠ []
  · exact .inr (if_pos hq)
  · exact .inl (if_neg hq)

theorem Hw.QueueInv.of_abort {hw : Hw} {c : Config} (hc : c.Legal) (hq : hw.outq = [] ∨ hw.outq = [.abort]) : hw.QueueInv c where
  depth := by
    obtain ⟨-, -, hdepth, -⟩ := hc
    obtain hq | hq := hq <;> simp only [hq, List.length_nil, List.length_singleton] <;> omega
  rest := fun _ _ => hq

theorem Hw.QueueInv.of_same {hw hw' : Hw} {c : Config} (h : hw.QueueInv c) (hq : hw'.outq = hw.outq)
    (hp : hw'.phase ≠ .encode → hw'.phase ≠ .done → hw.phase ≠ .encode ∧ hw.phase ≠ .done) : hw'.QueueInv c where
  depth := hq ▸ h.depth
  rest := fun he hd => hq ▸ h.rest (hp he hd).1 (hp he hd).2

/-- The sink's take (45_stream_encoder.md R229). -/
theorem Hw.QueueInv.delivered {hw : Hw} {c : Config} {b : OutBeat} {rest : List OutBeat} (h : hw.QueueInv c)
    (hq : hw.outq = b :: rest) : ({ hw with outq := rest } : Hw).QueueInv c where
  depth := by have := h.depth; rw [hq] at this; exact Nat.le_of_succ_le this
  rest := fun he hd => by have := h.rest he hd; simp_all

theorem Hw.Moves.queueInv {c : Config} {hw hw' : Hw} (hm : hw.Moves c hw') (hc : c.Legal) (h : hw.QueueInv c) : hw'.QueueInv c := by
  cases hm with
  | stays => exact h
  | clears => exact .of_abort hc hw.clear_outq
  | resets => exact .of_abort hc (.inl rfl)
  | errs e => exact .of_abort hc ((hw.raise_outq e).symm.imp_left And.left)
  | starts hp | counted hp | builds hp | plants hp | generates _ _ _ hp => exact h.of_same rfl (by simp [hp])
  | counts | sorts | merges => exact h.of_same rfl fun he hd => ⟨he, hd⟩
  | opens => exact h.of_same rfl (by simp)
  | encodes b hw' hp hroom hmore hcode he =>
    obtain ⟨acc, nacc, bytes, rfl, hbytes, -⟩ := Hw.encodeSymbol_next hroom hmore hcode he
    rw [Hw.needData, if_neg (not_or.2 ⟨hmore, hcode⟩)] at hroom
    exact ⟨by simp only [List.length_append, List.length_map, hbytes]; exact hroom, by simp [hp]⟩
  | finishes hw' hp hroom hall he =>
    obtain ⟨hlast, rfl⟩ := Hw.finishEncode_next hroom hall he
    exact ⟨by simp only [List.length_append]; exact hlast, by simp⟩
  | delivers b rest hq => exact h.delivered hq

/-! ## The error register -/

theorem Hw.ErrorInv.of_same {hw hw' : Hw} (h : hw.ErrorInv) (hc : hw'.errCode = hw.errCode) (he : hw'.errPhase = hw.errPhase)
    (hp : hw'.phase = .error ↔ hw.phase = .error) : hw'.ErrorInv where
  code := by rw [hp, hc]; exact h.code
  clear := by rw [hc, he]; exact h.clear
  phase := by rw [he]; exact h.phase

/-- The first error is kept with the phase it was raised in (60_exceptions.md R252). -/
theorem Hw.ErrorInv.raise {hw : Hw} (h : hw.ErrorInv) {e : ErrCode} (hp : hw.phase ≠ .error) (he : e ≠ .none) :
    (hw.raise e).ErrorInv where
  code := iff_of_true rfl (hw.raise_errCode_ne_none he)
  clear := fun hc => absurd hc (hw.raise_errCode_ne_none he)
  phase := by
    have hnone : hw.errCode = .none := not_not.1 (mt h.code.2 hp)
    show (if hw.errCode = .none then hw.phase else hw.errPhase) ≠ .error
    rwa [if_pos hnone]

theorem Hw.Moves.errorInv {c : Config} {hw hw' : Hw} (hm : hw.Moves c hw') (h : hw.ErrorInv) : hw'.ErrorInv := by
  cases hm with
  | stays => exact h
  | clears | resets => exact ⟨by simp, fun _ => rfl, by simp⟩
  | errs e hp he => exact h.raise hp he
  | starts hp | counted hp | builds hp | plants hp | generates _ _ _ hp => exact h.of_same rfl rfl (by simp [hp])
  | counts | sorts | merges | delivers => exact h.of_same rfl rfl Iff.rfl
  | opens hp => obtain hp | ⟨hp, -⟩ := hp <;> exact h.of_same rfl rfl (by simp [hp])
  | encodes b hw' _ hroom hmore hcode he =>
    obtain ⟨acc, nacc, bytes, rfl, -⟩ := Hw.encodeSymbol_next hroom hmore hcode he
    exact h.of_same rfl rfl Iff.rfl
  | finishes hw' hp hroom hall he =>
    obtain ⟨-, rfl⟩ := Hw.finishEncode_next hroom hall he
    exact h.of_same rfl rfl (by simp [hp])

/-! ## The whole invariant -/

/-- A move of HUFENC's own state under the same parameters keeps the invariant. -/
theorem State.Inv.of_moves {s t : State} (h : s.Inv) (hc : t.cfg = s.cfg) (hm : s.hw.Moves s.cfg t.hw) : t.Inv where
  config := hc ▸ h.config
  count := hc ▸ hm.countInv h.count
  build := hm.buildInv h.build
  encode := hm.encodeInv (fun b => (h.build.code_fits b).2) h.encode
  queue := hc ▸ hm.queueInv h.config h.queue
  error := hm.errorInv h.error

/-- Settles O57: a step is a move of HUFENC's own state, and each part of the invariant is kept by every move. -/
theorem stepKeepsTheInvariant : Obligations.StepKeepsTheInvariant := fun _ _ h hs =>
  have ⟨hc, hm⟩ := step_moves hs
  h.of_moves hc hm

/-- Settles O56: the reset table meets each part of the invariant, under the default parameters. -/
theorem resetMeetsTheInvariant : Obligations.ResetMeetsTheInvariant := by
  unfold Obligations.ResetMeetsTheInvariant
  have hc : State.reset.cfg.Legal := by decide
  exact {
    config := hc
    count := Hw.reset_countInv _ _ rfl rfl rfl rfl
    build := .of_unbuilt (reset_unbuilt rfl rfl rfl rfl rfl rfl) rfl (.inl rfl)
    encode := .of_start ⟨rfl, rfl⟩ ⟨rfl, rfl, rfl⟩ ⟨rfl, rfl⟩ (by decide)
    queue := .of_abort hc (.inl rfl)
    error := ⟨by decide, fun _ => rfl, by decide⟩ }

end Sys2Proof.Machine

/-! # State: the tree of a built state, and OUTQ as a queue (10_state.md R38, R41) -/

namespace Sys2Proof.Machine

/-! ## The nodes of a stored tree -/

/-- Every slot of a stored tree holds the leaf of one of its symbols, or the node over two other slots of the tree. -/
theorem HTree.Stored.nodeAt_cases {hw : Hw} {t : HTree} (h : t.Stored hw) (hn : t.slots.Nodup) {i : NodeIx} (hi : i ∈ t.slots) :
    (∃ b ∈ t.syms, hw.nodeAt i = hw.leafOf b) ∨
      ∃ l ∈ t.slots, ∃ r ∈ t.slots, l ≠ r ∧ hw.nodeAt i = hw.mergedNode l r := by
  induction t with
  | leaf j b =>
    obtain rfl : i = j := List.mem_singleton.1 hi
    exact .inl ⟨b, List.mem_singleton_self b, h⟩
  | branch j l r hl hr =>
    obtain ⟨hj, h1, h2⟩ := h
    obtain ⟨-, hn⟩ := List.nodup_cons.1 hn
    obtain ⟨n1, n2, hdisj⟩ := List.nodup_append.1 hn
    simp only [HTree.slots, HTree.syms, List.mem_cons, List.mem_append] at hi ⊢
    obtain rfl | hi | hi := hi
    · exact .inr ⟨_, .inr (.inl l.slot_mem), _, .inr (.inr r.slot_mem), hdisj _ l.slot_mem _ r.slot_mem, hj⟩
    · obtain ⟨b, hb, e⟩ | ⟨x, hx, y, hy, hne, e⟩ := hl h1 n1 hi
      · exact .inl ⟨b, .inl hb, e⟩
      · exact .inr ⟨x, .inr (.inl hx), y, .inr (.inl hy), hne, e⟩
    · obtain ⟨b, hb, e⟩ | ⟨x, hx, y, hy, hne, e⟩ := hr h2 n2 hi
      · exact .inl ⟨b, .inr hb, e⟩
      · exact .inr ⟨x, .inr (.inr hx), y, .inr (.inr hy), hne, e⟩

section SoleTree

variable {hw : Hw} {t : HTree} (h : hw.Forest [t])
include h

/-- The sole tree of a forest reaches every allocated slot once (10_state.md R41). -/
theorem Hw.Forest.sole_slots : (t.slots.map Fin.val).Perm (List.range hw.nnodes) := by simpa using h.slots

theorem Hw.Forest.sole_slots_nodup : t.slots.Nodup :=
  List.Nodup.of_map _ (h.sole_slots.nodup_iff.2 List.nodup_range)

theorem Hw.Forest.mem_sole_slots {i : NodeIx} : i ∈ t.slots ↔ i.val < hw.nnodes := by
  rw [← List.mem_map_of_injective Fin.val_injective, h.sole_slots.mem_iff, List.mem_range]

/-- The leaves of the sole tree are the symbols present (10_state.md R41). -/
theorem Hw.Forest.mem_sole_syms {b : Byte} : b ∈ t.syms ↔ 0 < hw.histAt b := by
  have hs : t.syms.Perm hw.present := by simpa using h.syms
  rw [hs.mem_iff, mem_present]

end SoleTree

/-- Settles O23: the one tree of a built state, whose slots are the allocated ones. -/
theorem treeInvariantOfBuiltStates : Obligations.TreeInvariantOfBuiltStates := by
  intro s h hp hv
  obtain ⟨t, hf, -, hroot, -⟩ | ⟨-, hv', -⟩ := h.build.built hp
  · have ht : t ∈ [t] := List.mem_singleton_self t
    refine ⟨⟨t, hf.stored t ht, hroot.symm, hf.sole_slots, hf.syms_nodup ht, fun b => hf.mem_sole_syms⟩, fun i hi => ?_⟩
    obtain ⟨b, hb, e⟩ | ⟨l, hl, r, hr, hne, e⟩ :=
      (hf.stored t ht).nodeAt_cases hf.sole_slots_nodup (hf.mem_sole_slots.2 hi) <;> rw [e]
    · exact ⟨nofun, fun _ => ⟨rfl, hf.mem_sole_syms.1 hb⟩⟩
    · exact ⟨fun _ => ⟨hne, hf.mem_sole_slots.1 hl, hf.mem_sole_slots.1 hr, rfl⟩, nofun⟩
  · rw [hv] at hv'; cases hv'

/-! ## What a step does to OUTQ -/

/-- What a step may do to OUTQ and to what the sink has taken: append, deliver the head, leave an artifact's ABORT on an error, or
leave it or nothing in IDLE (10_state.md R38). -/
def State.QueueStep (s t : State) : Prop :=
  (∃ new, t.hw.outq = s.hw.outq ++ new ∧ t.env.taken = s.env.taken) ∨
    (∃ b, s.hw.outq = b :: t.hw.outq ∧ t.env.taken = s.env.taken ++ [b]) ∨
    (t.hw.phase = .error ∧ t.hw.outq = [.abort] ∧ t.env.taken = s.env.taken) ∨
    (t.hw.phase = .idle ∧ (t.hw.outq = [.abort] ∨ t.hw.outq = []) ∧ t.env.taken = s.env.taken)

theorem State.QueueStep.of_same {s t : State} (hq : t.hw.outq = s.hw.outq) (ht : t.env.taken = s.env.taken) : s.QueueStep t :=
  .inl ⟨[], by simp [hq], ht⟩

/-- The sink takes the head (45_stream_encoder.md R229). -/
theorem State.deliver_queueStep {s : State} {b : OutBeat} {rest : List OutBeat} (hq : s.hw.outq = b :: rest) :
    s.QueueStep (s.deliver b rest) :=
  .inr (.inl ⟨b, hq, rfl⟩)

/-- The error entry (60_exceptions.md R252). -/
theorem State.QueueStep.of_raise {s t : State} {e : ErrCode} (hh : t.hw = s.hw.raise e) (ht : t.env.taken = s.env.taken) :
    s.QueueStep t := by
  obtain hq | hq := s.hw.raise_outq e
  · exact .inr (.inr (.inl ⟨by rw [hh]; rfl, by rw [hh, hq], ht⟩))
  · exact .of_same (by rw [hh, hq.1, hq.2]) ht

/-- CLEAR and reset (40_commands.md R122, 70_reset_and_hazards.md R280). -/
theorem State.QueueStep.of_idle {s t : State} (hp : t.hw.phase = .idle) (hq : t.hw.outq = [] ∨ t.hw.outq = [.abort])
    (ht : t.env.taken = s.env.taken) : s.QueueStep t :=
  .inr (.inr (.inr ⟨hp, hq.symm, ht⟩))

/-! ## The shared operations on OUTQ -/

theorem command_queueStep {ok : Bool} {act : Hw → Hw} {s t : State} (ha : (act s.hw).outq = s.hw.outq)
    (h : command ok act s = .next t) : s.QueueStep t := by
  unfold command at h
  split at h
  · cases h; exact .of_same rfl rfl
  · split at h <;> cases h
    · exact .of_same ha rfl
    · exact .of_raise rfl rfl

theorem illegalCommand_queueStep {s t : State} (h : illegalCommand s = .next t) : s.QueueStep t := by
  unfold illegalCommand at h
  split at h <;> cases h
  · exact .of_same rfl rfl
  · exact .of_raise rfl rfl

theorem transfer_queueStep {b : OutBeat} {s t : State} (h : transfer b s = .next t) : s.QueueStep t := by
  unfold transfer waits at h
  split at h
  · rename_i hq
    split at h <;> cases h
    · rename_i hb; exact State.deliver_queueStep (hb ▸ hq)
    · exact .of_same rfl rfl
  · cases h; exact .of_same rfl rfl

theorem acceptAndRaise_queueStep {e : ErrCode} {s t : State} (h : acceptAndRaise e s = .next t) : s.QueueStep t := by
  cases h; exact .of_raise rfl rfl

theorem acceptWith_queueStep {hw : Hw} {s t : State} (new : List OutBeat) (hq : hw.outq = s.hw.outq ++ new)
    (h : acceptWith hw s = .next t) : s.QueueStep t := by
  cases h; exact .inl ⟨new, hq, rfl⟩

theorem waits_queueStep {s t : State} (h : waits s = .next t) : s.QueueStep t := by
  cases h; exact .of_same rfl rfl

/-! ## Every instruction on OUTQ -/

theorem execClear_queueStep {s t : State} (h : execClear s = .next t) : s.QueueStep t := by
  cases h; exact .of_idle rfl s.hw.clear_outq rfl

theorem execCount_queueStep {s t : State} (h : execCount s = .next t) : s.QueueStep t := command_queueStep rfl h

theorem execBuild_queueStep {s t : State} (h : execBuild s = .next t) : s.QueueStep t := command_queueStep rfl h

theorem execEncode_queueStep {s t : State} (h : execEncode s = .next t) : s.QueueStep t := command_queueStep rfl h

theorem performCommand_queueStep {v : Word} {s t : State} (h : performCommand v s = .next t) : s.QueueStep t := by
  unfold performCommand at h
  split at h
  · exact illegalCommand_queueStep h
  · split at h
    · cases h; exact .of_same rfl rfl
    · exact execClear_queueStep h
    · exact execCount_queueStep h
    · exact execBuild_queueStep h
    · exact execEncode_queueStep h
    · exact illegalCommand_queueStep h

theorem execInDataCount_queueStep {b : Byte} {s t : State} (h : execInDataCount b s = .next t) : s.QueueStep t := by
  unfold execInDataCount at h
  split at h
  · exact waits_queueStep h
  · split at h
    · exact acceptAndRaise_queueStep h
    · exact acceptWith_queueStep [] (by simp) h

theorem execInEndCount_queueStep {d : Byte} {s t : State} (h : execInEndCount d s = .next t) : s.QueueStep t := by
  unfold execInEndCount at h
  split at h
  · exact waits_queueStep h
  · exact acceptWith_queueStep [] (by simp) h

theorem execInErrorCount_queueStep {d : Byte} {s t : State} (h : execInErrorCount d s = .next t) : s.QueueStep t := by
  unfold execInErrorCount at h
  split at h
  · exact waits_queueStep h
  · exact acceptAndRaise_queueStep h

theorem execInErrorEncode_queueStep {d : Byte} {s t : State} (h : execInErrorEncode d s = .next t) : s.QueueStep t := by
  unfold execInErrorEncode at h
  split at h
  · exact waits_queueStep h
  · exact acceptAndRaise_queueStep h

/-- A DATA beat of pass 2 appends the bytes its code fills (45_stream_encoder.md R221, R222). -/
theorem execInDataEncode_queueStep {b : Byte} {s t : State} (h : execInDataEncode b s = .next t) : s.QueueStep t := by
  unfold execInDataEncode at h
  split at h
  · exact waits_queueStep h
  · split at h
    · exact waits_queueStep h
    · rename_i hroom
      split at h
      · exact acceptAndRaise_queueStep h
      · rename_i hmore
        split at h
        · exact acceptAndRaise_queueStep h
        · rename_i hcode
          split at h
          · rename_i he
            obtain ⟨acc, nacc, bytes, rfl, -⟩ :=
              Hw.encodeSymbol_next (by simpa [State.hasRoom] using hroom) hmore hcode he
            exact acceptWith_queueStep (bytes.map .data) rfl h
          · cases h

/-- The END beat of pass 2 appends the pad byte there may be and the END beat (45_stream_encoder.md R226). -/
theorem execInEndEncode_queueStep {d : Byte} {s t : State} (h : execInEndEncode d s = .next t) : s.QueueStep t := by
  unfold execInEndEncode at h
  split at h
  · exact waits_queueStep h
  · split at h
    · exact waits_queueStep h
    · rename_i hroom
      split at h
      · exact acceptAndRaise_queueStep h
      · rename_i hall
        split at h
        · rename_i he
          obtain ⟨-, rfl⟩ := Hw.finishEncode_next (by simpa [State.hasRoom] using hroom) (not_not.1 hall) he
          exact acceptWith_queueStep s.hw.lastBeats rfl h
        · cases h

theorem execSnkTake_queueStep {s t : State} (h : execSnkTake s = .next t) : s.QueueStep t := by
  unfold execSnkTake waits at h
  split at h <;> cases h
  · exact State.deliver_queueStep ‹_›
  · exact .of_same rfl rfl

theorem execSnkFail_queueStep {s t : State} (h : execSnkFail s = .next t) : s.QueueStep t := by
  unfold execSnkFail at h
  split at h <;> cases h
  · exact .of_raise rfl rfl
  · exact .of_same rfl rfl

theorem execRegRead_queueStep {a : WordAddr} {s t : State} (h : execRegRead a s = .next t) : s.QueueStep t := by
  unfold execRegRead at h
  split at h <;> cases h <;> exact .of_same rfl rfl

theorem execSort_queueStep {s t : State} (h : execSort s = .next t) : s.QueueStep t := by
  unfold execSort at h
  split at h
  · cases h; exact .of_same rfl rfl
  · exact waits_queueStep h

theorem execMerge_queueStep {s t : State} (h : execMerge s = .next t) : s.QueueStep t := by
  unfold execMerge at h
  split at h
  · split at h
    · split at h <;> cases h
      exact .of_same rfl rfl
    · cases h
  · exact waits_queueStep h

theorem execCodegen_queueStep {s t : State} (h : execCodegen s = .next t) : s.QueueStep t := by
  unfold execCodegen at h
  split at h
  · split at h
    · cases h; exact .of_same rfl rfl
    · split at h <;> cases h
      exact .of_same rfl rfl
  · exact waits_queueStep h

/-- Every instruction, in every state. -/
theorem exec_queueStep (i : Instr) {s t : State} (h : exec i s = .next t) : s.QueueStep t := by
  cases i with
  | nop => cases h; exact .of_same rfl rfl
  | clear => exact execClear_queueStep h
  | count => exact execCount_queueStep h
  | build => exact execBuild_queueStep h
  | encode => exact execEncode_queueStep h
  | cmdIllegalOp5 | cmdIllegalOp67 | cmdIllegalOp8F | cmdIllegalRsvd => exact illegalCommand_queueStep h
  | inDataCount => exact execInDataCount_queueStep h
  | inEndCount d => exact execInEndCount_queueStep (d := d) h
  | inErrorCount d | inRsvdCount d => exact execInErrorCount_queueStep (d := d) h
  | inDataEncode => exact execInDataEncode_queueStep h
  | inEndEncode d => exact execInEndEncode_queueStep (d := d) h
  | inErrorEncode d | inRsvdEncode d => exact execInErrorEncode_queueStep (d := d) h
  | inAnyOther => exact waits_queueStep h
  | outData | outEnd | outAbort => exact transfer_queueStep h
  | regRead => exact execRegRead_queueStep h
  | regWrite a v =>
    simp only [exec, execRegWrite] at h
    split at h
    · exact performCommand_queueStep h
    · cases h; exact .of_same rfl rfl
  | snkTake => exact execSnkTake_queueStep h
  | snkFail => exact execSnkFail_queueStep h
  | sort => exact execSort_queueStep h
  | merge => exact execMerge_queueStep h
  | codegen => exact execCodegen_queueStep h
  | reset => cases h; exact .of_idle rfl (.inl rfl) rfl

/-- Taking a turn changes neither OUTQ nor what the sink has taken; the instruction it presents may. -/
theorem step_queueStep {s t : State} (h : step s = .next t) : s.QueueStep t := by
  obtain ⟨i, -, h⟩ | ⟨-, rfl⟩ | ⟨-, rfl⟩ := step_next h
  · exact exec_queueStep i (s := s.afterTurn) h
  · exact .of_same rfl rfl
  · exact .of_same rfl rfl

/-- Settles O39: what a step does to OUTQ does not rest on the invariant. -/
theorem outputQueueIsFirstInFirstOut : Obligations.OutputQueueIsFirstInFirstOut := fun _ _ _ h => step_queueStep h

end Sys2Proof.Machine

/-! # Memory: the register port, the input port and the output port (20_memory.md R62 to R73) -/

namespace Sys2Proof.Machine

/-! ## Register writes -/

/-- The decoder and the register port read a command word alike: RSVD first, then OP (20_memory.md R63). -/
theorem exec_decodeCommand (v : Word) (s : State) : exec (decodeCommand v) s = performCommand v s := by
  unfold decodeCommand performCommand
  by_cases hr : rsvdField v ≠ 0#28
  · rw [if_pos hr, if_pos hr]; rfl
  · rw [if_neg hr, if_neg hr]
    match (opField v).toNat with
    | 0 | 1 | 2 | 3 | 4 | 5 | 6 | 7 => rfl
    | _ + 8 => rfl

theorem addrOf_toNat {off : Nat} (h : off ≤ 0x7FFC) : (addrOf off).toNat = off / 4 := by
  rw [addrOf, BitVec.toNat_ofNat]
  exact Nat.mod_eq_of_lt (by omega)

/-- Of the aligned offsets, 0x004 alone is CMD (30_encoding.md R95). -/
theorem addrOf_ne_cmdAddr {off : Nat} (h4 : off % 4 = 0) (h : off ≤ 0x7FFC) (hne : off ≠ 0x0004) : addrOf off ≠ cmdAddr := by
  intro he
  have hn : (addrOf off).toNat = 1 := by rw [he]; rfl
  rw [addrOf_toNat h] at hn
  omega

/-- Settles O6: the write at CMD performs the command that the decoder reads in its word, and no other aligned offset is CMD. -/
theorem registerWriteEffects : Obligations.RegisterWriteEffects := fun s v =>
  ⟨(exec_decodeCommand v s).symm, fun _ h4 h hne => if_neg (addrOf_ne_cmdAddr h4 h hne)⟩

/-! ## Register reads -/

theorem exec_regRead_of_open {s : State} {a : WordAddr} (hp : s.hw.phase = .build) (ha : (regAt a).openInBuild = true) :
    exec (.regRead a) s = .next s.returnFree := if_pos ⟨hp, ha⟩

theorem exec_regRead_of_specified {s : State} {a : WordAddr} (h : ¬ (s.hw.phase = .build ∧ (regAt a).openInBuild = true)) :
    exec (.regRead a) s = .next (s.returnWord (s.regWord (regAt a))) := if_neg h

/-- Of the registers 0x0000 to 0x0040, those of R68 are ROOT, NNODES and SEQLEN. -/
theorem openInBuild_lowReg (n : Nat) : (lowReg n).openInBuild = true ↔ n = 7 ∨ n = 8 ∨ n = 9 := by
  match n with
  | 0 | 1 | 2 | 3 | 4 | 5 | 6 | 7 | 8 | 9 | 10 | 11 | 12 | 13 | 14 | 15 | 16 => decide
  | n + 17 => exact iff_of_false nofun (by omega)

/-- The register map puts the registers of R68 at the offsets of R68 (20_memory.md R68, 30_encoding.md R95). -/
theorem openInBuild_regAt_addrOf {off : Nat} (h4 : off % 4 = 0) (h : off ≤ 0x7FFC) :
    (regAt (addrOf off)).openInBuild = true ↔ OpenInBuild off := by
  unfold regAt
  simp only [addrOf_toNat h]
  split
  · rw [openInBuild_lowReg]; omega
  split
  · exact iff_of_false nofun (by omega)
  split
  · exact iff_of_false nofun (by omega)
  split
  · refine iff_of_true ?_ (by omega)
    split <;> rfl
  split
  · exact iff_of_false nofun (by omega)
  split
  · exact iff_of_true rfl (by omega)
  · exact iff_of_false nofun (by omega)

/-- Settles O41: the registers of R68 stand at the offsets of R68, and a read looks at nothing else. -/
theorem buildReadsAreFreshDraws : Obligations.BuildReadsAreFreshDraws := fun _ _ hp h4 h =>
  have hiff := openInBuild_regAt_addrOf h4 h
  ⟨fun ho => exec_regRead_of_open hp (hiff.2 ho), fun ho => exec_regRead_of_specified fun hb => ho (hiff.1 hb.2)⟩

/-- The record of what reads returned is no part of any register (20_memory.md R66). -/
@[simp] theorem State.returnWord_regWord (s : State) (v : Word) (r : Reg) : (s.returnWord v).regWord r = s.regWord r := rfl

/-- Settles O40: either read only records what it returned; outside BUILD that is the register's word, twice the same. -/
theorem readsHaveNoSideEffect : Obligations.ReadsHaveNoSideEffect := by
  intro s a
  by_cases ho : s.hw.phase = .build ∧ (regAt a).openInBuild = true
  · exact ⟨s.returnFree, _, exec_regRead_of_open ho.1 ho.2, rfl, rfl, rfl, rfl, rfl, rfl, fun hp => absurd ho.1 hp⟩
  · refine ⟨_, _, exec_regRead_of_specified ho, rfl, rfl, rfl, rfl, rfl, rfl, fun _ => ⟨rfl, _, exec_regRead_of_specified ho, ?_⟩⟩
    simp

/-! ## The input port -/

/-- The step accepts the offered beat: of the environment's side, the source's list alone moves on (20_memory.md R72). -/
def State.Accepts (s : State) (r : Result) : Prop := ∃ t, r = .next t ∧ t.env = { s.env with src := s.env.src.tail }

theorem acceptAndRaise_accepts (c : ErrCode) (s : State) : s.Accepts (acceptAndRaise c s) := ⟨_, rfl, rfl⟩

theorem acceptWith_accepts (hw : Hw) (s : State) : s.Accepts (acceptWith hw s) := ⟨_, rfl, rfl⟩

section Rows

variable {s : State}

/-- A row of pass 1 waits in every other phase (00_scope.md R15). -/
theorem exec_countRow_waits (hp : s.hw.phase ≠ .count) (d : Byte) :
    ∀ i ∈ [Instr.inDataCount d, .inEndCount d, .inErrorCount d, .inRsvdCount d], exec i s = .next s := by
  simp only [List.forall_mem_cons]
  exact ⟨if_pos hp, if_pos hp, if_pos hp, if_pos hp, nofun⟩

/-- A row of pass 2 waits in every other phase (00_scope.md R15). -/
theorem exec_encodeRow_waits (hp : s.hw.phase ≠ .encode) (d : Byte) :
    ∀ i ∈ [Instr.inDataEncode d, .inEndEncode d, .inErrorEncode d, .inRsvdEncode d], exec i s = .next s := by
  simp only [List.forall_mem_cons]
  exact ⟨if_pos hp, if_pos hp, if_pos hp, if_pos hp, nofun⟩

/-- In pass 1 every row accepts its beat (41_frequency_counter.md R140). -/
theorem exec_countRow_accepts (hp : s.hw.phase = .count) (d : Byte) :
    ∀ i ∈ [Instr.inDataCount d, .inEndCount d, .inErrorCount d, .inRsvdCount d], s.Accepts (exec i s) := by
  simp only [List.forall_mem_cons, exec, execInDataCount, execInEndCount, execInErrorCount, execInRsvdCount, hp, ne_eq,
    not_true_eq_false, if_false]
  refine ⟨?_, acceptWith_accepts _ s, acceptAndRaise_accepts _ s, acceptAndRaise_accepts _ s, nofun⟩
  split
  · exact acceptAndRaise_accepts _ s
  · exact acceptWith_accepts _ s

theorem execInDataEncode_accepts {b : Byte} (hp : s.hw.phase = .encode) (hr : s.hw.outq.length + s.hw.needData b ≤ s.cfg.depth) :
    s.Accepts (execInDataEncode b s) := by
  have hroom : s.hasRoom (s.hw.needData b) = true := decide_eq_true hr
  simp only [execInDataEncode, hp, hroom, ne_eq, not_true_eq_false, if_false]
  split
  · exact acceptAndRaise_accepts _ s
  · rename_i hmore
    split
    · exact acceptAndRaise_accepts _ s
    · rename_i hcode
      rw [Hw.needData, if_neg (not_or.2 ⟨hmore, hcode⟩)] at hr
      obtain ⟨hw1, -, he⟩ := Hw.encodeSymbol_spec hr
      rw [he]
      exact acceptWith_accepts _ s

theorem execInEndEncode_accepts (d : Byte) (hp : s.hw.phase = .encode) (hr : s.hw.outq.length + s.hw.needEnd ≤ s.cfg.depth) :
    s.Accepts (execInEndEncode d s) := by
  have hroom : s.hasRoom s.hw.needEnd = true := decide_eq_true hr
  simp only [execInEndEncode, hp, hroom, ne_eq, not_true_eq_false, if_false]
  split
  · exact acceptAndRaise_accepts _ s
  · rename_i hall
    rw [Hw.needEnd, if_neg hall] at hr
    rw [Hw.finishEncode_spec hr]
    exact acceptWith_accepts _ s

/-- The failure rows of pass 2 ask for no room (45_stream_encoder.md R228). -/
theorem execInErrorEncode_accepts (d : Byte) (hp : s.hw.phase = .encode) : s.Accepts (execInErrorEncode d s) := by
  rw [execInErrorEncode, if_neg (not_not.2 hp)]
  exact acceptAndRaise_accepts _ s

/-- A beat without room waits (45_stream_encoder.md R220). -/
theorem execInDataEncode_waits {b : Byte} (hr : s.cfg.depth < s.hw.outq.length + s.hw.needData b) :
    execInDataEncode b s = .next s := by
  have hroom : ¬ s.hasRoom (s.hw.needData b) = true := by simpa [State.hasRoom] using hr
  rw [execInDataEncode, if_pos hroom]
  exact ite_self _

theorem execInEndEncode_waits (d : Byte) (hr : s.cfg.depth < s.hw.outq.length + s.hw.needEnd) :
    execInEndEncode d s = .next s := by
  have hroom : ¬ s.hasRoom s.hw.needEnd = true := by simpa [State.hasRoom] using hr
  rw [execInEndEncode, if_pos hroom]
  exact ite_self _

end Rows

/-! ### By KIND -/

/-- A KIND is one of the four of 30_encoding.md R93. -/
theorem kind_cases (k : BitVec 2) : k = 0#2 ∨ k = 1#2 ∨ k = 2#2 ∨ k = 3#2 := by
  revert k; decide

theorem decodeBeatCount_mem (w : BeatWord) : decodeBeatCount w ∈ [Instr.inDataCount (dataField w), .inEndCount (dataField w),
    .inErrorCount (dataField w), .inRsvdCount (dataField w)] := by
  unfold decodeBeatCount
  split <;> simp

/-- Outside pass 1 and pass 2 a beat is of the row IN_ANY@OTHER (20_memory.md R72). -/
theorem decodeInBeat_other {ph : Phase} (hc : ph ≠ .count) (he : ph ≠ .encode) (w : BeatWord) :
    decodeInBeat ph w = .inAnyOther (kindField w) (dataField w) := by
  match ph with
  | .count => exact absurd rfl hc
  | .encode => exact absurd rfl he
  | .idle | .counted | .build | .ready | .done | .error => rfl

/-- The room a beat offered in pass 2 asks for (45_stream_encoder.md R225). -/
def Hw.need (hw : Hw) (w : BeatWord) : Nat :=
  if kindField w = 0#2 then hw.needData (dataField w) else if kindField w = 1#2 then hw.needEnd else 0

/-- END asks for one entry, and for two when a pad byte goes before it (45_stream_encoder.md R225). -/
theorem Hw.needEnd_eq (hw : Hw) : hw.needEnd = if hw.encIn ≠ hw.total then 0 else if hw.nacc = 0 then 1 else 2 := by
  unfold Hw.needEnd
  by_cases hn : hw.nacc = 0
  · simp [hn]
  · have hpos : 0 < hw.nacc.val := Nat.pos_of_ne_zero fun h => hn (Fin.ext h)
    simp [hn, hpos]

/-- What a beat of each KIND is in pass 2 (45_stream_encoder.md R220), with the room it asks for. -/
theorem decodeBeatEncode_cases (hw : Hw) (w : BeatWord) :
    (decodeBeatEncode w = .inDataEncode (dataField w) ∧ hw.need w = hw.needData (dataField w)) ∨
    (decodeBeatEncode w = .inEndEncode (dataField w) ∧ hw.need w = hw.needEnd) ∨
    ((decodeBeatEncode w = .inErrorEncode (dataField w) ∨ decodeBeatEncode w = .inRsvdEncode (dataField w)) ∧ hw.need w = 0) := by
  unfold decodeBeatEncode Hw.need
  obtain hk | hk | hk | hk := kind_cases (kindField w) <;> simp [hk]

section Encode

variable {s : State} {w : BeatWord}

theorem exec_decodeBeatEncode_accepts (hp : s.hw.phase = .encode) (hr : s.hw.outq.length + s.hw.need w ≤ s.cfg.depth) :
    s.Accepts (exec (decodeBeatEncode w) s) := by
  obtain ⟨hi, hn⟩ | ⟨hi, hn⟩ | ⟨hi | hi, -⟩ := decodeBeatEncode_cases s.hw w <;> rw [hi]
  · exact execInDataEncode_accepts hp (hn ▸ hr)
  · exact execInEndEncode_accepts (dataField w) hp (hn ▸ hr)
  · exact execInErrorEncode_accepts (dataField w) hp
  · exact execInErrorEncode_accepts (dataField w) hp

theorem exec_decodeBeatEncode_waits (hq : s.hw.outq.length ≤ s.cfg.depth) (hr : s.cfg.depth < s.hw.outq.length + s.hw.need w) :
    exec (decodeBeatEncode w) s = .next s := by
  obtain ⟨hi, hn⟩ | ⟨hi, hn⟩ | ⟨-, hn⟩ := decodeBeatEncode_cases s.hw w
  · rw [hi]; exact execInDataEncode_waits (hn ▸ hr)
  · rw [hi]; exact execInEndEncode_waits (dataField w) (hn ▸ hr)
  · rw [hn] at hr; omega

end Encode

/-- Settles O30: by the phase; in ENCODE by the KIND, whose room is `Hw.need`. -/
theorem inputPortAcceptance : Obligations.InputPortAcceptance := by
  intro s w h
  refine ⟨fun hp => ?_, fun hp => ⟨s.hw.need w, ?_, ?_, ?_, fun hr => ?_, fun hr => ?_⟩, fun hc he => ?_⟩
  · rw [hp]; exact exec_countRow_accepts hp _ _ (decodeBeatCount_mem w)
  · exact fun hk => if_pos hk
  · intro hk
    rw [← Hw.needEnd_eq, Hw.need, hk]; rfl
  · intro hk
    unfold Hw.need
    rw [if_neg, if_neg] <;> intro h0 <;> simp [h0] at hk
  · rw [hp]; exact exec_decodeBeatEncode_accepts hp hr
  · rw [hp]; exact exec_decodeBeatEncode_waits h.queue.depth hr
  · rw [decodeInBeat_other hc he]; rfl

/-- Settles O31: each row asks for its phase first. -/
theorem beatsWaitOutsideTheirPhase : Obligations.BeatsWaitOutsideTheirPhase := fun _ _ d =>
  ⟨rfl, fun hp => exec_countRow_waits hp d, fun hp => exec_encodeRow_waits hp d⟩

/-! ## The output port -/

theorem transfer_of_head {s : State} {b : OutBeat} {rest : List OutBeat} (hq : s.hw.outq = b :: rest) :
    transfer b s = .next (s.deliver b rest) := by
  simp [transfer, hq]

theorem transfer_of_other {s : State} {b : OutBeat} (hq : s.hw.outq.head? ≠ some b) : transfer b s = .next s := by
  unfold transfer
  split
  · rename_i hq'
    rw [hq'] at hq
    exact if_neg fun hb => hq (congrArg some hb)
  · rfl

/-- Settles O37: the three rows are the transfer of their beat. -/
theorem outputBeatsTransferTheHead : Obligations.OutputBeatsTransferTheHead := by
  intro s x
  simp only [List.forall_mem_cons]
  exact ⟨⟨fun _ => transfer_of_head, transfer_of_other⟩, ⟨fun _ => transfer_of_head, transfer_of_other⟩,
    ⟨fun _ => transfer_of_head, transfer_of_other⟩, nofun⟩

end Sys2Proof.Machine

/-! # Memory: the agents' turns (20_memory.md R60, R61) -/

namespace Sys2Proof.Machine

/-! ## What a turn comes to -/

section Fetch

variable {s : State}

theorem State.turn_of_cons {e : Event} {es : List Event} (h : s.env.events = e :: es) : s.turn = e := by
  simp [State.turn, h]

theorem State.turn_of_nil (h : s.env.events = []) : s.turn = .core := by
  simp [State.turn, h]

theorem State.fetch_of_ok {p : PortWord} {i : Instr} (hp : s.present s.turn = some p)
    (hd : decode s.hw.phase s.hw.bsub p = .ok i) : s.fetch = .run i := by
  simp [State.fetch, hp, hd]

theorem State.fetch_of_error {p : PortWord} {x : DecodeError} (hp : s.present s.turn = some p)
    (hd : decode s.hw.phase s.hw.bsub p = .error x) : s.fetch = if x = .noCoreStep then .idle else .reject x := by
  cases x <;> simp [State.fetch, hp, hd]

theorem State.fetch_of_none (hp : s.present s.turn = none) : s.fetch = .noBeat := by
  simp [State.fetch, hp]

theorem step_of_run {i : Instr} (h : s.fetch = .run i) : step s = exec i s.afterTurn := by simp [step, h]

theorem step_of_idle (h : s.fetch = .idle) : step s = .next s.afterTurn := by simp [step, h]

theorem step_of_noBeat (h : s.fetch = .noBeat) : step s = .next s.afterTurn.moreBeats := by simp [step, h]

theorem step_of_reject {x : DecodeError} (h : s.fetch = .reject x) : step s = .refused (.undecodable x) := by simp [step, h]

end Fetch

/-- Settles O52: a listed turn is the next one, and what it presents is decoded by PHASE and BSUB. -/
theorem stepRunsTheDecodedInstruction : Obligations.StepRunsTheDecodedInstruction := by
  intro s e es he
  rw [← State.turn_of_cons he, ← State.afterTurn_of_cons he]
  refine ⟨fun p hp => ⟨fun i hd => step_of_run (State.fetch_of_ok hp hd), fun x hd => ?_⟩, fun ht hs => ?_⟩
  · have hf := State.fetch_of_error hp hd
    by_cases hx : x = .noCoreStep
    · rw [if_pos hx] at hf ⊢; exact step_of_idle hf
    · rw [if_neg hx] at hf ⊢; exact step_of_reject hf
  · have hnone : s.present s.turn = none := by simp [ht, State.present, hs]
    rw [step_of_noBeat (State.fetch_of_none hnone), State.afterTurn_of_cons he]
    rfl

/-! ## The core's turn -/

/-- The core step pending in each sub-step (10_state.md R23). -/
def coreStep : BSub → Instr
  | .sort => .sort
  | .merge => .merge
  | .codegen => .codegen

theorem decodeCore_build (bs : BSub) : decodeCore .build bs = .ok (coreStep bs) := by cases bs <;> rfl

/-- Outside BUILD no core step is enabled (30_encoding.md R111). -/
theorem decodeCore_other {ph : Phase} (hp : ph ≠ .build) (bs : BSub) : decodeCore ph bs = .error .noCoreStep := by
  match ph with
  | .build => exact absurd rfl hp
  | .idle | .count | .counted | .ready | .encode | .done | .error => rfl

section Unlisted

variable {s : State} (he : s.env.events = [])
include he

/-- With no turn listed the core has it, and a block of turns is drawn (20_memory.md R61). -/
theorem State.afterTurn_of_nil : s.afterTurn = { s with env := { s.env with
    events := (Config.freeTurns s.env.turnBlocks).map agentStep, turnBlocks := s.env.turnBlocks + 1 } } := by
  obtain ⟨cfg, hw, env⟩ := s; cases env; subst he; rfl

theorem State.present_of_nil : s.present s.turn = some .core := by rw [State.turn_of_nil he]; rfl

theorem step_unlisted_build (hp : s.hw.phase = .build) : step s = exec (coreStep s.hw.bsub) s.afterTurn :=
  step_of_run (State.fetch_of_ok (State.present_of_nil he) (by rw [hp]; exact decodeCore_build _))

theorem step_unlisted_other (hp : s.hw.phase ≠ .build) : step s = .next s.afterTurn :=
  step_of_idle (State.fetch_of_error (State.present_of_nil he) (decodeCore_other hp _))

end Unlisted

/-- Settles O53: by the decoder of the core's turn. -/
theorem coreMovesWhenNoTurnIsListed : Obligations.CoreMovesWhenNoTurnIsListed := by
  intro s s' he hs'
  rw [hs', ← State.afterTurn_of_nil he]
  exact ⟨step_unlisted_build he, step_unlisted_other he⟩

end Sys2Proof.Machine

/-! # Memory: no execution ends, and the core is served (20_memory.md R60, R61) -/

namespace Sys2Proof.Machine

/-! ## The core's pending step fires -/

section CoreStep

variable {hw : Hw} (h : hw.BuildInv) (hp : hw.phase = .build)
include h hp

/-- MERGE finds two entries in SEQ and a free slot (43_tree_builder.md R180, R186). -/
theorem Hw.BuildInv.merge_ready (hb : hw.bsub = .merge) :
    hw.nnodes < 511 ∧ ∃ (a b : NodeIx) (rest : List NodeIx), hw.seq = a :: b :: rest := by
  have hlen := h.merging hp hb
  obtain ⟨ts, hf⟩ := (h.growing hp (by simp [hb])).forest
  have hsum := hf.nnodes_seq
  have hn := present_length_le hw
  refine ⟨by omega, ?_⟩
  match hs : hw.seq with
  | [] | [_] => simp [hs] at hlen
  | a :: b :: rest => exact ⟨a, b, rest, rfl⟩

/-- The walk of CODEGEN ends (44_code_generator.md R200). -/
theorem Hw.BuildInv.codeTable_ready (hb : hw.bsub = .codegen) {r : NodeIx} {rest : List NodeIx} (hs : hw.seq = r :: rest) :
    ∃ code, codeTable hw.node r hw.code = some code := by
  have hlen := h.gathered hp hb
  obtain ⟨ts, hf⟩ := (h.growing hp (by simp [hb])).forest
  obtain rfl : rest = [] := List.eq_nil_of_length_eq_zero (by rw [hs, List.length_cons] at hlen; omega)
  obtain ⟨t, rfl, rfl⟩ := List.map_eq_singleton_iff.1 (hf.roots.symm.trans hs)
  exact ⟨_, codeTable_stored (hf.stored t (List.mem_singleton_self t)) hf.slots_length_le _⟩

/-- In BUILD the pending core step answers, and it changes HUFENC: SORT and CODEGEN leave their sub-step, and MERGE takes a slot. -/
theorem Hw.BuildInv.coreStep_fires :
    ∃ hw', hw' ≠ hw ∧ ∀ s : State, s.hw = hw → exec (coreStep hw.bsub) s = .next (s.withHw hw') := by
  cases hb : hw.bsub with
  | sort =>
    refine ⟨hw.sorted, fun he => ?_, ?_⟩
    · have hsort : hw.sorted.bsub = .sort := by rw [he, hb]
      rw [Hw.sorted_bsub] at hsort
      split at hsort <;> contradiction
    · rintro s rfl
      exact if_pos ⟨hp, hb⟩
  | merge =>
    obtain ⟨hslot, a, b, rest, hs⟩ := h.merge_ready hp hb
    refine ⟨hw.merged a b rest ⟨hw.nnodes, hslot⟩, fun he => ?_, ?_⟩
    · have hn := congrArg Hw.nnodes he
      simp at hn
    · rintro s rfl
      simp [coreStep, exec, execMerge, hp, hb, hs, hslot]
  | codegen =>
    have hleft : ∀ (r : NodeIx) (v : Bool) (code : Vector CodeEntry 256), hw.finishBuild r v code ≠ hw := by
      intro r v code he
      have hph := congrArg Hw.phase he
      simp [hp] at hph
    match hs : hw.seq with
    | [] =>
      refine ⟨_, hleft 0 false hw.code, ?_⟩
      rintro s rfl
      simp [coreStep, exec, execCodegen, hp, hb, hs]
    | r :: rest =>
      obtain ⟨code, hc⟩ := h.codeTable_ready hp hb hs
      refine ⟨_, hleft r true code, ?_⟩
      rintro s rfl
      simp [coreStep, exec, execCodegen, hp, hb, hs, hc]

end CoreStep

/-! ## Every instruction answers -/

/-- The step answers a next state, and the listed turns stay. -/
def State.GoesOn (s : State) (r : Result) : Prop := ∃ t, r = .next t ∧ t.env.events = s.env.events

section GoesOn

variable {s : State}

theorem next_goesOn {t : State} (h : t.env.events = s.env.events) : s.GoesOn (.next t) := ⟨t, rfl, h⟩

theorem waits_goesOn : s.GoesOn (waits s) := next_goesOn rfl

theorem State.Accepts.goesOn {r : Result} (h : s.Accepts r) : s.GoesOn r := by
  obtain ⟨t, hr, ht⟩ := h
  exact ⟨t, hr, by rw [ht]⟩

theorem command_goesOn (ok : Bool) (act : Hw → Hw) : s.GoesOn (command ok act s) := by
  unfold command
  split
  · exact next_goesOn rfl
  · split <;> exact next_goesOn rfl

theorem illegalCommand_goesOn : s.GoesOn (illegalCommand s) := by
  unfold illegalCommand
  split <;> exact next_goesOn rfl

theorem performCommand_goesOn (v : Word) : s.GoesOn (performCommand v s) := by
  unfold performCommand
  split
  · exact illegalCommand_goesOn
  · split
    · exact next_goesOn rfl
    · exact next_goesOn rfl
    · exact command_goesOn ..
    · exact command_goesOn ..
    · exact command_goesOn ..
    · exact illegalCommand_goesOn

theorem execRegWrite_goesOn (a : WordAddr) (v : Word) : s.GoesOn (execRegWrite a v s) := by
  unfold execRegWrite
  split
  · exact performCommand_goesOn v
  · exact next_goesOn rfl

theorem execRegRead_goesOn (a : WordAddr) : s.GoesOn (execRegRead a s) := by
  unfold execRegRead
  split <;> exact next_goesOn rfl

theorem transfer_goesOn (b : OutBeat) : s.GoesOn (transfer b s) := by
  unfold transfer
  split
  · split
    · exact next_goesOn rfl
    · exact waits_goesOn
  · exact waits_goesOn

theorem execSnkTake_goesOn : s.GoesOn (execSnkTake s) := by
  unfold execSnkTake
  split
  · exact next_goesOn rfl
  · exact waits_goesOn

theorem execSnkFail_goesOn : s.GoesOn (execSnkFail s) := by
  unfold execSnkFail
  split <;> exact next_goesOn rfl

theorem exec_countRow_goesOn (d : Byte) :
    ∀ i ∈ [Instr.inDataCount d, .inEndCount d, .inErrorCount d, .inRsvdCount d], s.GoesOn (exec i s) := by
  intro i hi
  by_cases hp : s.hw.phase = .count
  · exact (exec_countRow_accepts hp d i hi).goesOn
  · rw [exec_countRow_waits hp d i hi]; exact waits_goesOn

theorem exec_encodeRow_goesOn (d : Byte) :
    ∀ i ∈ [Instr.inDataEncode d, .inEndEncode d, .inErrorEncode d, .inRsvdEncode d], s.GoesOn (exec i s) := by
  intro i hi
  by_cases hp : s.hw.phase = .encode
  · revert i
    simp only [List.forall_mem_cons]
    refine ⟨?_, ?_, (execInErrorEncode_accepts d hp).goesOn, (execInErrorEncode_accepts d hp).goesOn, nofun⟩
    · by_cases hr : s.hw.outq.length + s.hw.needData d ≤ s.cfg.depth
      · exact (execInDataEncode_accepts hp hr).goesOn
      · exact ⟨s, execInDataEncode_waits (Nat.lt_of_not_le hr), rfl⟩
    · by_cases hr : s.hw.outq.length + s.hw.needEnd ≤ s.cfg.depth
      · exact (execInEndEncode_accepts d hp hr).goesOn
      · exact ⟨s, execInEndEncode_waits d (Nat.lt_of_not_le hr), rfl⟩
  · rw [exec_encodeRow_waits hp d i hi]; exact waits_goesOn

/-- A core step fires in its sub-step of BUILD, and waits elsewhere (30_encoding.md R111). -/
theorem exec_coreStep_goesOn (h : s.hw.BuildInv) (bs : BSub) : s.GoesOn (exec (coreStep bs) s) := by
  by_cases hp : s.hw.phase = .build ∧ s.hw.bsub = bs
  · obtain ⟨hp, rfl⟩ := hp
    obtain ⟨hw', -, hf⟩ := h.coreStep_fires hp
    rw [hf s rfl]; exact next_goesOn rfl
  · cases bs <;> exact ⟨s, if_neg hp, rfl⟩

/-- Under the invariant every instruction answers: no assertion fires, and no agent's turn is lost. -/
theorem State.Inv.exec_goesOn (h : s.Inv) (i : Instr) : s.GoesOn (exec i s) := by
  cases i with
  | nop | clear | reset => exact next_goesOn rfl
  | count => exact (command_goesOn .. : s.GoesOn (execCount s))
  | build => exact (command_goesOn .. : s.GoesOn (execBuild s))
  | encode => exact (command_goesOn .. : s.GoesOn (execEncode s))
  | cmdIllegalOp5 | cmdIllegalOp67 | cmdIllegalOp8F | cmdIllegalRsvd => exact illegalCommand_goesOn
  | inDataCount d | inEndCount d | inErrorCount d | inRsvdCount d => exact exec_countRow_goesOn d _ (by simp)
  | inDataEncode d | inEndEncode d | inErrorEncode d | inRsvdEncode d => exact exec_encodeRow_goesOn d _ (by simp)
  | inAnyOther => exact waits_goesOn
  | outData | outEnd | outAbort => exact transfer_goesOn _
  | regRead a => exact execRegRead_goesOn a
  | regWrite a v => exact execRegWrite_goesOn a v
  | snkTake => exact execSnkTake_goesOn
  | snkFail => exact execSnkFail_goesOn
  | sort => exact exec_coreStep_goesOn h.build .sort
  | merge => exact exec_coreStep_goesOn h.build .merge
  | codegen => exact exec_coreStep_goesOn h.build .codegen

end GoesOn

/-! ## Every step answers -/

/-- The listed turns are steps of 20_memory.md R60: none names a beat at the output port (log entry 2). -/
def State.AgentTurns (s : State) : Prop := ∀ e ∈ s.env.events, agentStep e = e

/-- A word that one of the agents' steps presents decodes, or it is the core's turn with nothing pending (20_memory.md R60). -/
theorem decode_present_error {s : State} {e : Event} {p : PortWord} {x : DecodeError} (he : agentStep e = e)
    (hp : s.present e = some p) (hd : decode s.hw.phase s.hw.bsub p = .error x) : x = .noCoreStep := by
  cases e with
  | outBeat w => simp [agentStep] at he
  | core =>
    obtain rfl := Option.some.inj hp
    by_cases hb : s.hw.phase = .build
    · rw [decode, hb, decodeCore_build] at hd; cases hd
    · rw [decode, decodeCore_other hb] at hd; cases hd; rfl
  | source =>
    obtain ⟨w, -, rfl⟩ := Option.map_eq_some_iff.1 hp
    cases hd
  | hostRead | hostWrite | sinkTake | sinkFail | reset => obtain rfl := Option.some.inj hp; cases hd

section AgentTurns

variable {s : State} (hs : s.AgentTurns)
include hs

theorem State.AgentTurns.turn : agentStep s.turn = s.turn := by
  cases he : s.env.events with
  | nil => rw [State.turn_of_nil he]; rfl
  | cons e es => rw [State.turn_of_cons he]; exact hs e (by simp [he])

theorem State.AgentTurns.not_reject (x : DecodeError) : s.fetch ≠ .reject x := by
  cases hp : s.present s.turn with
  | none => simp [State.fetch_of_none hp]
  | some p =>
    cases hd : decode s.hw.phase s.hw.bsub p with
    | ok i => simp [State.fetch_of_ok hp hd]
    | error y => simp [State.fetch_of_error hp hd, decode_present_error hs.turn hp hd]

/-- Taking a turn leaves steps of R60 only: the drawn block holds nothing else. -/
theorem State.AgentTurns.afterTurn : s.afterTurn.AgentTurns := by
  unfold State.AgentTurns
  cases he : s.env.events with
  | nil =>
    rw [State.afterTurn_events_of_nil he]
    simp
  | cons e es =>
    rw [State.afterTurn_events_of_cons he]
    exact fun e' h' => hs e' (by simp [he, h'])

/-- One step takes one turn, whatever it presents. -/
theorem State.Inv.step_goesOn (h : s.Inv) : s.afterTurn.GoesOn (step s) := by
  cases hf : s.fetch with
  | run i =>
    have hi : s.afterTurn.Inv := h.of_moves rfl .stays
    rw [step_of_run hf]; exact hi.exec_goesOn i
  | idle => rw [step_of_idle hf]; exact next_goesOn rfl
  | noBeat => rw [step_of_noBeat hf]; exact next_goesOn rfl
  | reject x => exact absurd hf (hs.not_reject x)

/-- A step answers, keeps the invariant, and leaves the turns that follow the one it took. -/
theorem State.Inv.step_answers (h : s.Inv) : ∃ t, step s = .next t ∧ t.Inv ∧ t.AgentTurns ∧ t.env.events = s.afterTurn.env.events := by
  obtain ⟨t, ht, he⟩ := h.step_goesOn hs
  refine ⟨t, ht, stepKeepsTheInvariant s t h ht, ?_, he⟩
  unfold State.AgentTurns
  rw [he]
  exact hs.afterTurn

end AgentTurns

/-! ## Runs -/

theorem run_succ_of_step {M : Host.Core} {n : Nat} {s t : M.State} (h : M.step s = .next t) : M.run (n + 1) s = M.run n t := by
  simp only [Host.Core.run, h]

/-- A run of any length answers and keeps the invariant. -/
theorem State.Inv.run_answers {s : State} (h : s.Inv) (hs : s.AgentTurns) (n : Nat) :
    ∃ t : State, core.run n s = .next t ∧ t.Inv ∧ t.AgentTurns := by
  induction n generalizing s with
  | zero => exact ⟨s, rfl, h, hs⟩
  | succ n ih =>
    obtain ⟨u, hu, hi, ha, -⟩ := h.step_answers hs
    rw [run_succ_of_step (M := core) hu]
    exact ih hi ha

/-- A run over the listed turns takes them all. -/
theorem State.Inv.run_listed {s : State} (h : s.Inv) (hs : s.AgentTurns) {es : List Event} (he : s.env.events = es) :
    ∃ t : State, core.run es.length s = .next t ∧ t.Inv ∧ t.env.events = [] := by
  induction es generalizing s with
  | nil => exact ⟨s, rfl, h, he⟩
  | cons e es ih =>
    obtain ⟨u, hu, hi, ha, hev⟩ := h.step_answers hs
    rw [List.length_cons, run_succ_of_step (M := core) hu]
    exact ih hi ha (hev.trans (State.afterTurn_events_of_cons he))

/-- Settles O60: each step answers and keeps the invariant, so a run of any length does; after the listed turns the core has the turn,
and in BUILD its pending step fires, whatever block of turns is drawn. -/
theorem executionsGoOnAndServeTheCore : Obligations.ExecutionsGoOnAndServeTheCore := by
  intro s h hs
  refine ⟨h.run_answers hs, ?_⟩
  obtain ⟨t, hrun, ht, he⟩ := h.run_listed hs rfl
  refine ⟨t, hrun, he, fun hp => ?_⟩
  obtain ⟨hw', hne, hf⟩ := ht.build.coreStep_fires hp
  exact ⟨t.afterTurn.withHw hw', t.withHw hw', (step_unlisted_build he hp).trans (hf t.afterTurn rfl), hf t rfl, rfl, hne⟩

end Sys2Proof.Machine

/-! # Encoding: the decoder and the encoder are inverse to each other (30_encoding.md R90 to R94, R111) -/

namespace Sys2Proof

/-! ## Fields and words -/

@[simp] theorem rsvdField_commandWord (rsvd : BitVec 28) (op : BitVec 4) : rsvdField (commandWord rsvd op) = rsvd :=
  BitVec.extractLsb'_append_eq_left

@[simp] theorem opField_commandWord (rsvd : BitVec 28) (op : BitVec 4) : opField (commandWord rsvd op) = op :=
  BitVec.extractLsb'_append_eq_right

/-- RSVD and OP are the whole of a command word (30_encoding.md R90). -/
theorem commandWord_fields (v : Word) : commandWord (rsvdField v) (opField v) = v :=
  (BitVec.extractLsb'_append_extractLsb'_eq_extractLsb' rfl).trans BitVec.extractLsb'_eq_self

@[simp] theorem kindField_beatWord (kind : BitVec 2) (d : Byte) : kindField (beatWord kind d) = kind :=
  BitVec.extractLsb'_append_eq_left

@[simp] theorem dataField_beatWord (kind : BitVec 2) (d : Byte) : dataField (beatWord kind d) = d :=
  BitVec.extractLsb'_append_eq_right

/-- KIND and DATA are the whole of a beat (30_encoding.md R93, R94). -/
theorem beatWord_fields (w : BeatWord) : beatWord (kindField w) (dataField w) = w :=
  (BitVec.extractLsb'_append_extractLsb'_eq_extractLsb' rfl).trans BitVec.extractLsb'_eq_self

/-! ## Command words -/

/-- A word whose RSVD is not 0 is of the row CMD_ILLEGAL_RSVD, with its fields (30_encoding.md R92). -/
theorem decodeCommand_of_rsvd {v : Word} (h : rsvdField v ≠ 0#28) : decodeCommand v = .cmdIllegalRsvd (rsvdField v) (opField v) :=
  if_pos h

/-- The four bits of OP alone give the word back when RSVD is 0 (30_encoding.md R91). -/
theorem encode_decodeCommand_op (op : BitVec 4) :
    encode (decodeCommand (commandWord 0#28 op)) = .hostWrite cmdAddr (commandWord 0#28 op) := by
  revert op; decide

theorem encode_decodeCommand (v : Word) : encode (decodeCommand v) = .hostWrite cmdAddr v := by
  by_cases h : rsvdField v = 0#28
  · have hv := commandWord_fields v
    rw [h] at hv
    rw [← hv, encode_decodeCommand_op]
  · rw [decodeCommand_of_rsvd h, encode, commandWord_fields]

theorem decodeCommand_wellFormed (v : Word) : (decodeCommand v).wellFormed = true := by
  by_cases h : rsvdField v = 0#28
  · rw [decodeCommand, if_neg (not_not.2 h)]
    split <;> rfl
  · rw [decodeCommand_of_rsvd h, Instr.wellFormed, bne_iff_ne]
    exact h

/-- No command's row asks for a phase (40_commands.md R120). -/
theorem decodeCommand_selectedIn (v : Word) (ph : Phase) (bs : BSub) : (decodeCommand v).selectedIn ph bs = true := by
  unfold decodeCommand
  split
  · rfl
  · split <;> rfl

/-! ## From an instruction to its word and back -/

/-- A written command word comes to the command's row (20_memory.md R63). -/
theorem decode_commandWord (ph : Phase) (bs : BSub) (rsvd : BitVec 28) (op : BitVec 4) :
    decode ph bs (.hostWrite cmdAddr (commandWord rsvd op)) = .ok (decodeCommand (commandWord rsvd op)) := rfl

theorem decodeCommand_op67 (x : BitVec 1) : decodeCommand (commandWord 0#28 (0b011#3 ++ x)) = .cmdIllegalOp67 x := by
  revert x; decide

theorem decodeCommand_op8F (x : BitVec 3) : decodeCommand (commandWord 0#28 (0b1#1 ++ x)) = .cmdIllegalOp8F x := by
  revert x; decide

/-- Settles O48: by the row. A command word and a beat have the fields they are built from; a core step and a beat come to their row by
the phase that selects it. -/
theorem decodeOfEncode : Obligations.DecodeOfEncode := by
  intro i ph bs hw hs
  cases i with
  | nop | clear | count | build | encode | cmdIllegalOp5 => rfl
  | cmdIllegalOp67 x => rw [encode, decode_commandWord, decodeCommand_op67]
  | cmdIllegalOp8F x => rw [encode, decode_commandWord, decodeCommand_op8F]
  | cmdIllegalRsvd rsvd op =>
    have hr : rsvd ≠ 0#28 := bne_iff_ne.1 hw
    rw [encode, decode_commandWord, decodeCommand_of_rsvd (by simpa using hr), rsvdField_commandWord, opField_commandWord]
  | inDataCount d | inEndCount d | inErrorCount d | inRsvdCount d =>
    obtain rfl : ph = .count := of_decide_eq_true hs
    simp [encode, decode, decodeInBeat, decodeBeatCount]
  | inDataEncode d | inEndEncode d | inErrorEncode d | inRsvdEncode d =>
    obtain rfl : ph = .encode := of_decide_eq_true hs
    simp [encode, decode, decodeInBeat, decodeBeatEncode]
  | inAnyOther kind d =>
    obtain ⟨hc, he⟩ : ph ≠ .count ∧ ph ≠ .encode := of_decide_eq_true hs
    rw [encode, decode, Machine.decodeInBeat_other hc he, kindField_beatWord, dataField_beatWord]
  | outData d => simp [encode, decode, decodeOutBeat]
  | outEnd | outAbort | regRead | snkTake | snkFail | reset => rfl
  | regWrite a v =>
    have ha : a ≠ cmdAddr := bne_iff_ne.1 hw
    rw [encode, decode, decodeWrite, if_neg ha]
  | sort | merge | codegen =>
    obtain ⟨rfl, rfl⟩ : ph = .build ∧ bs = _ := of_decide_eq_true hs
    rfl

/-! ## From a word to its instruction and back -/

/-- The instruction is a well-formed one of a row that the phase and the sub-step select, and `p` is what presents it. -/
structure Instr.IsRowOf (ph : Phase) (bs : BSub) (p : PortWord) (i : Instr) : Prop where
  wellFormed : i.wellFormed = true
  selected : i.selectedIn ph bs = true
  presented : Sys2Proof.encode i = p

section Rows

variable {ph : Phase} {bs : BSub}

theorem decodeWrite_isRowOf (a : WordAddr) (v : Word) : (decodeWrite a v).IsRowOf ph bs (.hostWrite a v) := by
  unfold decodeWrite
  split
  next h => exact h ▸ ⟨decodeCommand_wellFormed v, decodeCommand_selectedIn v ph bs, encode_decodeCommand v⟩
  next h => exact ⟨bne_iff_ne.2 h, rfl, rfl⟩

theorem decodeBeatCount_isRowOf (w : BeatWord) : (decodeBeatCount w).IsRowOf .count bs (.inBeat w) := by
  have hw := beatWord_fields w
  unfold decodeBeatCount
  obtain hk | hk | hk | hk := Machine.kind_cases (kindField w) <;> rw [hk] at hw ⊢ <;> exact ⟨rfl, rfl, congrArg _ hw⟩

theorem decodeBeatEncode_isRowOf (w : BeatWord) : (decodeBeatEncode w).IsRowOf .encode bs (.inBeat w) := by
  have hw := beatWord_fields w
  unfold decodeBeatEncode
  obtain hk | hk | hk | hk := Machine.kind_cases (kindField w) <;> rw [hk] at hw ⊢ <;> exact ⟨rfl, rfl, congrArg _ hw⟩

theorem decodeInBeat_isRowOf (w : BeatWord) : (decodeInBeat ph w).IsRowOf ph bs (.inBeat w) := by
  match ph with
  | .count => exact decodeBeatCount_isRowOf w
  | .encode => exact decodeBeatEncode_isRowOf w
  | .idle | .counted | .build | .ready | .done | .error => exact ⟨rfl, rfl, congrArg _ (beatWord_fields w)⟩

/-- A beat at the output port decodes when its KIND is produced, and END and ABORT with DATA 0 alone (30_encoding.md R94). -/
theorem decodeOutBeat_isRowOf {w : BeatWord} {i : Instr} (h : decodeOutBeat w = .ok i) : i.IsRowOf ph bs (.outBeat w) := by
  have hw := beatWord_fields w
  unfold decodeOutBeat at h
  obtain hk | hk | hk | hk := Machine.kind_cases (kindField w) <;> rw [hk] at hw h
  · cases h; exact ⟨rfl, rfl, congrArg _ hw⟩
  iterate 2
    by_cases hd : dataField w = 0#8
    · cases (if_pos hd).symm.trans h
      exact ⟨rfl, rfl, congrArg _ (hd ▸ hw)⟩
    · cases (if_neg hd).symm.trans h
  · cases h

theorem decodeCore_isRowOf {i : Instr} (h : decodeCore ph bs = .ok i) : i.IsRowOf ph bs .core := by
  by_cases hp : ph = .build
  · rw [hp, Machine.decodeCore_build] at h
    obtain rfl := Except.ok.inj h
    rw [hp]
    cases bs <;> exact ⟨rfl, rfl, rfl⟩
  · rw [Machine.decodeCore_other hp] at h; cases h

theorem decode_isRowOf {p : PortWord} {i : Instr} (h : decode ph bs p = .ok i) : i.IsRowOf ph bs p := by
  cases p with
  | outBeat w => exact decodeOutBeat_isRowOf h
  | core => exact decodeCore_isRowOf h
  | hostWrite a v => cases h; exact decodeWrite_isRowOf a v
  | inBeat w => cases h; exact decodeInBeat_isRowOf w
  | hostRead | sinkTake | sinkFail | reset => cases h; exact ⟨rfl, rfl, rfl⟩

end Rows

/-- Settles O49: by the port, each decoder names a row that the phase selects and that holds all the bits presented. -/
theorem encodeOfDecode : Obligations.EncodeOfDecode := fun _ _ _ _ h =>
  have hrow := decode_isRowOf h
  ⟨hrow.wellFormed, hrow.selected, hrow.presented⟩

/-! ## Words by their value -/

theorem opField_eq (v : Word) : opField v = BitVec.ofNat 4 v.toNat := by
  apply BitVec.eq_of_toNat_eq
  simp [opField]

theorem rsvdField_eq (v : Word) : rsvdField v = BitVec.ofNat 28 (v.toNat / 16) := by
  apply BitVec.eq_of_toNat_eq
  simp [rsvdField, Nat.shiftRight_eq_div_pow]

/-- A word from 16 up has a RSVD other than 0 (30_encoding.md R91). -/
theorem rsvdField_ne_zero {v : Word} (h : 16 ≤ v.toNat) : rsvdField v ≠ 0#28 := by
  intro h0
  have hn := congrArg BitVec.toNat h0
  rw [rsvdField_eq, BitVec.toNat_ofNat, BitVec.toNat_ofNat] at hn
  omega

/-- The reserved OPs 0x8 to 0xF, by their value. -/
theorem decodeCommand_ofNat_op8F (n : Nat) (h8 : 8 ≤ n) (h16 : n < 16) :
    decodeCommand (BitVec.ofNat 32 n) = .cmdIllegalOp8F (BitVec.ofNat 3 n) := by
  revert n; decide

/-- Settles O50: a word below 16 is one of sixteen, and above RSVD is not 0. -/
theorem everyCommandWordIsDecoded : Obligations.EveryCommandWordIsDecoded := by
  intro v
  have hv {n : Nat} (h : v.toNat = n) : v = BitVec.ofNat 32 n := by rw [← h, BitVec.ofNat_toNat, BitVec.setWidth_eq]
  refine ⟨fun h => hv h ▸ rfl, fun h => hv h ▸ rfl, fun h => hv h ▸ rfl, fun h => hv h ▸ rfl,
    fun h => hv h ▸ rfl, fun h => hv h ▸ rfl, ?_, fun h8 h16 => ?_, fun h => ?_⟩
  · rintro (h | h) <;> exact hv h ▸ rfl
  · have hop := decodeCommand_ofNat_op8F v.toNat h8 h16
    rwa [← hv rfl] at hop
  · rw [decodeCommand_of_rsvd (rsvdField_ne_zero h), ← rsvdField_eq, ← opField_eq]

/-- Settles O51: each word's fields are read off it. -/
theorem wordsOfTheTablesDecode : Obligations.WordsOfTheTablesDecode := ⟨rfl, rfl, rfl, rfl, rfl, rfl, rfl, rfl⟩

end Sys2Proof

/-! # Encoding: the words of the register port (30_encoding.md R95 to R107) -/

namespace Sys2Proof.Machine

/-! ## The fields of a word written as them in a row -/

section Fields

variable {m n : Nat} (hi : BitVec m)

theorem extractLsb'_append_high (lo : BitVec n) (start len : Nat) :
    (hi ++ lo).extractLsb' (start + n) len = hi.extractLsb' start len := by
  rw [BitVec.extractLsb'_append_eq_of_le (Nat.le_add_left ..), Nat.add_sub_cancel]

theorem getLsbD_append_high (lo : BitVec n) (i : Nat) : (hi ++ lo).getLsbD (i + n) = hi.getLsbD i := by
  rw [BitVec.getLsbD_append, if_neg (Nat.not_lt.2 (Nat.le_add_left ..)), Nat.add_sub_cancel]

theorem getLsbD_append_ofBool (b : Bool) : (hi ++ BitVec.ofBool b).getLsbD 0 = b := by
  rw [BitVec.getLsbD_append, if_pos Nat.one_pos, BitVec.getLsbD_ofBool]; rfl

theorem toNat_append_eq (lo : BitVec n) : (hi ++ lo).toNat = hi.toNat * 2 ^ n + lo.toNat := by
  rw [BitVec.toNat_append, ← Nat.shiftLeft_add_eq_or_of_lt lo.isLt, Nat.shiftLeft_eq]

end Fields

theorem toNat_ofNat_of_lt {w n : Nat} (h : n < 2 ^ w) : (BitVec.ofNat w n).toNat = n := by
  rw [BitVec.toNat_ofNat, Nat.mod_eq_of_lt h]

/-! ## What a read returns -/

/-- A read returns the register's word, but for the registers of 20_memory.md R68 in BUILD. -/
theorem State.reads_reg {s : State} {off : Nat} {r : Reg} (hr : regAt (addrOf off) = r)
    (ho : s.hw.phase ≠ .build ∨ r.openInBuild = false) : s.Reads off (s.regWord r) := by
  subst hr
  refine exec_regRead_of_specified ?_
  rintro ⟨hp, hopen⟩
  obtain h | h := ho
  · exact h hp
  · rw [h] at hopen; cases hopen

/-- A register that holds 0 after reset reads 0 then. -/
theorem reset_reads_zero {off : Nat} (h : State.reset.regWord (regAt (addrOf off)) = 0#32) : State.reset.Reads off 0#32 :=
  h ▸ State.reads_reg rfl (.inl (by decide))

/-! ## The register map, by byte offset (30_encoding.md R95) -/

theorem lowReg_reserved {n : Nat} (h : 17 ≤ n) : lowReg n = .reserved := by
  obtain ⟨k, rfl⟩ := Nat.exists_eq_add_of_le h
  rw [Nat.add_comm]; rfl

theorem regAt_reserved {off : Nat} (h : Reserved off) : regAt (addrOf off) = .reserved := by
  unfold regAt
  simp only [addrOf_toNat (show off ≤ 0x7FFC by omega)]
  split
  · exact lowReg_reserved (by omega)
  · rw [if_neg (by omega)]
    split
    · rfl
    · rw [dif_neg (by omega)]
      split
      · rfl
      · rw [if_neg (by omega)]

theorem regAt_hist (b : Byte) : regAt (addrOf (0x0400 + 4 * b.toNat)) = .hist b := by
  have hb := b.isLt
  unfold regAt
  simp only [addrOf_toNat (show 0x0400 + 4 * b.toNat ≤ 0x7FFC by omega)]
  rw [if_neg (by omega), if_pos (by omega), show (0x0400 + 4 * b.toNat) / 4 - 0x0400 / 4 = b.toNat by omega,
    BitVec.ofNat_toNat, BitVec.setWidth_eq]

theorem regAt_nodeFreq (i : NodeIx) : regAt (addrOf (0x1000 + 8 * i.val)) = .nodeFreq i := by
  have hi := i.isLt
  unfold regAt
  simp only [addrOf_toNat (show 0x1000 + 8 * i.val ≤ 0x7FFC by omega)]
  rw [if_neg (by omega), if_neg (by omega), if_neg (by omega), dif_pos (by omega), if_pos (by omega)]
  congr 2; omega

theorem regAt_nodeLink (i : NodeIx) : regAt (addrOf (0x1000 + 8 * i.val + 4)) = .nodeLink i := by
  have hi := i.isLt
  unfold regAt
  simp only [addrOf_toNat (show 0x1000 + 8 * i.val + 4 ≤ 0x7FFC by omega)]
  rw [if_neg (by omega), if_neg (by omega), if_neg (by omega), dif_pos (by omega), if_neg (by omega)]
  congr 2; omega

theorem regAt_code (b : Byte) (k : Fin 16) : regAt (addrOf (0x2000 + 64 * b.toNat + 4 * k.val)) = .code b k := by
  have hb := b.isLt
  have hk := k.isLt
  unfold regAt
  simp only [addrOf_toNat (show 0x2000 + 64 * b.toNat + 4 * k.val ≤ 0x7FFC by omega)]
  rw [if_neg (by omega), if_neg (by omega), if_neg (by omega), dif_neg (by omega), if_neg (by omega), if_pos (by omega)]
  have hdiv : ((0x2000 + 64 * b.toNat + 4 * k.val) / 4 - 0x2000 / 4) / 16 = b.toNat := by omega
  have hmod : ((0x2000 + 64 * b.toNat + 4 * k.val) / 4 - 0x2000 / 4) % 16 = k.val := by omega
  exact congrArg₂ Reg.code (by rw [hdiv, BitVec.ofNat_toNat, BitVec.setWidth_eq]) (Fin.ext hmod)

/-! ## ID, CMD and the reserved offsets -/

/-- Settles O42: by the register map; none of these registers is of R68. -/
theorem constantOffsetsRead : Obligations.ConstantOffsetsRead := fun _ =>
  ⟨State.reads_reg rfl (.inr rfl), State.reads_reg rfl (.inr rfl), fun _ _ h => State.reads_reg (regAt_reserved h) (.inr rfl)⟩

/-! ## STATUS and ERR -/

section Status

variable (hw : Hw)

theorem Hw.statusWord_phase : hw.statusWord.extractLsb' 0 3 = phaseCode hw.phase := BitVec.extractLsb'_append_eq_right

theorem Hw.statusWord_busy : hw.statusWord.getLsbD 3 = hw.busy := (getLsbD_append_high ..).trans (getLsbD_append_ofBool ..)

theorem Hw.statusWord_bsub : hw.statusWord.extractLsb' 4 2 = hw.bsubField :=
  (extractLsb'_append_high ..).trans <| (extractLsb'_append_high ..).trans BitVec.extractLsb'_append_eq_right

theorem Hw.statusWord_outqEmpty : hw.statusWord.getLsbD 6 = hw.outqEmpty :=
  (getLsbD_append_high ..).trans <| (getLsbD_append_high ..).trans <| (getLsbD_append_high ..).trans (getLsbD_append_ofBool ..)

theorem Hw.statusWord_errf : hw.statusWord.getLsbD 7 = hw.errf :=
  (getLsbD_append_high ..).trans <| (getLsbD_append_high ..).trans <| (getLsbD_append_high ..).trans <|
    (getLsbD_append_high ..).trans (getLsbD_append_ofBool ..)

/-- What stands above the five fields of one, one, two, one and three bits. -/
theorem Hw.statusWord_high {start len : Nat} : hw.statusWord.extractLsb' (start + 1 + 1 + 2 + 1 + 3) len =
    (0#16 ++ BitVec.ofNat 8 hw.outqCount).extractLsb' start len :=
  (extractLsb'_append_high ..).trans <| (extractLsb'_append_high ..).trans <| (extractLsb'_append_high ..).trans <|
    (extractLsb'_append_high ..).trans <| extractLsb'_append_high ..

theorem Hw.statusWord_outqCount : hw.statusWord.extractLsb' 8 8 = BitVec.ofNat 8 hw.outqCount :=
  hw.statusWord_high.trans BitVec.extractLsb'_append_eq_right

theorem Hw.statusWord_zero : hw.statusWord.extractLsb' 16 16 = 0#16 :=
  hw.statusWord_high.trans BitVec.extractLsb'_append_eq_left

theorem Hw.busy_iff : hw.busy = true ↔ hw.phase = .count ∨ hw.phase = .build ∨ hw.phase = .encode := by
  unfold Hw.busy
  cases hw.phase <;> simp

theorem Hw.errWord_code : hw.errWord.extractLsb' 0 4 = errorCode hw.errCode := BitVec.extractLsb'_append_eq_right

theorem Hw.errWord_phase : hw.errWord.extractLsb' 4 3 = phaseCode hw.errPhase :=
  (extractLsb'_append_high ..).trans BitVec.extractLsb'_append_eq_right

theorem Hw.errWord_zero : hw.errWord.extractLsb' 7 25 = 0#25 :=
  (extractLsb'_append_high ..).trans BitVec.extractLsb'_append_eq_left

end Status

/-- Outside BUILD the field reads 0, which is BSUB there too (10_state.md R23; log entry 16). -/
theorem Hw.BuildInv.bsubField {hw : Hw} (h : hw.BuildInv) : hw.bsubField = bsubCode hw.bsub := by
  unfold Hw.bsubField
  split
  · rfl
  next hp => rw [h.bsub hp]; rfl

/-- OUTQ's length fits the eight bits of OUTQ_COUNT (00_scope.md R9). -/
theorem State.Inv.outq_length_lt {s : State} (h : s.Inv) : s.hw.outq.length < 2 ^ 8 := by
  obtain ⟨-, -, -, hd⟩ := h.config
  have hq := h.queue.depth
  omega

theorem exec_regWrite_ignored (s : State) {off : Nat} (h4 : off % 4 = 0) (h : off ≤ 0x7FFC) (hne : off ≠ 0x0004) (v : Word) :
    exec (.regWrite (addrOf off) v) s = .next s := (registerWriteEffects s v).2 off h4 h hne

/-- Settles O43: STATUS is its fields in a row; the invariant bounds OUTQ and holds BSUB at 0 outside BUILD. -/
theorem statusRegisterFields : Obligations.StatusRegisterFields := by
  refine ⟨rfl, fun s h => ⟨s.hw.statusWord, State.reads_reg rfl (.inr rfl), s.hw.statusWord_phase, ?_,
    s.hw.statusWord_bsub.trans h.build.bsubField, ?_, ?_, ?_, s.hw.statusWord_zero, State.reads_reg rfl (.inr rfl),
    exec_regWrite_ignored s rfl (by decide) (by decide)⟩⟩
  · rw [Hw.statusWord_busy, Hw.busy_iff]
  · rw [Hw.statusWord_outqEmpty, Hw.outqEmpty, List.isEmpty_iff]
  · rw [Hw.statusWord_errf, Hw.errf, bne_iff_ne]
  · rw [Hw.statusWord_outqCount]
    exact toNat_ofNat_of_lt h.outq_length_lt

/-- Settles O44: ERR is its fields in a row. -/
theorem errRegisterFields : Obligations.ErrRegisterFields := fun s =>
  ⟨s.hw.errWord, State.reads_reg rfl (.inr rfl), s.hw.errWord_code, s.hw.errWord_phase, s.hw.errWord_zero,
    State.reads_reg rfl (.inr rfl), exec_regWrite_ignored s rfl (by decide) (by decide)⟩

/-! ## Counters, LASTBITS, PARAM and the HIST window -/

/-- A narrower counter reads with zeros above it. -/
theorem toNat_zero_append_ofNat {k w n : Nat} (h : n < 2 ^ w) : (0#k ++ BitVec.ofNat w n).toNat = n := by
  rw [toNat_append_eq, toNat_ofNat_of_lt h]
  simp

/-- The two halves of a 64-bit counter are the counter (30_encoding.md R103). -/
theorem highHalf_lowHalf {n : Nat} (h : n < 2 ^ 64) : (highHalf n).toNat * 2 ^ 32 + (lowHalf n).toNat = n := by
  rw [highHalf, lowHalf, BitVec.extractLsb'_toNat, BitVec.extractLsb'_toNat, toNat_ofNat_of_lt h, Nat.shiftRight_eq_div_pow]
  omega

section Lastbits

variable (hw : Hw)

theorem Hw.lastbitsWord_valid : hw.lastbitsWord.getLsbD 31 = hw.lbValid := by
  refine (getLsbD_append_high ..).trans <| (getLsbD_append_high ..).trans ?_
  simp

theorem Hw.lastbitsWord_lastbits : (hw.lastbitsWord.extractLsb' 0 3).toNat = hw.lastbits.val :=
  (congrArg BitVec.toNat BitVec.extractLsb'_append_eq_right).trans (toNat_ofNat_of_lt hw.lastbits.isLt)

theorem Hw.lastbitsWord_zero : hw.lastbitsWord.extractLsb' 3 28 = 0#28 :=
  (extractLsb'_append_high ..).trans BitVec.extractLsb'_append_eq_right

end Lastbits

/-- PARAM's two bytes are OUT_FIFO_DEPTH and CNT_W (30_encoding.md R104). -/
theorem paramWord_toNat {c : Config} (h : c.Legal) : (paramWord c).toNat = 256 * c.depth + c.cntW := by
  obtain ⟨-, hw, -, hd⟩ := h
  have hp : (paramWord c).toNat = ((0 * 2 ^ 8 + c.depth) * 2 ^ 2 + 0) * 2 ^ 6 + c.cntW := by
    rw [paramWord, toNat_append_eq, toNat_append_eq, toNat_append_eq, toNat_ofNat_of_lt (show c.depth < 2 ^ 8 by omega),
      toNat_ofNat_of_lt (show c.cntW < 2 ^ 6 by omega)]
    rfl
  omega

/-- An aligned offset of the HIST window is that of a symbol (30_encoding.md R105). -/
theorem exists_hist_offset {off : Nat} (h4 : off % 4 = 0) (hlo : 0x0400 ≤ off) (hhi : off ≤ 0x07FC) :
    ∃ b : Byte, off = 0x0400 + 4 * b.toNat := by
  refine ⟨BitVec.ofNat 8 ((off - 0x0400) / 4), ?_⟩
  rw [toNat_ofNat_of_lt (by omega)]
  omega

/-- Settles O45: the invariant holds every counter within its register, so no read cuts it off. -/
theorem counterRegistersReadExactly : Obligations.CounterRegistersReadExactly := by
  intro s h
  have hmax := cntMax_lt_of_legal h.config
  have hfit := everyElementFitsItsWidth s h
  refine ⟨_, _, _, _, _, _, _, _, _, _,
    State.reads_reg rfl (.inr rfl), toNat_ofNat_of_lt (hfit.total.trans_lt hmax),
    State.reads_reg rfl (.inr rfl), toNat_zero_append_ofNat (hfit.nsym.trans_lt (by decide)),
    State.reads_reg rfl (.inr rfl), toNat_ofNat_of_lt (hfit.maxf.trans_lt hmax),
    State.reads_reg rfl (.inr rfl), toNat_ofNat_of_lt (hfit.encIn.trans_lt hmax),
    State.reads_reg rfl (.inr rfl), State.reads_reg rfl (.inr rfl), highHalf_lowHalf hfit.encOut,
    State.reads_reg rfl (.inr rfl), State.reads_reg rfl (.inr rfl), highHalf_lowHalf (hfit.encBits.trans (by decide)),
    State.reads_reg rfl (.inr rfl), s.hw.lastbitsWord_valid, s.hw.lastbitsWord_lastbits, s.hw.lastbitsWord_zero,
    State.reads_reg rfl (.inr rfl), paramWord_toNat h.config,
    fun b => ⟨_, State.reads_reg (regAt_hist b) (.inr rfl), toNat_ofNat_of_lt ((hfit.hist b).trans_lt hmax)⟩,
    State.reads_reg rfl (.inr rfl), fun off ho h4 => ⟨fun hne => reset_reads_zero ?_, exec_regWrite_ignored s h4 ?_ ?_⟩⟩
  · obtain ho | ⟨hlo, hhi⟩ := ho
    · simp only [List.mem_cons, List.not_mem_nil, or_false] at ho
      obtain rfl | rfl | rfl | rfl | rfl | rfl | rfl | rfl | rfl | rfl := ho
      iterate 9 rfl
      exact absurd rfl hne
    · obtain ⟨b, rfl⟩ := exists_hist_offset h4 hlo hhi
      rw [regAt_hist]
      exact congrArg (BitVec.ofNat 32) (Hw.reset_histAt b)
  all_goals
    simp only [List.mem_cons, List.not_mem_nil, or_false] at ho
    omega

/-! ## ROOT, NNODES, SEQLEN and the NODE window -/

section Root

variable (hw : Hw)

theorem Hw.rootWord_valid : hw.rootWord.getLsbD 31 = hw.rootValid := by
  refine (getLsbD_append_high ..).trans <| (getLsbD_append_high ..).trans ?_
  simp

theorem Hw.rootWord_root : (hw.rootWord.extractLsb' 0 9).toNat = hw.root.val :=
  (congrArg BitVec.toNat BitVec.extractLsb'_append_eq_right).trans (toNat_ofNat_of_lt (hw.root.isLt.trans (by decide)))

theorem Hw.rootWord_zero : hw.rootWord.extractLsb' 9 22 = 0#22 :=
  (extractLsb'_append_high ..).trans BitVec.extractLsb'_append_eq_right

end Root

section Link

variable {n : Node}

theorem Node.linkWord_leaf (h : n.kind = .leaf) : n.linkWord.toNat = n.sym.toNat := by
  rw [Node.linkWord, h]
  exact (toNat_append_eq (0#1 ++ 0#23) n.sym).trans (by simp)

/-- Word 1 of an Internal node: the mark of its kind and its two children, each below zeros (30_encoding.md R106). -/
theorem Node.linkWord_internal (h : n.kind = .internal) :
    n.linkWord.getLsbD 31 = true ∧ n.linkWord.extractLsb' 25 6 = 0#6 ∧ (n.linkWord.extractLsb' 16 9).toNat = n.right.val ∧
      n.linkWord.extractLsb' 9 7 = 0#7 ∧ (n.linkWord.extractLsb' 0 9).toNat = n.left.val := by
  have child (i : NodeIx) : (BitVec.ofNat 9 i.val).toNat = i.val := toNat_ofNat_of_lt (i.isLt.trans (by decide))
  rw [Node.linkWord, h]
  refine ⟨?_, ?_, ?_, ?_, ?_⟩
  · exact (getLsbD_append_high ..).trans <| (getLsbD_append_high ..).trans <| (getLsbD_append_high ..).trans <|
      getLsbD_append_high (1#1) (0#6) 0
  · exact (extractLsb'_append_high ..).trans <| (extractLsb'_append_high ..).trans <| (extractLsb'_append_high ..).trans
      BitVec.extractLsb'_append_eq_right
  · exact (congrArg BitVec.toNat <| (extractLsb'_append_high ..).trans <| (extractLsb'_append_high ..).trans
      BitVec.extractLsb'_append_eq_right).trans (child n.right)
  · exact (extractLsb'_append_high ..).trans BitVec.extractLsb'_append_eq_right
  · exact (congrArg BitVec.toNat BitVec.extractLsb'_append_eq_right).trans (child n.left)

end Link

section Slots

variable {s : State} {i : NodeIx}

/-- An unallocated slot reads 0 (30_encoding.md R106). -/
theorem State.regWord_node_unallocated (h : s.hw.nnodes ≤ i.val) : s.regWord (.nodeFreq i) = 0#32 ∧ s.regWord (.nodeLink i) = 0#32 :=
  ⟨if_neg (Nat.not_lt.2 h), if_neg (Nat.not_lt.2 h)⟩

theorem State.regWord_nodeFreq (h : i.val < s.hw.nnodes) : s.regWord (.nodeFreq i) = BitVec.ofNat 32 (s.hw.nodeAt i).f := if_pos h

theorem State.regWord_nodeLink (h : i.val < s.hw.nnodes) : s.regWord (.nodeLink i) = (s.hw.nodeAt i).linkWord := if_pos h

end Slots

/-- Settles O46: outside BUILD a read returns the register's word, and the invariant holds the counts within it. -/
theorem treeRegistersReadTheTree : Obligations.TreeRegistersReadTheTree := by
  intro s h hp
  have hmax := cntMax_lt_of_legal h.config
  have hfit := everyElementFitsItsWidth s h
  refine ⟨_, _, _,
    State.reads_reg rfl (.inl hp), s.hw.rootWord_valid, s.hw.rootWord_root, s.hw.rootWord_zero,
    State.reads_reg rfl (.inl hp), toNat_zero_append_ofNat (hfit.nnodes.trans_lt (by decide)),
    State.reads_reg rfl (.inl hp), toNat_zero_append_ofNat (hfit.seq.trans_lt (by decide)),
    fun i => ⟨_, _, State.reads_reg (regAt_nodeFreq i) (.inl hp), State.reads_reg (regAt_nodeLink i) (.inl hp),
      State.regWord_node_unallocated, fun hi => ⟨?_, ?_⟩⟩⟩
  · rw [State.regWord_nodeFreq hi]
    exact toNat_ofNat_of_lt ((hfit.freq i).trans_lt hmax)
  · rw [State.regWord_nodeLink hi]
    exact ⟨Node.linkWord_leaf, Node.linkWord_internal⟩

/-! ## The CODE window -/

theorem wordOfBits_append (bits : List Bool) (x : Bool) :
    wordOfBits (bits ++ [x]) = wordOfBits bits <<< 1 ||| (BitVec.ofBool x).setWidth 32 := by
  simp [wordOfBits]

/-- The last bit given is bit 0. -/
theorem wordOfBits_getLsbD (bits : List Bool) {k : Nat} (hk : k < 32) : (wordOfBits bits).getLsbD k = bits.reverse.getD k false := by
  induction bits using List.reverseRecOn generalizing k with
  | nil => simp [wordOfBits]
  | append_singleton xs x ih =>
    rw [wordOfBits_append]
    cases k with
    | zero => cases x <;> simp
    | succ k =>
      have hx : ((BitVec.ofBool x).setWidth 32).getLsbD (k + 1) = false := by cases x <;> simp
      rw [BitVec.getLsbD_or, hx, Bool.or_false, BitVec.getLsbD_shiftLeft, Nat.add_sub_cancel, ih (by omega)]
      simp [hk]

theorem CodeEntry.windowBits_length (e : CodeEntry) (w : Nat) : (e.windowBits w).length = 32 := by
  simp [CodeEntry.windowBits]

/-- Where CODE_LEN is the length of CODE_BITS, bit 31 - t of word w is bit t of its 32, and 0 past the code (30_encoding.md R107). -/
theorem CodeEntry.windowBits_getLsbD {e : CodeEntry} (he : e.len = e.bits.length) (w : Nat) {t : Nat} (ht : t < 32) :
    (wordOfBits (e.windowBits w)).getLsbD (31 - t) = e.bits.getD (32 * (w - 1) + t) false := by
  have hrev : 31 - (31 - t) = t := by omega
  rw [wordOfBits_getLsbD _ (by omega), List.getD_eq_getElem?_getD, List.getElem?_reverse (by rw [windowBits_length]; omega),
    windowBits_length, hrev]
  by_cases hlt : 32 * (w - 1) + t < e.bits.length <;> simp [windowBits, ht, he, hlt]

theorem CodeEntry.windowWord_bits (e : CodeEntry) {k : Fin 16} (h1 : 1 ≤ k.val) (h8 : k.val ≤ 8) :
    e.windowWord k = wordOfBits (e.windowBits k.val) := by
  rw [windowWord, if_neg (by omega), if_pos h8]

theorem CodeEntry.windowWord_zero (e : CodeEntry) {k : Fin 16} (h9 : 9 ≤ k.val) : e.windowWord k = 0#32 := by
  rw [windowWord, if_neg (by omega), if_neg (by omega)]

/-- Settles O47: outside BUILD a read returns the word of the layout, whose bits are CODE_BITS because CODE_LEN is their number. -/
theorem codeWindowReadsTheCodes : Obligations.CodeWindowReadsTheCodes := by
  intro s h hp b
  obtain ⟨hlen, hle⟩ := h.build.code_fits b
  have hreads (k : Nat) (hk : k < 16) : s.Reads (0x2000 + 64 * b.toNat + 4 * k) ((s.hw.codeAt b).windowWord ⟨k, hk⟩) :=
    State.reads_reg (regAt_code b ⟨k, hk⟩) (.inl hp)
  refine ⟨⟨_, hreads 0 (by decide), ?_⟩, fun k h1 h8 => ⟨_, hreads k (by omega), fun t ht => ?_⟩, fun k h9 h15 => ?_⟩
  · exact toNat_ofNat_of_lt (hle.trans_lt (by decide))
  · rw [CodeEntry.windowWord_bits _ h1 h8]
    exact CodeEntry.windowBits_getLsbD hlen k ht
  · have hk := hreads k (by omega)
    rwa [CodeEntry.windowWord_zero _ h9] at hk

end Sys2Proof.Machine

/-! # Commands: every command in every phase (40_commands.md R121 to R128) -/

namespace Sys2Proof.Machine

/-! ## Legal and illegal commands -/

/-- A command that is never legal in ERROR acts where it is legal, is ignored in ERROR and raises CMD_SEQ in the other phases. -/
theorem command_eq_of_not_error {P : Prop} [Decidable P] {s : State} (hP : P → s.hw.phase ≠ .error) (act : Hw → Hw) :
    command (decide P) act s = if P then .next (s.withHw (act s.hw))
      else if s.hw.phase = .error then .next s else .next (s.raise .cmdSeq) := by
  by_cases h : P
  · rw [command, if_neg (hP h), if_pos h, if_pos (decide_eq_true h)]
  · rw [command, if_neg h, if_neg (mt of_decide_eq_true h)]

/-- Every word from 5 up is of one of the four illegal rows (30_encoding.md R91, R92). -/
theorem decodeCommand_mem_illegal {v : Word} (h : 5 ≤ v.toNat) :
    decodeCommand v ∈ [Instr.cmdIllegalOp5, .cmdIllegalOp67 (BitVec.ofNat 1 v.toNat), .cmdIllegalOp8F (BitVec.ofNat 3 v.toNat),
      .cmdIllegalRsvd (BitVec.ofNat 28 (v.toNat / 16)) (BitVec.ofNat 4 v.toNat)] := by
  obtain ⟨-, -, -, -, -, h5, h67, h8F, hRsvd⟩ := everyCommandWordIsDecoded v
  obtain hv | hv | ⟨h8, h16⟩ | hv :
      v.toNat = 5 ∨ (v.toNat = 6 ∨ v.toNat = 7) ∨ (8 ≤ v.toNat ∧ v.toNat < 16) ∨ 16 ≤ v.toNat := by omega
  · simp [h5 hv]
  · simp [h67 hv]
  · simp [h8F h8 h16]
  · simp [hRsvd hv]

/-- COUNT, in every phase (40_commands.md R123). -/
theorem execCount_eq (s : State) : execCount s =
    if s.hw.phase = .idle then .next (s.withHw { s.hw with phase := .count })
    else if s.hw.phase = .error then .next s else .next (s.raise .cmdSeq) :=
  command_eq_of_not_error (fun h => by rw [h]; decide) _

/-- BUILD, in every phase (40_commands.md R124). -/
theorem execBuild_eq (s : State) : execBuild s =
    if s.hw.phase = .counted then .next (s.withHw { s.hw with phase := .build, bsub := .sort })
    else if s.hw.phase = .error then .next s else .next (s.raise .cmdSeq) :=
  command_eq_of_not_error (fun h => by rw [h]; decide) _

/-- ENCODE, in every phase (40_commands.md R125). -/
theorem execEncode_eq (s : State) : execEncode s =
    if s.hw.phase = .ready ∨ (s.hw.phase = .done ∧ s.hw.outq = []) then .next (s.withHw s.hw.startEncode)
    else if s.hw.phase = .error then .next s else .next (s.raise .cmdSeq) :=
  command_eq_of_not_error (by rintro (h | ⟨h, -⟩) <;> rw [h] <;> decide) _

/-! ## The table -/

/-- Settles O3: NOP's meaning is skip. -/
theorem nopChangesNothing : Obligations.NopChangesNothing := fun _ => rfl

/-- Settles O5: the four rows have one meaning, whatever their free bits. -/
theorem illegalCommandsRaise : Obligations.IllegalCommandsRaise := by
  intro s x y rsvd op i hi
  simp only [List.mem_cons, List.not_mem_nil, or_false] at hi
  obtain rfl | rfl | rfl | rfl := hi <;> rfl

/-- Settles O4: none of the phases in which COUNT, BUILD and ENCODE are legal is ERROR, and every word from 5 up is illegal. -/
theorem commandLegalityByPhase : Obligations.CommandLegalityByPhase := fun s =>
  ⟨nopChangesNothing s, ⟨_, rfl, rfl⟩, execCount_eq s, execBuild_eq s, execEncode_eq s,
    fun _ hv => illegalCommandsRaise s _ _ _ _ _ (decodeCommand_mem_illegal hv)⟩

end Sys2Proof.Machine

/-! # The frequency counter: the beats of pass 1 (41_frequency_counter.md R140 to R146) -/

namespace Sys2Proof.Machine

/-! ## One counted byte -/

section CountSymbol

variable (hw : Hw) (b : Byte)

theorem Hw.countSymbol_hist : (hw.countSymbol b).hist = hw.hist.set b.toNat (hw.histAt b + 1) b.isLt := rfl

theorem Hw.countSymbol_nsym : (hw.countSymbol b).nsym = hw.nsym + if hw.histAt b = 0 then 1 else 0 := by
  show (if hw.histAt b = 0 then hw.nsym + 1 else hw.nsym) = _
  split <;> rfl

theorem Hw.countSymbol_maxf : (hw.countSymbol b).maxf = max hw.maxf (hw.histAt b + 1) := by
  show (if hw.histAt b + 1 > hw.maxf then hw.histAt b + 1 else hw.maxf) = _
  split <;> omega

end CountSymbol

/-- Counting b and then c is counting c and then b: different bytes have different elements of HIST, NSYM counts either's first
occurrence and MAXF is the larger of both (41_frequency_counter.md R146). -/
theorem Hw.countSymbol_comm (hw : Hw) (b c : Byte) : (hw.countSymbol b).countSymbol c = (hw.countSymbol c).countSymbol b := by
  obtain rfl | hne := eq_or_ne b c
  · rfl
  have hb : (hw.countSymbol c).histAt b = hw.histAt b := hw.countSymbol_histAt_ne hne
  have hc : (hw.countSymbol b).histAt c = hw.histAt c := hw.countSymbol_histAt_ne hne.symm
  have hhist : ((hw.countSymbol b).countSymbol c).hist = ((hw.countSymbol c).countSymbol b).hist := by
    simp only [countSymbol_hist, hb, hc]
    exact Vector.set_comm _ _ fun h => hne (BitVec.eq_of_toNat_eq h)
  have hnsym : ((hw.countSymbol b).countSymbol c).nsym = ((hw.countSymbol c).countSymbol b).nsym := by
    simp only [countSymbol_nsym, hb, hc, Nat.add_right_comm]
  have hmaxf : ((hw.countSymbol b).countSymbol c).maxf = ((hw.countSymbol c).countSymbol b).maxf := by
    simp only [countSymbol_maxf, hb, hc, max_right_comm]
  have frame (x y : Byte) : (hw.countSymbol x).countSymbol y = { hw with
      hist := ((hw.countSymbol x).countSymbol y).hist
      nsym := ((hw.countSymbol x).countSymbol y).nsym
      total := hw.total + 1 + 1
      maxf := ((hw.countSymbol x).countSymbol y).maxf } := rfl
  rw [frame b c, frame c b, hhist, hnsym, hmaxf]

/-! ## The rows of pass 1 -/

section CountRows

variable {s : State} (hp : s.hw.phase = .count)
include hp

theorem exec_inDataCount_of_room (hmax : s.hw.total ≠ cntMax s.cfg) (b : Byte) :
    exec (.inDataCount b) s = .next (s.acceptBeat.withHw (s.hw.countSymbol b)) :=
  (if_neg (not_not.2 hp)).trans (if_neg hmax)

theorem exec_inDataCount_of_full (hmax : s.hw.total = cntMax s.cfg) (b : Byte) :
    exec (.inDataCount b) s = .next (s.acceptBeat.raise .countOvf) :=
  (if_neg (not_not.2 hp)).trans (if_pos hmax)

theorem exec_inEndCount_of_count (d : Byte) :
    exec (.inEndCount d) s = .next (s.acceptBeat.withHw { s.hw with phase := .counted }) :=
  if_neg (not_not.2 hp)

/-- A reserved beat is treated as ERROR (41_frequency_counter.md R144). -/
theorem exec_inErrorCount_of_count (d : Byte) :
    ∀ i ∈ [Instr.inErrorCount d, .inRsvdCount d], exec i s = .next (s.acceptBeat.raise .ioRead) := by
  simp only [List.forall_mem_cons]
  exact ⟨if_neg (not_not.2 hp), if_neg (not_not.2 hp), nofun⟩

end CountRows

/-- Settles O10: `Hw.countSymbol` is the counters' update of R141, and the overflow raises before any of it. -/
theorem countBeatUpdatesTheCounters : Obligations.CountBeatUpdatesTheCounters := fun s b hp =>
  ⟨fun hmax => ⟨_, exec_inDataCount_of_room hp hmax b, rfl, s.hw.countSymbol_histAt_self b,
      fun _ hx => s.hw.countSymbol_histAt_ne hx, rfl⟩,
    fun hmax => ⟨_, exec_inDataCount_of_full hp hmax b, rfl, rfl⟩⟩

/-- Settles O11: neither beat meets CNT_MAX, and the two updates of the counters commute. -/
theorem countingOrderDoesNotMatter : Obligations.CountingOrderDoesNotMatter := by
  intro s b c hp hroom
  have hfirst : s.hw.total ≠ cntMax s.cfg := (Nat.lt_of_succ_lt hroom).ne
  have hsecond : s.hw.total + 1 ≠ cntMax s.cfg := hroom.ne
  have htwo (x y : Byte) : exec (.inDataCount y) (s.acceptBeat.withHw (s.hw.countSymbol x)) =
      .next ((s.acceptBeat.withHw (s.hw.countSymbol x)).acceptBeat.withHw ((s.hw.countSymbol x).countSymbol y)) :=
    exec_inDataCount_of_room (s := s.acceptBeat.withHw (s.hw.countSymbol x)) hp hsecond y
  exact ⟨_, _, _, _, exec_inDataCount_of_room hp hfirst b, htwo b c, exec_inDataCount_of_room hp hfirst c, htwo c b,
    s.hw.countSymbol_comm b c⟩

/-- Settles O12: by the rows of END, ERROR and the reserved kind, none of which looks at DATA. -/
theorem countPassEndsOrFails : Obligations.CountPassEndsOrFails := fun _ d hp =>
  ⟨⟨_, exec_inEndCount_of_count hp d, rfl, rfl⟩, fun i hi => ⟨_, exec_inErrorCount_of_count hp d i hi, rfl, rfl⟩⟩

/-! ## The histogram after pass 1 -/

/-- The histogram and the counters that follow it. -/
structure Hw.SameCounts (hw hw' : Hw) : Prop where
  hist : hw'.hist = hw.hist
  total : hw'.total = hw.total
  nsym : hw'.nsym = hw.nsym
  maxf : hw'.maxf = hw.maxf

/-- The one move that writes the counters without resetting them is a DATA beat of pass 1 (41_frequency_counter.md R145). -/
theorem Hw.Moves.sameCounts {c : Config} {hw hw' : Hw} (h : hw.Moves c hw') (hp : hw.phase ≠ .count) :
    hw.SameCounts hw' ∨ ∃ q, hw'.AtReset q := by
  cases h with
  | stays | errs | starts | counted | builds | sorts | merges | plants | generates | opens | delivers =>
    exact .inl ⟨rfl, rfl, rfl, rfl⟩
  | clears | resets => exact .inr ⟨_, Hw.reset_atReset _⟩
  | counts _ hcount => exact absurd hcount hp
  | encodes b hw' _ hroom hmore hcode he =>
    obtain ⟨acc, nacc, bytes, rfl, -⟩ := Hw.encodeSymbol_next hroom hmore hcode he
    exact .inl ⟨rfl, rfl, rfl, rfl⟩
  | finishes hw' _ hroom hall he =>
    obtain ⟨-, rfl⟩ := Hw.finishEncode_next hroom hall he
    exact .inl ⟨rfl, rfl, rfl, rfl⟩

/-- Settles O13: by the moves of HUFENC's own state. -/
theorem histogramIsImmutableAfterCount : Obligations.HistogramIsImmutableAfterCount := fun _ _ h hp =>
  ((step_moves h).2.sameCounts hp).imp_left fun ⟨hist, total, nsym, maxf⟩ => ⟨hist, total, nsym, maxf⟩

end Sys2Proof.Machine

/-! # The leaf orderer: when the core steps wait, and what SORT leaves (42_leaf_orderer.md R160 to R165) -/

namespace Sys2Proof.Machine

/-! ## Waiting -/

/-- A core step waits in every other phase and under every other BSUB (00_scope.md R15). -/
theorem exec_coreStep_waits {s : State} {bs : BSub} (h : ¬ (s.hw.phase = .build ∧ s.hw.bsub = bs)) :
    exec (coreStep bs) s = .next s := by
  cases bs <;> exact if_neg h

/-- Settles O14: each core step is that of its own sub-step. -/
theorem coreStepsWaitOutsideTheirSubStep : Obligations.CoreStepsWaitOutsideTheirSubStep := fun _ =>
  ⟨exec_coreStep_waits (bs := .sort), exec_coreStep_waits (bs := .merge), exec_coreStep_waits (bs := .codegen)⟩

/-! ## The ordered leaf sequence -/

theorem mem_leafOrder {hw : Hw} {b : Byte} : b ∈ hw.leafOrder ↔ 0 < hw.histAt b :=
  (leafOrder_perm hw).mem_iff.trans mem_present

theorem leafOrder_nodup (hw : Hw) : hw.leafOrder.Nodup := (leafOrder_perm hw).nodup_iff.2 (present_nodup hw)

/-- No symbol stands in the sequence twice, so the order of 42_leaf_orderer.md R161 is strict. -/
theorem leafOrder_strict (hw : Hw) : hw.leafOrder.Pairwise fun a b =>
    hw.histAt a < hw.histAt b ∨ (hw.histAt a = hw.histAt b ∧ a.toNat < b.toNat) :=
  (leafOrder_pairwise hw).imp₂
    (fun _ _ hle hne => hle.imp_right fun ⟨hf, hs⟩ => ⟨hf, hs.lt_of_ne (mt BitVec.eq_of_toNat_eq hne)⟩) (leafOrder_nodup hw)

/-- SORT's n is NSYM (log entry 11). -/
theorem Hw.CountInv.leafOrder_length {hw : Hw} {c : Config} (h : hw.CountInv c) : hw.leafOrder.length = hw.nsym :=
  (leafOrder_perm hw).length_eq.trans h.nsym.symm

/-! ## The node store and SEQ after SORT -/

theorem firstSlots_map_val {n : Nat} (h : n ≤ 511) : (firstSlots n).map Fin.val = List.range n := by
  have hval : ∀ k ∈ List.range n, (Fin.ofNat 511 k).val = k := fun k hk => Nat.mod_eq_of_lt ((List.mem_range.1 hk).trans_le h)
  rw [firstSlots, List.map_map]
  exact (List.map_congr_left hval).trans (List.map_id _)

theorem Hw.sorted_nodeAt_of_lt (hw : Hw) (i : NodeIx) (h : i.val < hw.leafOrder.length) :
    hw.sorted.nodeAt i = hw.leafOf hw.leafOrder[i.val] :=
  (writeNodes_get ..).trans (by simp [h])

theorem Hw.sorted_nodeAt_of_le (hw : Hw) (i : NodeIx) (h : hw.leafOrder.length ≤ i.val) : hw.sorted.nodeAt i = hw.nodeAt i :=
  (writeNodes_get ..).trans (by simp [h, Hw.nodeAt])

theorem exec_sort_of_enabled {s : State} (hp : s.hw.phase = .build) (hb : s.hw.bsub = .sort) :
    exec .sort s = .next (s.withHw s.hw.sorted) := if_pos ⟨hp, hb⟩

/-- Settles O15: the order is `Hw.leafOrder`, whose length is NSYM by the invariant of the counters. -/
theorem sortWritesTheOrderedLeaves : Obligations.SortWritesTheOrderedLeaves := by
  intro s hinv hp hb
  have hlen : s.hw.leafOrder.length = s.hw.nsym := hinv.count.leafOrder_length
  have hfit : s.hw.nsym ≤ 511 := hinv.count.nsym_le.trans (by decide)
  refine ⟨s.hw.leafOrder, s.withHw s.hw.sorted, exec_sort_of_enabled hp hb, fun _ => mem_leafOrder, leafOrder_strict s.hw, hlen,
    hlen, ?seq, s.hw.sorted_nodeAt_of_lt, s.hw.sorted_nodeAt_of_le, ?bsub, rfl, rfl, rfl⟩
  case seq => exact hlen ▸ firstSlots_map_val (hlen.trans_le hfit)
  case bsub => exact hlen ▸ s.hw.sorted_bsub

end Sys2Proof.Machine

/-! # The tree builder: what MERGE leaves, in which order, and how many steps a BUILD takes (43_tree_builder.md R180 to R187) -/

namespace Sys2Proof.Machine

/-! ## One MERGE -/

theorem insertIdx_eq_take_append_drop {α : Type} {l : List α} {i : Nat} (h : i ≤ l.length) (x : α) :
    l.insertIdx i x = l.take i ++ x :: l.drop i := by
  induction l generalizing i with
  | nil => obtain rfl := Nat.le_zero.1 h; rfl
  | cons y ys ih =>
    cases i with
    | zero => rfl
    | succ i => simp [ih (Nat.le_of_succ_le_succ h)]

/-- With two entries in SEQ and a free slot no assertion of MERGE fires (43_tree_builder.md R180, R186). -/
theorem exec_merge_of_enabled {s : State} {a b : NodeIx} {rest : List NodeIx} {m : NodeIx} (hp : s.hw.phase = .build)
    (hb : s.hw.bsub = .merge) (hs : s.hw.seq = a :: b :: rest) (hm : m.val = s.hw.nnodes) :
    exec .merge s = .next (s.withHw (s.hw.merged a b rest m)) := by
  have hslot : s.hw.nnodes < 511 := hm ▸ m.isLt
  obtain rfl : m = ⟨s.hw.nnodes, hslot⟩ := Fin.ext hm
  simp [exec, execMerge, hp, hb, hs, hslot]

theorem Hw.merged_freq (hw : Hw) (a b : NodeIx) (rest : List NodeIx) (m x : NodeIx) :
    (hw.merged a b rest m).freq x = if x = m then hw.freq a + hw.freq b else hw.freq x := by
  by_cases hx : x = m
  · rw [if_pos hx, hx, Hw.freq, Hw.merged_nodeAt_self]; rfl
  · rw [if_neg hx, Hw.freq, hw.merged_nodeAt_ne _ _ _ hx]; rfl

/-- Settles O16: the insertion index is the first one whose entry's frequency is not less, or the end. -/
theorem mergeJoinsTheTwoFrontNodes : Obligations.MergeJoinsTheTwoFrontNodes := by
  intro s a b rest m hp hb hs hm
  have hi : s.hw.insertAt rest (s.hw.freq a + s.hw.freq b) ≤ rest.length := List.findIdx_le_length
  refine ⟨_, s.hw.insertAt rest (s.hw.freq a + s.hw.freq b), exec_merge_of_enabled hp hb hs hm, hi, ?before, ?index, ?seq,
    s.hw.merged_nodeAt_self a b rest m, fun k => s.hw.merged_nodeAt_ne a b rest, congrArg Nat.succ hm, ?bsub, rfl, rfl, rfl⟩
  case before => exact fun j h hlt => Nat.lt_of_not_le (of_decide_eq_false (List.not_of_lt_findIdx hlt))
  case index => exact fun h => of_decide_eq_true (List.findIdx_getElem (w := h))
  case seq => exact insertIdx_eq_take_append_drop hi m
  case bsub =>
    refine (s.hw.merged_bsub a b rest m).trans ?_
    cases rest <;> simp [hb]

/-! ## The order of SEQ -/

/-- SEQ is ascending by frequency: it lists the roots of the forest's trees (43_tree_builder.md R187). -/
theorem Hw.Forest.seq_ascending {hw : Hw} {ts : List HTree} (h : hw.Forest ts) : (hw.seq.map hw.freq).Pairwise (· ≤ ·) := by
  have hfreq : hw.seq.map hw.freq = ts.map (HTree.weight hw.histAt) := by
    rw [h.roots, List.map_map]
    exact List.map_congr_left fun t ht => HTree.stored_slot (h.stored t ht)
  exact hfreq ▸ h.ascending

/-- Whatever two entries MERGE leaves in SEQ, their frequencies add up to the new node's at least: each is the new node, or an entry
that stood behind a and b. -/
theorem Hw.merged_pair_le {hw : Hw} {a b : NodeIx} {rest : List NodeIx} {m : NodeIx}
    (hasc : ((a :: b :: rest).map hw.freq).Pairwise (· ≤ ·)) {x y : NodeIx} (hx : x ∈ (hw.merged a b rest m).seq)
    (hy : y ∈ (hw.merged a b rest m).seq) :
    hw.freq a + hw.freq b ≤ (hw.merged a b rest m).freq x + (hw.merged a b rest m).freq y := by
  simp only [List.map_cons, List.pairwise_cons, List.mem_cons, List.mem_map] at hasc
  obtain ⟨ha, hb, -⟩ := hasc
  have hab : hw.freq a ≤ hw.freq b := ha _ (.inl rfl)
  have hge : ∀ z ∈ (hw.merged a b rest m).seq,
      (hw.merged a b rest m).freq z = hw.freq a + hw.freq b ∨ hw.freq b ≤ (hw.merged a b rest m).freq z := by
    intro z hz
    rw [Hw.merged_freq]
    by_cases hm : z = m
    · exact .inl (if_pos hm)
    · have hrest : z ∈ rest := (List.eq_or_mem_of_mem_insertIdx hz).resolve_left hm
      rw [if_neg hm]
      exact .inr (hb _ ⟨z, hrest, rfl⟩)
  have hx := hge x hx
  have hy := hge y hy
  omega

/-- Settles O17: MERGE keeps a forest, whose roots SEQ lists in ascending order. -/
theorem mergesInAscendingOrder : Obligations.MergesInAscendingOrder := by
  intro s t a b rest h hp hb hs ht
  obtain ⟨hslot, -⟩ := h.build.merge_ready hp hb
  rw [exec_merge_of_enabled (m := ⟨s.hw.nnodes, hslot⟩) hp hb hs rfl] at ht
  obtain rfl := Host.Outcome.next.inj ht
  obtain ⟨ts, hf⟩ := (h.build.growing hp (by simp [hb])).forest
  obtain ⟨ts', hf'⟩ := hf.merged (m := ⟨s.hw.nnodes, hslot⟩) hs rfl
  have hasc := hf.seq_ascending
  refine ⟨hasc, hf'.seq_ascending, fun c d more hcd => ?_⟩
  rw [hs] at hasc
  rw [State.withHw_hw] at hcd
  exact Hw.merged_pair_le hasc (by simp [hcd]) (by simp [hcd])

/-! ## CODEGEN answers -/

section Codegen

variable {s : State} (hp : s.hw.phase = .build) (hb : s.hw.bsub = .codegen)
include hp hb

/-- CODEGEN of empty input (44_code_generator.md R201). -/
theorem exec_codegen_of_nil (hs : s.hw.seq = []) : exec .codegen s = .next (s.withHw (s.hw.finishBuild 0 false s.hw.code)) := by
  simp [exec, execCodegen, hp, hb, hs]

/-- CODEGEN of a tree whose walk ends (44_code_generator.md R200). -/
theorem exec_codegen_of_cons {r : NodeIx} {rest : List NodeIx} {code : Vector CodeEntry 256} (hs : s.hw.seq = r :: rest)
    (hc : codeTable s.hw.node r s.hw.code = some code) : exec .codegen s = .next (s.withHw (s.hw.finishBuild r true code)) := by
  simp [exec, execCodegen, hp, hb, hs, hc]

/-- Under the invariant CODEGEN ends the build. -/
theorem Hw.BuildInv.exec_codegen (h : s.hw.BuildInv) :
    ∃ r v code, exec .codegen s = .next (s.withHw (s.hw.finishBuild r v code)) := by
  match hs : s.hw.seq with
  | [] => exact ⟨_, _, _, exec_codegen_of_nil hp hb hs⟩
  | r :: rest =>
    obtain ⟨code, hc⟩ := h.codeTable_ready hp hb hs
    exact ⟨_, _, _, exec_codegen_of_cons hp hb hs hc⟩

end Codegen

/-! ## The core steps that are left -/

/-- How many core steps a BUILD still takes: SORT and what follows it; a MERGE for every entry of SEQ but one, and CODEGEN
(43_tree_builder.md R184). -/
def Hw.stepsLeft (hw : Hw) : Nat :=
  match hw.phase, hw.bsub with
  | .build, .sort => max hw.nsym 1 + 1
  | .build, _ => max hw.seq.length 1
  | _, _ => 0

theorem Hw.stepsLeft_of_sort {hw : Hw} (hp : hw.phase = .build) (hb : hw.bsub = .sort) : hw.stepsLeft = max hw.nsym 1 + 1 := by
  simp [Hw.stepsLeft, hp, hb]

theorem Hw.stepsLeft_of_not_sort {hw : Hw} (hp : hw.phase = .build) (hb : hw.bsub ≠ .sort) :
    hw.stepsLeft = max hw.seq.length 1 := by
  cases h : hw.bsub with
  | sort => exact absurd h hb
  | merge | codegen => simp [Hw.stepsLeft, hp, h]

theorem Hw.stepsLeft_of_not_build {hw : Hw} (hp : hw.phase ≠ .build) : hw.stepsLeft = 0 := by
  cases h : hw.phase with
  | build => exact absurd h hp
  | idle | count | counted | ready | encode | done | error => simp [Hw.stepsLeft, h]

theorem Hw.stepsLeft_pos {hw : Hw} : 0 < hw.stepsLeft ↔ hw.phase = .build := by
  refine ⟨fun h => ?_, fun hp => ?_⟩
  · by_contra hp
    rw [Hw.stepsLeft_of_not_build hp] at h
    exact absurd h (Nat.lt_irrefl 0)
  · by_cases hb : hw.bsub = .sort
    · rw [Hw.stepsLeft_of_sort hp hb]; omega
    · rw [Hw.stepsLeft_of_not_sort hp hb]; omega

/-- A sole entry of SEQ is the slot allocated last (43_tree_builder.md R182). -/
def Hw.SoleIsNewest (hw : Hw) : Prop := ∀ r, hw.seq = [r] → r.val + 1 = hw.nnodes

/-- What every core step of a BUILD does: it stays in BUILD or ends it, and one step less is left. -/
structure Hw.Advances (hw hw' : Hw) : Prop where
  nsym : hw'.nsym = hw.nsym
  phase : hw'.phase = .build ∨ hw'.phase = .ready
  stepsLeft : hw.stepsLeft = hw'.stepsLeft + 1
  soleIsNewest : hw.SoleIsNewest → hw'.SoleIsNewest

section Advances

variable {hw : Hw} (hp : hw.phase = .build)
include hp

theorem Hw.sorted_advances {c : Config} (h : hw.CountInv c) (hb : hw.bsub = .sort) : hw.Advances hw.sorted where
  nsym := rfl
  phase := .inl hp
  stepsLeft := by
    have hb' : hw.sorted.bsub ≠ .sort := by rw [Hw.sorted_bsub]; split <;> simp
    rw [Hw.stepsLeft_of_sort hp hb, Hw.stepsLeft_of_not_sort (hw := hw.sorted) hp hb', Hw.sorted_seq, firstSlots, List.length_map,
      List.length_range, h.leafOrder_length]
  soleIsNewest := fun _ r hr => by
    have hlen := congrArg List.length hr
    simp only [Hw.sorted_seq, firstSlots, List.length_map, List.length_range, List.length_singleton] at hlen
    simp only [Hw.sorted_seq, hlen] at hr
    obtain rfl : 0 = r := by simpa [firstSlots] using hr
    exact hlen.symm

theorem Hw.merged_advances (hb : hw.bsub = .merge) {a b : NodeIx} {rest : List NodeIx} {m : NodeIx}
    (hs : hw.seq = a :: b :: rest) : hw.Advances (hw.merged a b rest m) where
  nsym := rfl
  phase := .inl hp
  stepsLeft := by
    have hb' : (hw.merged a b rest m).bsub ≠ .sort := by rw [Hw.merged_bsub, hb]; split <;> simp
    rw [Hw.stepsLeft_of_not_sort hp (by simp [hb]), Hw.stepsLeft_of_not_sort (hw := hw.merged a b rest m) hp hb',
      Hw.merged_seq_length, hs]
    simp
  soleIsNewest := fun _ r hr => by
    have hm : m ∈ (hw.merged a b rest m).seq := (List.mem_insertIdx List.findIdx_le_length).2 (.inl rfl)
    rw [hr, List.mem_singleton] at hm
    rw [Hw.merged_nnodes, hm]

theorem Hw.finishBuild_advances (h : hw.BuildInv) (hb : hw.bsub = .codegen) (r : NodeIx) (v : Bool) (code : Vector CodeEntry 256) :
    hw.Advances (hw.finishBuild r v code) where
  nsym := rfl
  phase := .inr rfl
  stepsLeft := by
    have hlen := h.gathered hp hb
    rw [Hw.stepsLeft_of_not_sort hp (by simp [hb]), Hw.stepsLeft_of_not_build (by simp)]
    omega
  soleIsNewest := id

end Advances

/-- The core's pending step in BUILD answers, and one step less is left. -/
theorem State.Inv.coreStep_advances {s : State} (h : s.Inv) (hp : s.hw.phase = .build) :
    ∃ hw', exec (coreStep s.hw.bsub) s = .next (s.withHw hw') ∧ s.hw.Advances hw' := by
  cases hb : s.hw.bsub with
  | sort => exact ⟨_, exec_sort_of_enabled hp hb, Hw.sorted_advances hp h.count hb⟩
  | merge =>
    obtain ⟨hslot, a, b, rest, hs⟩ := h.build.merge_ready hp hb
    exact ⟨_, exec_merge_of_enabled (m := ⟨s.hw.nnodes, hslot⟩) hp hb hs rfl, Hw.merged_advances hp hb hs⟩
  | codegen =>
    obtain ⟨r, v, code, he⟩ := h.build.exec_codegen hp hb
    exact ⟨_, he, Hw.finishBuild_advances hp h.build hb r v code⟩

/-! ## The run of a BUILD -/

/-- In BUILD a listed turn of the core runs its pending step. -/
theorem step_core_of_build {s : State} {es : List Event} (he : s.env.events = .core :: es) (hp : s.hw.phase = .build) :
    step s = exec (coreStep s.hw.bsub) s.afterTurn := by
  refine step_of_run (State.fetch_of_ok (p := .core) (by rw [State.turn_of_cons he]; rfl) ?_)
  rw [hp]
  exact decodeCore_build _

/-- A state within a BUILD over n symbols, or just after it, with k core steps left. -/
structure State.Building (s : State) (n k : Nat) : Prop where
  inv : s.Inv
  nsym : s.hw.nsym = n
  phase : s.hw.phase = .build ∨ s.hw.phase = .ready
  stepsLeft : s.hw.stepsLeft = k
  soleIsNewest : s.hw.SoleIsNewest

section Building

variable {s : State} {n k : Nat}

theorem State.Building.phase_build (h : s.Building n (k + 1)) : s.hw.phase = .build :=
  Hw.stepsLeft_pos.1 (h.stepsLeft ▸ Nat.succ_pos k)

theorem State.Building.phase_ready (h : s.Building n 0) : s.hw.phase = .ready :=
  h.phase.resolve_left fun hp => absurd (Hw.stepsLeft_pos.2 hp) (by simp [h.stepsLeft])

/-- A BUILD begins with nothing in SEQ (40_commands.md R124). -/
theorem State.Inv.building (h : s.Inv) (hp : s.hw.phase = .build) (hb : s.hw.bsub = .sort) :
    s.Building s.hw.nsym (max s.hw.nsym 1 + 1) where
  inv := h
  nsym := rfl
  phase := .inl hp
  stepsLeft := Hw.stepsLeft_of_sort hp hb
  soleIsNewest := fun r hr => by simp [(h.build.sorting hp hb).seq] at hr

theorem State.Building.step {es : List Event} (h : s.Building n (k + 1)) (he : s.env.events = .core :: es) :
    ∃ t : State, Machine.step s = .next t ∧ t.env.events = es ∧ t.Building n k := by
  obtain ⟨hw', hx, ha⟩ := State.Inv.coreStep_advances (s := s.afterTurn) (h.inv.of_moves rfl .stays) h.phase_build
  have hstep : Machine.step s = .next (s.afterTurn.withHw hw') := (step_core_of_build he h.phase_build).trans hx
  exact ⟨_, hstep, State.afterTurn_events_of_cons he, {
    inv := stepKeepsTheInvariant _ _ h.inv hstep
    nsym := ha.nsym.trans h.nsym
    phase := ha.phase
    stepsLeft := Nat.succ.inj (ha.stepsLeft.symm.trans h.stepsLeft)
    soleIsNewest := ha.soleIsNewest h.soleIsNewest }⟩

/-- The core's turns take as many steps off a BUILD. -/
theorem State.Building.run {j : Nat} {more : List Event} (h : s.Building n (k + j))
    (he : s.env.events = List.replicate j .core ++ more) :
    ∃ t : State, core.run j s = .next t ∧ t.env.events = more ∧ t.Building n k := by
  induction j generalizing s with
  | zero => exact ⟨s, rfl, he, h⟩
  | succ j ih =>
    obtain ⟨u, hu, heu, hbu⟩ := h.step he
    rw [run_succ_of_step (M := core) hu]
    exact ih hbu heu

/-- What a BUILD leaves: 2 n - 1 nodes, and the last of them as the root (43_tree_builder.md R182, 44_code_generator.md R202). -/
theorem State.Building.finished (h : s.Building n 0) :
    s.hw.nnodes = 2 * n - 1 ∧ (1 ≤ n → s.hw.rootValid = true ∧ s.hw.root.val = 2 * n - 2) := by
  have hn : s.hw.present.length = n := h.inv.count.nsym.symm.trans h.nsym
  obtain ⟨t, hf, hvalid, hroot, -⟩ | ⟨hf, -⟩ := h.inv.build.built (.inl h.phase_ready)
  · have hnodes := hf.nnodes_seq
    have hlen : s.hw.seq.length = 1 := congrArg List.length hf.roots
    have hlast := h.soleIsNewest t.slot hf.roots
    exact ⟨by omega, fun _ => ⟨hvalid, by rw [hroot]; omega⟩⟩
  · have hnodes := hf.nnodes_seq
    have hempty : 0 = s.hw.present.length := hf.syms.length_eq
    exact ⟨by omega, fun _ => by omega⟩

end Building

/-- Settles O19: SORT leaves max(n, 1) steps, every MERGE takes one entry off SEQ, and CODEGEN is the last. -/
theorem buildTakesExactlyItsSteps : Obligations.BuildTakesExactlyItsSteps := by
  intro s more h he hp hb
  have hstart := h.building hp hb
  refine ⟨?_, fun k hk => ?_⟩
  · obtain ⟨t, hrun, hev, ht⟩ := State.Building.run (k := 0) (by rwa [Nat.zero_add]) he
    exact ⟨t, hrun, hev, ht.phase_ready, ht.finished⟩
  · obtain ⟨j, hj⟩ := Nat.exists_eq_add_of_le hk
    have hsum : max s.hw.nsym 1 + 1 = (j + 1) + k := by omega
    rw [hsum] at hstart
    rw [hsum, Nat.add_comm, List.replicate_add, List.append_assoc] at he
    obtain ⟨t, hrun, -, ht⟩ := hstart.run he
    exact ⟨t, hrun, ht.phase_build⟩

end Sys2Proof.Machine

/-! # The code generator: what CODEGEN leaves, and its code table (44_code_generator.md R200 to R209) -/

namespace Sys2Proof.Machine

/-! ## CODEGEN -/

/-- CODEGEN plants no root over an empty forest, and the root and the codes of the one tree otherwise (44_code_generator.md R200). -/
theorem State.Inv.exec_codegen_cases {s : State} (h : s.Inv) (hp : s.hw.phase = .build) (hb : s.hw.bsub = .codegen) :
    (s.hw.Forest [] ∧ exec .codegen s = .next (s.withHw (s.hw.finishBuild 0 false s.hw.code)) ∧ s.hw.NoCodes) ∨
      ∃ u code, s.hw.Forest [u] ∧ exec .codegen s = .next (s.withHw (s.hw.finishBuild u.slot true code)) ∧
        (s.hw.finishBuild u.slot true code).Coded u := by
  have hg := h.build.growing hp (by simp [hb])
  have hlen := h.build.gathered hp hb
  obtain ⟨ts, hf⟩ := hg.forest
  match ts with
  | [] => exact .inl ⟨hf, exec_codegen_of_nil hp hb hf.roots, hg.codes⟩
  | [u] =>
    have hu : u ∈ [u] := List.mem_singleton_self u
    exact .inr ⟨u, _, hf, exec_codegen_of_cons hp hb hf.roots (codeTable_stored (hf.stored u hu) hf.slots_length_le _),
      Hw.coded_of_codes hg.codes (hf.syms_nodup hu) rfl⟩
  | _ :: _ :: _ => rw [hf.roots] at hlen; simp at hlen

theorem Hw.Forest.nil_nsym {hw : Hw} {c : Config} (hf : hw.Forest []) (h : hw.CountInv c) : hw.nsym = 0 :=
  h.nsym.trans hf.syms.length_eq.symm

/-- The one tree has a leaf for each symbol present (10_state.md R41). -/
theorem Hw.Forest.sole_nsym {hw : Hw} {c : Config} {t : HTree} (hf : hw.Forest [t]) (h : hw.CountInv c) : hw.nsym = t.syms.length := by
  rw [h.nsym, ← hf.syms.length_eq]; simp

theorem HTree.branch_syms_length (i : NodeIx) (l r : HTree) : 2 ≤ (HTree.branch i l r).syms.length := by
  have hl := l.syms_pos
  have hr := r.syms_pos
  simp only [HTree.syms, List.length_append]
  omega

/-- Settles O18: CODEGEN records the codes of the one tree, which is a sole leaf for n = 1 and has its paths for codes for n ≥ 2. -/
theorem codegenRecordsThePathsOfTheTree : Obligations.CodegenRecordsThePathsOfTheTree := by
  intro s h hp hb
  obtain ⟨hf, hx, hno⟩ | ⟨u, code, hf, hx, hc⟩ := h.exec_codegen_cases hp hb
  · have hn := hf.nil_nsym h.count
    exact ⟨_, hx, rfl, rfl, fun _ => ⟨rfl, rfl, hno⟩, by omega, by omega, rfl, rfl, rfl⟩
  · have hn := hf.sole_nsym h.count
    have hpos := u.syms_pos
    refine ⟨_, hx, rfl, rfl, by omega, ?sole, ?tree, rfl, rfl, rfl⟩
    case sole =>
      intro h1
      cases u with
      | leaf i b =>
        exact ⟨rfl, b, hf.mem_sole_syms.1 (List.mem_singleton_self b), hc.1 _ (List.mem_singleton_self _),
          fun x hxb => hc.2 x fun hm => hxb (List.mem_singleton.1 hm)⟩
      | branch i l r => have := HTree.branch_syms_length i l r; omega
    case tree =>
      intro h2
      cases u with
      | leaf i b => exact absurd (hn ▸ h2) (by simp [HTree.syms])
      | branch i l r =>
        exact ⟨rfl, .branch i l r, hf.stored _ (List.mem_singleton_self _), hf.roots, rfl, hc.1,
          fun b => ⟨hf.mem_sole_syms.symm, hc.2 b⟩⟩

/-! ## The code table after BUILD -/

/-- What CODEGEN and the steps before it write. -/
structure Hw.SameTree (hw hw' : Hw) : Prop where
  code : hw'.code = hw.code
  node : hw'.node = hw.node
  nnodes : hw'.nnodes = hw.nnodes
  seq : hw'.seq = hw.seq
  root : hw'.root = hw.root
  rootValid : hw'.rootValid = hw.rootValid

/-- Outside BUILD only CLEAR and reset write the tree or the code table (44_code_generator.md R205). -/
theorem Hw.Moves.sameTree {c : Config} {hw hw' : Hw} (h : hw.Moves c hw') (hp : hw.phase ≠ .build) :
    hw.SameTree hw' ∨ ∃ q, hw'.AtReset q := by
  cases h with
  | stays | errs | starts | counts | counted | builds | opens | delivers => exact .inl ⟨rfl, rfl, rfl, rfl, rfl, rfl⟩
  | clears | resets => exact .inr ⟨_, Hw.reset_atReset _⟩
  | sorts hbuild | merges _ _ _ _ hbuild | plants hbuild | generates _ _ _ hbuild => exact absurd hbuild hp
  | encodes b hw' _ hroom hmore hcode he =>
    obtain ⟨acc, nacc, bytes, rfl, -⟩ := Hw.encodeSymbol_next hroom hmore hcode he
    exact .inl ⟨rfl, rfl, rfl, rfl, rfl, rfl⟩
  | finishes hw' _ hroom hall he =>
    obtain ⟨-, rfl⟩ := Hw.finishEncode_next hroom hall he
    exact .inl ⟨rfl, rfl, rfl, rfl, rfl, rfl⟩

/-- Settles O22: by the moves of HUFENC's own state. -/
theorem codeTableIsReadOnlyAfterBuild : Obligations.CodeTableIsReadOnlyAfterBuild := fun _ _ h hp =>
  ((step_moves h).2.sameTree hp).imp_left fun ⟨code, node, nnodes, seq, root, rootValid⟩ =>
    ⟨code, node, nnodes, seq, root, rootValid⟩

/-! ## No code is a beginning of another -/

/-- No code of a tree is a beginning of another; a sole leaf has one code (44_code_generator.md R206). -/
theorem HTree.codes_prefix_free {t : HTree} (ht : t.syms.Nodup) {e f : Byte × List Bool} (he : e ∈ t.codes) (hf : f ∈ t.codes)
    (hp : e.2 <+: f.2) : e = f := by
  cases t with
  | leaf i b => exact (List.mem_singleton.1 he).trans (List.mem_singleton.1 hf).symm
  | branch i l r => exact HTree.paths_prefix_free ht he hf hp

/-- A code is a beginning of another in the same table only if the symbols are the same. -/
theorem Hw.BuildInv.eq_of_code_prefix {hw : Hw} (h : hw.BuildInv) {a b : Byte} (ha : 0 < (hw.codeAt a).len)
    (hb : 0 < (hw.codeAt b).len) (hp : (hw.codeAt a).bits <+: (hw.codeAt b).bits) : a = b := by
  obtain hn | ⟨t, hf, hc⟩ := h.noCodes_or_coded
  · rw [hn a, CodeEntry.none] at ha; exact absurd ha (lt_irrefl 0)
  · obtain ⟨p, hpa, ea⟩ := hc.entry (hc.mem ha.ne')
    obtain ⟨q, hqb, eb⟩ := hc.entry (hc.mem hb.ne')
    rw [ea, eb] at hp
    exact congrArg Prod.fst (HTree.codes_prefix_free (hf.syms_nodup (List.mem_singleton_self t)) hpa hqb hp)

/-- Settles O24: the codes are those of one tree, of whose paths none is a beginning of another. -/
theorem codesArePrefixFree : Obligations.CodesArePrefixFree := fun _ h _ _ _ hne ha hb hp =>
  hne (h.build.eq_of_code_prefix ha hb hp)

/-! ## The Kraft sum -/

/-- The Kraft sum of the codes of a tree, scaled by 2^255 (44_code_generator.md R207). -/
theorem HTree.codes_kraft {t : HTree} (ht : t.syms.length ≤ 256) :
    (t.codes.map fun e => 2 ^ (255 - e.2.length)).sum = if 2 ≤ t.syms.length then 2 ^ 255 else 2 ^ 254 := by
  cases t with
  | leaf i b => simp [HTree.codes, HTree.syms]
  | branch i l r =>
    rw [if_pos (HTree.branch_syms_length i l r)]
    exact HTree.paths_kraft _ [] 255 (by simpa using ht)

/-- The symbols with codes are those of the tree. -/
theorem Hw.Coded.symbols_perm {hw : Hw} {t : HTree} (h : hw.Coded t) (hs : t.syms.Nodup) (hlen : t.syms.length ≤ 256) :
    (symbols.filter fun b => decide (0 < (hw.codeAt b).len)).Perm t.syms := by
  refine (List.perm_ext_iff_of_nodup (symbols_nodup.filter _) hs).2 fun b => ?_
  simp only [List.mem_filter, mem_symbols, true_and, decide_eq_true_eq]
  refine ⟨fun hb => h.mem hb.ne', fun hb => ?_⟩
  obtain ⟨p, hp, e⟩ := h.entry hb
  rw [e]
  exact (HTree.codes_length hlen hp).1

/-- The Kraft sum over the code table of a tree is that over the codes of the tree. -/
theorem Hw.Coded.kraft {hw : Hw} {t : HTree} (h : hw.Coded t) (hs : t.syms.Nodup) (hlen : t.syms.length ≤ 256) :
    ((symbols.filter fun b => decide (0 < (hw.codeAt b).len)).map fun b => 2 ^ (255 - (hw.codeAt b).len)).sum =
      if 2 ≤ t.syms.length then 2 ^ 255 else 2 ^ 254 := by
  rw [((h.symbols_perm hs hlen).map _).sum_eq, ← HTree.codes_kraft hlen, ← t.codes_syms, List.map_map]
  exact congrArg List.sum (List.map_congr_left fun e he => by simp [h.1 e he])

/-- Settles O25: the codes are those of a full tree for n ≥ 2, the one code "0" for n = 1, and none for n = 0. -/
theorem kraftSumOfTheCodeTable : Obligations.KraftSumOfTheCodeTable := by
  intro s h hp
  obtain ⟨t, hf, -, -, hc⟩ | ⟨hf, -, -, hno⟩ := h.build.built hp
  · have hpos := t.syms_pos
    rw [hc.kraft (hf.syms_nodup (List.mem_singleton_self t)) hf.syms_length_le, hf.sole_nsym h.count]
    split
    · rfl
    · rw [if_pos (by omega)]
  · rw [hf.nil_nsym h.count]
    simp [hno _, CodeEntry.none]

/-! ## Decoding -/

/-- The symbol that the decode procedure finds for the bits gathered so far (44_code_generator.md R209). -/
def Hw.symbolOf (hw : Hw) (p : List Bool) : Option Byte :=
  symbols.find? fun b => decide (0 < (hw.codeAt b).len) && (hw.codeAt b).bits == p

theorem Hw.decodeBits_of_some {hw : Hw} {p : List Bool} {x : Bool} {b : Byte} (h : hw.symbolOf (p ++ [x]) = some b) (xs : List Bool) :
    hw.decodeBits p (x :: xs) = (b :: (hw.decodeBits [] xs).1, (hw.decodeBits [] xs).2) := by
  rw [Hw.symbolOf] at h
  simp only [Hw.decodeBits, h]

theorem Hw.decodeBits_of_none {hw : Hw} {p : List Bool} {x : Bool} (h : hw.symbolOf (p ++ [x]) = none) (xs : List Bool) :
    hw.decodeBits p (x :: xs) = hw.decodeBits (p ++ [x]) xs := by
  rw [Hw.symbolOf] at h
  simp only [Hw.decodeBits, h]

theorem Hw.symbolOf_eq_some {hw : Hw} {p : List Bool} {b : Byte} (h : hw.symbolOf p = some b) :
    0 < (hw.codeAt b).len ∧ (hw.codeAt b).bits = p := by
  simpa using List.find?_some h

section Decode

variable {hw : Hw} (h : hw.BuildInv) {b : Byte} (hb : 0 < (hw.codeAt b).len)
include h hb

/-- The bits of a whole code are found to be its symbol's. -/
theorem Hw.BuildInv.symbolOf_code : hw.symbolOf (hw.codeAt b).bits = some b := by
  cases hs : hw.symbolOf (hw.codeAt b).bits with
  | none =>
    have := List.find?_eq_none.1 hs b (mem_symbols b)
    simp [hb] at this
  | some a =>
    obtain ⟨ha, e⟩ := Hw.symbolOf_eq_some hs
    rw [h.eq_of_code_prefix ha hb (e ▸ List.prefix_rfl)]

/-- The bits of an unfinished code are no symbol's. -/
theorem Hw.BuildInv.symbolOf_unfinished {p r : List Bool} (hr : r ≠ []) (hp : p ++ r = (hw.codeAt b).bits) : hw.symbolOf p = none := by
  cases hs : hw.symbolOf p with
  | none => rfl
  | some a =>
    obtain ⟨ha, e⟩ := Hw.symbolOf_eq_some hs
    obtain rfl := h.eq_of_code_prefix ha hb ⟨r, by rw [e, hp]⟩
    rw [e] at hp
    exact absurd (List.append_right_eq_self.1 hp) hr

/-- From within a code of a symbol, the procedure gives the symbol when the code is complete, and begins anew. -/
theorem Hw.BuildInv.decodeBits_code {p r : List Bool} (hr : r ≠ []) (hp : p ++ r = (hw.codeAt b).bits) (xs : List Bool) :
    hw.decodeBits p (r ++ xs) = (b :: (hw.decodeBits [] xs).1, (hw.decodeBits [] xs).2) := by
  induction r generalizing p with
  | nil => exact absurd rfl hr
  | cons x r ih =>
    have hp' : (p ++ [x]) ++ r = (hw.codeAt b).bits := by rw [List.append_assoc]; exact hp
    by_cases hlast : r = []
    · subst hlast
      rw [List.append_nil] at hp'
      exact Hw.decodeBits_of_some (hp' ▸ h.symbolOf_code hb) xs
    · rw [List.cons_append, Hw.decodeBits_of_none (h.symbolOf_unfinished hb hlast hp')]
      exact ih hlast hp'

end Decode

/-- Settles O26: by induction on the bytes; no beginning of a code is another code, so each code is read to its end. -/
theorem decodingTheCodesGivesTheBytesBack : Obligations.DecodingTheCodesGivesTheBytesBack := by
  intro s bytes h _ hcodes
  induction bytes with
  | nil => rfl
  | cons b bytes ih =>
    obtain ⟨hb, hrest⟩ := List.forall_mem_cons.1 hcodes
    have hne : (s.hw.codeAt b).bits ≠ [] := List.ne_nil_of_length_pos ((h.build.code_fits b).1 ▸ hb)
    rw [List.flatMap_cons, h.build.decodeBits_code hb hne rfl, ih hrest]

end Sys2Proof.Machine

/-! # The code generator: the code table is a function of the histogram (44_code_generator.md R208) -/

namespace Sys2Proof.Machine

/-! ## Two builds in lockstep -/

/-- Two states that agree in everything a BUILD reads or writes. -/
structure Hw.Lockstep (hw hw' : Hw) : Prop extends hw.SameBuild hw' where
  phase : hw'.phase = hw.phase
  bsub : hw'.bsub = hw.bsub

section Lockstep

variable {hw hw' : Hw} (e : hw.Lockstep hw')
include e

theorem Hw.Lockstep.leafOrder : hw'.leafOrder = hw.leafOrder := by
  unfold Hw.leafOrder Hw.leafLe
  rw [histAt_congr e.hist]

theorem Hw.Lockstep.leafOf : hw'.leafOf = hw.leafOf := by
  funext b; rw [Hw.leafOf, Hw.leafOf, histAt_congr e.hist]

theorem Hw.Lockstep.freq : hw'.freq = hw.freq := by
  funext i; rw [Hw.freq, Hw.freq, Hw.nodeAt, Hw.nodeAt, e.node]

theorem Hw.Lockstep.insertAt : hw'.insertAt = hw.insertAt := by
  unfold Hw.insertAt
  rw [e.freq]

theorem Hw.Lockstep.sorted : hw.sorted.Lockstep hw'.sorted where
  hist := e.hist
  nnodes := congrArg List.length e.leafOrder
  seq := by rw [Hw.sorted_seq, Hw.sorted_seq, e.leafOrder]
  node := by simp only [Hw.sorted, e.leafOrder, e.leafOf, e.node]
  root := e.root
  rootValid := e.rootValid
  code := e.code
  phase := e.phase
  bsub := by rw [Hw.sorted_bsub, Hw.sorted_bsub, e.leafOrder]

theorem Hw.Lockstep.merged (a b : NodeIx) (rest : List NodeIx) (m : NodeIx) :
    (hw.merged a b rest m).Lockstep (hw'.merged a b rest m) where
  hist := e.hist
  nnodes := rfl
  seq := by simp only [Hw.merged, Hw.mergedNode, e.insertAt, e.freq]
  node := by simp only [Hw.merged, Hw.setNode, Hw.mergedNode, e.freq, e.node]
  root := e.root
  rootValid := e.rootValid
  code := e.code
  phase := e.phase
  bsub := by rw [Hw.merged_bsub, Hw.merged_bsub, e.bsub]

theorem Hw.Lockstep.finishBuild (r : NodeIx) (v : Bool) (code : Vector CodeEntry 256) :
    (hw.finishBuild r v code).Lockstep (hw'.finishBuild r v code) :=
  ⟨⟨e.hist, e.nnodes, e.seq, e.node, rfl, rfl, rfl⟩, rfl, rfl⟩

end Lockstep

/-- The core's pending step keeps two states in lockstep. -/
theorem State.Inv.coreStep_lockstep {s s' : State} (h : s.Inv) (hp : s.hw.phase = .build) (e : s.hw.Lockstep s'.hw) :
    ∃ hw hw' : Hw, exec (coreStep s.hw.bsub) s = .next (s.withHw hw) ∧ exec (coreStep s'.hw.bsub) s' = .next (s'.withHw hw') ∧
      hw.Lockstep hw' := by
  have hp' := e.phase.trans hp
  rw [e.bsub]
  cases hb : s.hw.bsub with
  | sort => exact ⟨_, _, exec_sort_of_enabled hp hb, exec_sort_of_enabled hp' (e.bsub.trans hb), e.sorted⟩
  | merge =>
    obtain ⟨hslot, a, b, rest, hs⟩ := h.build.merge_ready hp hb
    exact ⟨_, _, exec_merge_of_enabled (m := ⟨s.hw.nnodes, hslot⟩) hp hb hs rfl,
      exec_merge_of_enabled hp' (e.bsub.trans hb) (e.seq.trans hs) e.nnodes.symm, e.merged a b rest _⟩
  | codegen =>
    match hs : s.hw.seq with
    | [] =>
      exact ⟨_, _, exec_codegen_of_nil hp hb hs, exec_codegen_of_nil hp' (e.bsub.trans hb) (e.seq.trans hs),
        e.code ▸ e.finishBuild 0 false _⟩
    | r :: rest =>
      obtain ⟨code, hc⟩ := h.build.codeTable_ready hp hb hs
      exact ⟨_, _, exec_codegen_of_cons hp hb hs hc,
        exec_codegen_of_cons hp' (e.bsub.trans hb) (e.seq.trans hs) (by rw [e.node, e.code]; exact hc), e.finishBuild r true code⟩

/-- Two builds in lockstep to which the core's turns are given end in lockstep. -/
theorem State.Building.run_lockstep {s s' : State} {n j : Nat} {more more' : List Event} (h : s.Building n j) (h' : s'.Building n j)
    (e : s.hw.Lockstep s'.hw) (he : s.env.events = List.replicate j .core ++ more)
    (he' : s'.env.events = List.replicate j .core ++ more') :
    ∃ t t' : State, core.run j s = .next t ∧ core.run j s' = .next t' ∧ t.hw.Lockstep t'.hw := by
  induction j generalizing s s' with
  | zero => exact ⟨s, s', rfl, rfl, e⟩
  | succ j ih =>
    obtain ⟨u, hu, heu, hbu⟩ := h.step he
    obtain ⟨u', hu', heu', hbu'⟩ := h'.step he'
    obtain ⟨hw, hw', hx, hx', e⟩ := State.Inv.coreStep_lockstep (s := s.afterTurn) (s' := s'.afterTurn)
      (h.inv.of_moves rfl .stays) h.phase_build e
    obtain rfl := Host.Outcome.next.inj (hu.symm.trans ((step_core_of_build he h.phase_build).trans hx))
    obtain rfl := Host.Outcome.next.inj (hu'.symm.trans ((step_core_of_build he' h'.phase_build).trans hx'))
    rw [run_succ_of_step (M := core) hu, run_succ_of_step (M := core) hu']
    exact ih hbu hbu' e heu heu'

theorem Hw.code_ext {hw hw' : Hw} (h : ∀ b, hw'.codeAt b = hw.codeAt b) : hw'.code = hw.code := by
  refine Vector.ext fun i hi => ?_
  have hb := h (BitVec.ofNat 8 i)
  simpa only [Hw.codeAt, BitVec.toNat_ofNat, Nat.mod_eq_of_lt hi] using hb

/-- Two builds over the same histogram begin in lockstep: nothing is built yet. -/
theorem Hw.Unbuilt.lockstep {hw hw' : Hw} (h : hw.Unbuilt) (h' : hw'.Unbuilt) (hh : hw'.hist = hw.hist)
    (hp : hw'.phase = hw.phase) (hb : hw'.bsub = hw.bsub) : hw.Lockstep hw' where
  hist := hh
  nnodes := h'.nnodes.trans h.nnodes.symm
  seq := h'.seq.trans h.seq.symm
  node := Vector.ext fun i hi => (h'.nodes ⟨i, hi⟩).trans (h.nodes ⟨i, hi⟩).symm
  root := h'.root.1.trans h.root.1.symm
  rootValid := h'.root.2.trans h.root.2.symm
  code := Hw.code_ext fun b => (h'.codes b).trans (h.codes b).symm
  phase := hp
  bsub := hb

/-- NSYM follows the histogram (41_frequency_counter.md R146). -/
theorem Hw.CountInv.nsym_congr {hw hw' : Hw} {c c' : Config} (h : hw.CountInv c) (h' : hw'.CountInv c') (hh : hw'.hist = hw.hist) :
    hw'.nsym = hw.nsym := by
  rw [h'.nsym, h.nsym, Hw.present, Hw.present, histAt_congr hh]

/-- Settles O20: both builds begin with nothing built, and every core step keeps them in lockstep. -/
theorem codeTableDependsOnTheHistogramOnly : Obligations.CodeTableDependsOnTheHistogramOnly := by
  intro s s' more more' h h' hh he hp hb he' hp' hb'
  have hn : s'.hw.nsym = s.hw.nsym := h.count.nsym_congr h'.count hh.symm
  have hstart : s.hw.Lockstep s'.hw :=
    (h.build.sorting hp hb).lockstep (h'.build.sorting hp' hb') hh.symm (hp'.trans hp.symm) (hb'.trans hb.symm)
  have hbuild := h'.building hp' hb'
  rw [hn] at he' hbuild ⊢
  obtain ⟨t, t', hrun, hrun', e⟩ := (h.building hp hb).run_lockstep hbuild hstart he he'
  exact ⟨t, t', hrun, hrun', e.code.symm, e.node.symm, e.root.symm, e.rootValid.symm⟩

end Sys2Proof.Machine

/-! # The code generator: a more frequent symbol has no longer a code (44_code_generator.md R210, R211) -/

namespace Sys2Proof.Machine

/-! ## The order of siblings -/

/-- Slot x is a child of the Internal node in slot i (10_state.md R28). -/
def Hw.Child (hw : Hw) (x i : NodeIx) : Prop :=
  (hw.nodeAt i).kind = .internal ∧ (x = (hw.nodeAt i).left ∨ x = (hw.nodeAt i).right)

/-- What joining the two least frequent nodes in SEQ comes to: the children of an older node are no more frequent than those of a newer
one, and no child is more frequent than what still waits in SEQ (43_tree_builder.md R181, R187). -/
structure Hw.Siblings (hw : Hw) : Prop where
  ordered : ∀ {x i y j : NodeIx}, hw.Child x i → hw.Child y j → i < j → hw.freq x ≤ hw.freq y
  waiting : ∀ {x i r : NodeIx}, hw.Child x i → r ∈ hw.seq → hw.freq x ≤ hw.freq r

theorem Hw.Siblings.of_same {hw hw' : Hw} (h : hw.Siblings) (hn : hw'.node = hw.node) (hs : hw'.seq = hw.seq) : hw'.Siblings := by
  have hnode : hw'.nodeAt = hw.nodeAt := by funext i; rw [Hw.nodeAt, Hw.nodeAt, hn]
  constructor
  · simp only [Hw.Child, Hw.freq, hnode]; exact h.ordered
  · simp only [Hw.Child, Hw.freq, hnode, hs]; exact h.waiting

/-- Where every node is a Leaf there are no siblings. -/
theorem Hw.Siblings.of_leaves {hw : Hw} (h : ∀ i, (hw.nodeAt i).kind = .leaf) : hw.Siblings := by
  have hno : ∀ {x i}, ¬ hw.Child x i := fun {x i} hc => by rw [Hw.Child, h i] at hc; exact nomatch hc.1
  exact ⟨fun hc => absurd hc hno, fun hc => absurd hc hno⟩

theorem Hw.Unbuilt.sorted_leaf {hw : Hw} (h : hw.Unbuilt) (i : NodeIx) : (hw.sorted.nodeAt i).kind = .leaf := by
  by_cases hi : i.val < hw.leafOrder.length
  · rw [hw.sorted_nodeAt_of_lt i hi]; rfl
  · rw [hw.sorted_nodeAt_of_le i (Nat.le_of_not_lt hi), h.nodes]; rfl

theorem Hw.merged_child {hw : Hw} {a b : NodeIx} {rest : List NodeIx} {m x i : NodeIx} :
    (hw.merged a b rest m).Child x i ↔ (i = m ∧ (x = a ∨ x = b)) ∨ (i ≠ m ∧ hw.Child x i) := by
  by_cases hi : i = m
  · subst hi; simp [Hw.Child, Hw.mergedNode]
  · simp [Hw.Child, hi, hw.merged_nodeAt_ne _ _ _ hi]

section Forest

variable {hw : Hw} {ts : List HTree} (hf : hw.Forest ts)
include hf

theorem Hw.Forest.seq_lt {r : NodeIx} (hr : r ∈ hw.seq) : r.val < hw.nnodes := by
  rw [hf.roots] at hr
  obtain ⟨t, ht, rfl⟩ := List.mem_map.1 hr
  exact hf.slot_lt ht t.slot_mem

/-- A node with children is allocated, and so are its children (10_state.md R41). -/
theorem Hw.Forest.child_lt {x i : NodeIx} (hc : hw.Child x i) : i.val < hw.nnodes ∧ x.val < hw.nnodes := by
  obtain ⟨hk, hx⟩ := hc
  have hi : i.val < hw.nnodes := by
    by_contra hi
    rw [hf.unallocated i (Nat.le_of_not_lt hi)] at hk
    cases hk
  refine ⟨hi, ?_⟩
  have hmem : i.val ∈ (ts.flatMap HTree.slots).map Fin.val := hf.slots.mem_iff.2 (List.mem_range.2 hi)
  obtain ⟨t, ht, hit⟩ := List.mem_flatMap.1 ((List.mem_map_of_injective Fin.val_injective).1 hmem)
  have hnodup : (ts.flatMap HTree.slots).Nodup := List.Nodup.of_map _ (hf.slots.nodup_iff.2 List.nodup_range)
  obtain ⟨b, -, e⟩ | ⟨l, hl, r, hr, -, e⟩ := (hf.stored t ht).nodeAt_cases ((List.nodup_flatMap.1 hnodup).1 t ht) hit
  · rw [e] at hk; cases hk
  · rw [e] at hx
    obtain rfl | rfl := hx
    · exact hf.slot_lt ht hl
    · exact hf.slot_lt ht hr

section Merged

variable (h : hw.Siblings) {a b : NodeIx} {rest : List NodeIx} {m : NodeIx} (hs : hw.seq = a :: b :: rest)
include h hs

/-- After MERGE a child is one of the two front nodes or an older child: no more frequent than the second of the two, nor than any
entry behind it. -/
theorem Hw.Siblings.merged_child_le {x i : NodeIx} (hx : (hw.merged a b rest m).Child x i) :
    x.val < hw.nnodes ∧ ∀ z ∈ b :: rest, hw.freq x ≤ hw.freq z := by
  have hasc := List.pairwise_map.1 (hs ▸ hf.seq_ascending)
  obtain ⟨ha, hasc⟩ := List.pairwise_cons.1 hasc
  obtain ⟨hb, -⟩ := List.pairwise_cons.1 hasc
  obtain ⟨-, rfl | rfl⟩ | ⟨-, hx⟩ := merged_child.1 hx
  · exact ⟨hf.seq_lt (by simp [hs]), ha⟩
  · exact ⟨hf.seq_lt (by simp [hs]), List.forall_mem_cons.2 ⟨le_rfl, hb⟩⟩
  · exact ⟨(hf.child_lt hx).2, fun z hz => h.waiting hx (hs ▸ List.mem_cons_of_mem a hz)⟩

/-- MERGE keeps the order of siblings: the two nodes it joins waited in SEQ, at its front. -/
theorem Hw.Siblings.merged (hm : m.val = hw.nnodes) : (hw.merged a b rest m).Siblings := by
  have hfreq : ∀ {x : NodeIx}, x.val < hw.nnodes → (hw.merged a b rest m).freq x = hw.freq x := fun {x} hx => by
    rw [Hw.merged_freq, if_neg fun e => by rw [e, hm] at hx; exact hx.false]
  constructor
  case ordered =>
    intro x i y j hx hy hij
    rw [hfreq (h.merged_child_le hf hs hx).1, hfreq (h.merged_child_le hf hs hy).1]
    obtain ⟨rfl, -⟩ | ⟨-, hx⟩ := merged_child.1 hx
    · obtain ⟨rfl, -⟩ | ⟨-, hy⟩ := merged_child.1 hy
      · exact absurd hij (lt_irrefl _)
      · have hj := (hf.child_lt hy).1
        have hij : i.val < j.val := hij
        omega
    · obtain ⟨-, hy⟩ | ⟨-, hy⟩ := merged_child.1 hy
      · exact h.waiting hx (by obtain rfl | rfl := hy <;> simp [hs])
      · exact h.ordered hx hy hij
  case waiting =>
    intro x i r hx hr
    obtain ⟨hlt, hle⟩ := h.merged_child_le hf hs hx
    rw [hfreq hlt]
    obtain rfl | hr := List.eq_or_mem_of_mem_insertIdx hr
    · rw [Hw.merged_freq, if_pos rfl]
      exact (hle b List.mem_cons_self).trans (Nat.le_add_left _ _)
    · rw [hfreq (hf.seq_lt (by simp [hs, hr]))]
      exact hle r (List.mem_cons_of_mem b hr)

end Merged

end Forest

/-- Every move of HUFENC's own state keeps the order of siblings: SORT writes leaves, MERGE joins the front of SEQ, and no other
move writes a node. -/
theorem Hw.Moves.siblings {c : Config} {hw hw' : Hw} (hm : hw.Moves c hw') (hb : hw.BuildInv) (h : hw.Siblings) : hw'.Siblings := by
  cases hm with
  | stays | errs | starts | counts | counted | builds | plants | generates | opens | delivers => exact h.of_same rfl rfl
  | clears | resets => exact .of_leaves fun i => congrArg Node.kind (Hw.reset_nodeAt i)
  | sorts hp hsort => exact .of_leaves (hb.sorting hp hsort).sorted_leaf
  | merges a b rest m hp hmerge hs hm =>
    obtain ⟨ts, hf⟩ := (hb.growing hp (by simp [hmerge])).forest
    exact h.merged hf hs hm
  | encodes b hw' _ hroom hmore hcode he =>
    obtain ⟨acc, nacc, bytes, rfl, -⟩ := Hw.encodeSymbol_next hroom hmore hcode he
    exact h.of_same rfl rfl
  | finishes hw' _ hroom hall he =>
    obtain ⟨-, rfl⟩ := Hw.finishEncode_next hroom hall he
    exact h.of_same rfl rfl

/-! ## The depth of a node -/

/-- The slots of a tree with their depths, where the root stands at depth `d`. -/
def HTree.depths : HTree → Nat → List (NodeIx × Nat)
  | .leaf i _, d => [(i, d)]
  | .branch i l r, d => (i, d) :: (l.depths (d + 1) ++ r.depths (d + 1))

theorem HTree.depths_slots (t : HTree) (d : Nat) : (t.depths d).map Prod.fst = t.slots := by
  induction t generalizing d with
  | leaf i b => rfl
  | branch i l r hl hr => simp [HTree.depths, HTree.slots, hl, hr]

/-- A slot of a stored tree is its root, or stands one below the node over it. -/
theorem HTree.Stored.depths_parent {hw : Hw} {t : HTree} (h : t.Stored hw) {d c : Nat} {x : NodeIx} (hx : (x, c) ∈ t.depths d) :
    (x = t.slot ∧ c = d) ∨
      ∃ i e l r, (i, e) ∈ t.depths d ∧ c = e + 1 ∧ hw.nodeAt i = hw.mergedNode l r ∧ (x = l ∨ x = r) := by
  induction t generalizing d with
  | leaf i b => exact .inl (by simpa [HTree.depths, HTree.slot] using hx)
  | branch i l r hl hr =>
    obtain ⟨hi, h1, h2⟩ := h
    simp only [HTree.depths, List.mem_cons, List.mem_append, Prod.mk.injEq] at hx ⊢
    obtain hx | hx | hx := hx
    · exact .inl hx
    · obtain ⟨rfl, rfl⟩ | ⟨k, e, u, v, hk, hrest⟩ := hl h1 hx
      · exact .inr ⟨i, d, _, _, .inl ⟨rfl, rfl⟩, rfl, hi, .inl rfl⟩
      · exact .inr ⟨k, e, u, v, .inr (.inl hk), hrest⟩
    · obtain ⟨rfl, rfl⟩ | ⟨k, e, u, v, hk, hrest⟩ := hr h2 hx
      · exact .inr ⟨i, d, _, _, .inl ⟨rfl, rfl⟩, rfl, hi, .inr rfl⟩
      · exact .inr ⟨k, e, u, v, .inr (.inr hk), hrest⟩

/-- A path leads to the leaf of its symbol, at the depth of its length. -/
theorem HTree.Stored.depths_of_paths {hw : Hw} {t : HTree} (h : t.Stored hw) {p q : List Bool} {b : Byte} (hb : (b, q) ∈ t.paths p) :
    ∃ i, (i, q.length) ∈ t.depths p.length ∧ hw.freq i = hw.histAt b := by
  induction t generalizing p with
  | leaf i c =>
    obtain ⟨rfl, rfl⟩ : b = c ∧ q = p := by simpa [HTree.paths] using hb
    exact ⟨i, by simp [HTree.depths], congrArg Node.f h⟩
  | branch i l r hl hr =>
    obtain ⟨-, h1, h2⟩ := h
    obtain hb | hb := List.mem_append.1 hb
    · obtain ⟨k, hk, e⟩ := hl h1 hb
      exact ⟨k, List.mem_cons_of_mem _ (List.mem_append_left _ (by simpa using hk)), e⟩
    · obtain ⟨k, hk, e⟩ := hr h2 hb
      exact ⟨k, List.mem_cons_of_mem _ (List.mem_append_right _ (by simpa using hk)), e⟩

/-- If a child of one node is less frequent than a child of another, the other node is the newer one and the more frequent. -/
theorem Hw.Siblings.parent_freq_lt {hw : Hw} (h : hw.Siblings) {i j l r u v x y : NodeIx} (hi : hw.nodeAt i = hw.mergedNode l r)
    (hj : hw.nodeAt j = hw.mergedNode u v) (hx : x = l ∨ x = r) (hy : y = u ∨ y = v) (hlt : hw.freq x < hw.freq y) (hne : i ≠ j) :
    hw.freq i < hw.freq j := by
  have hci : ∀ {z}, z = l ∨ z = r → hw.Child z i := fun hz => by rw [Hw.Child, hi]; exact ⟨rfl, hz⟩
  have hcj : ∀ {z}, z = u ∨ z = v → hw.Child z j := fun hz => by rw [Hw.Child, hj]; exact ⟨rfl, hz⟩
  have hij : i < j := (lt_or_gt_of_ne hne).resolve_right fun hji => (h.ordered (hcj hy) (hci hx) hji).not_gt hlt
  have hlu := h.ordered (hci (.inl rfl)) (hcj (.inl rfl)) hij
  have hlv := h.ordered (hci (.inl rfl)) (hcj (.inr rfl)) hij
  have hru := h.ordered (hci (.inr rfl)) (hcj (.inl rfl)) hij
  have hrv := h.ordered (hci (.inr rfl)) (hcj (.inr rfl)) hij
  have hfi : hw.freq i = hw.freq l + hw.freq r := congrArg Node.f hi
  have hfj : hw.freq j = hw.freq u + hw.freq v := congrArg Node.f hj
  obtain rfl | rfl := hx <;> obtain rfl | rfl := hy <;> omega

section SoleTree

variable {hw : Hw} {t : HTree} (hf : hw.Forest [t]) (h : hw.Siblings)
include hf

/-- No node is more frequent than the root (43_tree_builder.md R186). -/
theorem Hw.Forest.freq_le_root (i : NodeIx) : hw.freq i ≤ hw.freq t.slot := by
  have hroot : hw.freq t.slot = t.weight hw.histAt := HTree.stored_slot (hf.stored t (List.mem_singleton_self t))
  have hsum : t.weight hw.histAt = (symbols.map hw.histAt).sum := by simpa using hf.weights
  rw [hroot, hsum]
  exact hf.freq_le i

include h

/-- A more frequent node stands no deeper: by the depth of the less frequent one, the parents are in the same order or the same. -/
theorem Hw.Siblings.depth_le {x y : NodeIx} {c d : Nat} (hx : (x, c) ∈ t.depths 0) (hy : (y, d) ∈ t.depths 0)
    (hlt : hw.freq x < hw.freq y) : d ≤ c := by
  induction c generalizing x y d with
  | zero =>
    obtain ⟨rfl, -⟩ | ⟨i, e, l, r, -, hc, -⟩ := (hf.stored t (List.mem_singleton_self t)).depths_parent hx
    · exact absurd (hf.freq_le_root y) (Nat.not_le_of_lt hlt)
    · omega
  | succ c ih =>
    have hst := hf.stored t (List.mem_singleton_self t)
    obtain ⟨-, hc⟩ | ⟨i, e, l, r, hi, hc, hni, hxi⟩ := hst.depths_parent hx
    · omega
    obtain ⟨-, hd⟩ | ⟨j, e', u, v, hj, hd, hnj, hyj⟩ := hst.depths_parent hy
    · omega
    obtain rfl : e = c := by omega
    by_cases hij : i = j
    · have hnodup : ((t.depths 0).map Prod.fst).Nodup := by rw [t.depths_slots]; exact hf.sole_slots_nodup
      have := List.inj_on_of_nodup_map hnodup hi hj hij
      simp only [Prod.mk.injEq] at this
      omega
    · have := ih hi hj (h.parent_freq_lt hni hnj hxi hyj hlt hij)
      omega

/-- In the code table of a tree so built, a more frequent symbol has no longer a code (44_code_generator.md R211). -/
theorem Hw.Siblings.code_length_le (hc : hw.Coded t) {a b : Byte} (hb : 0 < hw.histAt b) (hlt : hw.histAt b < hw.histAt a) :
    (hw.codeAt a).len ≤ (hw.codeAt b).len := by
  have hst := hf.stored t (List.mem_singleton_self t)
  obtain ⟨p, hp, ea⟩ := hc.entry (hf.mem_sole_syms.2 (hb.trans hlt))
  obtain ⟨q, hq, eb⟩ := hc.entry (hf.mem_sole_syms.2 hb)
  rw [ea, eb]
  cases t with
  | leaf i s =>
    simp only [HTree.codes, List.mem_singleton, Prod.mk.injEq] at hp hq
    rw [hp.2, hq.2]
  | branch i l r =>
    obtain ⟨x, hx, fx⟩ := hst.depths_of_paths hq
    obtain ⟨y, hy, fy⟩ := hst.depths_of_paths hp
    exact h.depth_le hf hx hy (by omega)

end SoleTree

/-! ## What holds along the run of a BUILD -/

/-- What every core step of a BUILD keeps holds when the core's turns are done. -/
theorem State.Building.run_keeps {n : Nat} {P : State → Prop}
    (hP : ∀ {k : Nat} {s t : State}, s.Building n (k + 1) → t.Building n k → Machine.step s = .next t → P s → P t)
    {s : State} {j : Nat} {more : List Event} (h : s.Building n j) (he : s.env.events = List.replicate j .core ++ more) (hs : P s) :
    ∃ t : State, core.run j s = .next t ∧ t.Building n 0 ∧ P t := by
  induction j generalizing s with
  | zero => exact ⟨s, rfl, h, hs⟩
  | succ j ih =>
    obtain ⟨u, hu, heu, hbu⟩ := h.step he
    rw [run_succ_of_step (M := core) hu]
    exact ih hbu heu (hP h hbu hu hs)

/-- A core step of a BUILD leaves the histogram as it is (41_frequency_counter.md R145). -/
theorem State.Building.step_hist {s t : State} {n k : Nat} (h : s.Building n (k + 1)) (ht : t.Building n k)
    (hstep : Machine.step s = .next t) : t.hw.hist = s.hw.hist := by
  obtain hsame | ⟨q, hreset⟩ := (step_moves hstep).2.sameCounts (by simp [h.phase_build])
  · exact hsame.hist
  · have hp := ht.phase
    simp [hreset.phase] at hp

/-- Settles O21: nothing is built when the BUILD begins, every step keeps the order of siblings, and so the tree it ends with has its
more frequent leaves no deeper. -/
theorem frequentSymbolsHaveNoLongerCodes : Obligations.FrequentSymbolsHaveNoLongerCodes := by
  intro s more h he hp hb
  have hstart : s.hw.Siblings := .of_leaves fun i => by rw [(h.build.sorting hp hb).nodes]; rfl
  obtain ⟨t, hrun, hbuilt, hsib, hhist⟩ := (h.building hp hb).run_keeps (P := fun t => t.hw.Siblings ∧ t.hw.hist = s.hw.hist)
    (fun hu hv hstep ⟨hsib, hhist⟩ =>
      ⟨(step_moves hstep).2.siblings hu.inv.build hsib, (hu.step_hist hv hstep).trans hhist⟩) he ⟨hstart, rfl⟩
  refine ⟨t, hrun, fun a b hpos hlt => ?_⟩
  rw [← histAt_congr hhist] at hpos hlt
  obtain ⟨u, hf, -, -, hc⟩ | ⟨-, -, -, hc⟩ := hbuilt.inv.build.built (.inl hbuilt.phase_ready)
  · exact hsib.code_length_le hf hc hpos hlt
  · rw [hc a, CodeEntry.none]; exact Nat.zero_le _

end Sys2Proof.Machine

/-! # The stream encoder: no assertion fires, the output port, and the beats of pass 2 (45_stream_encoder.md R220 to R230) -/

namespace Sys2Proof.Machine

/-! ## No assertion fires -/

theorem State.Inv.exec_ne_fault {s : State} (h : s.Inv) (i : Instr) (r : Fault) : exec i s ≠ .fault r := by
  obtain ⟨t, ht, -⟩ := h.exec_goesOn i
  simp [ht]

/-- Settles O58: under the invariant every instruction answers, and a step runs one or lets the turn pass. -/
theorem noAssertionFires : Obligations.NoAssertionFires := by
  intro s i r h
  refine ⟨h.exec_ne_fault i r, ?_⟩
  cases hf : s.fetch with
  | run j =>
    have hturn : s.afterTurn.Inv := h.of_moves rfl .stays
    rw [step_of_run hf]; exact hturn.exec_ne_fault j r
  | idle => simp [step_of_idle hf]
  | noBeat => simp [step_of_noBeat hf]
  | reject x => simp [step_of_reject hf]

/-! ## The sink -/

theorem exec_snkTake_of_cons {s : State} {b : OutBeat} {rest : List OutBeat} (hq : s.hw.outq = b :: rest) :
    exec .snkTake s = .next (s.deliver b rest) := by
  simp [exec, execSnkTake, hq]

theorem exec_snkTake_of_nil {s : State} (hq : s.hw.outq = []) : exec .snkTake s = .next s := by
  simp [exec, execSnkTake, hq, waits]

/-- Settles O36: by OUTQ; in IDLE and ERROR the invariant leaves no beat but the ABORT. -/
theorem sinkTakesTheHead : Obligations.SinkTakesTheHead := fun _ =>
  ⟨fun _ _ => exec_snkTake_of_cons, exec_snkTake_of_nil, fun h hp => by
    obtain hp | hp := hp <;> exact h.queue.rest (by simp [hp]) (by simp [hp])⟩

theorem Hw.artifactOpen_iff (hw : Hw) : hw.artifactOpen = true ↔ hw.phase = .encode ∨ (hw.phase = .done ∧ hw.outq ≠ []) :=
  decide_eq_true_iff

/-- Settles O38: an artifact is being written or not yet taken in exactly those states. -/
theorem sinkFailureRaisesDuringAnArtifact : Obligations.SinkFailureRaisesDuringAnArtifact := fun s =>
  if_congr s.hw.artifactOpen_iff rfl rfl

/-- Settles O35: the invariant of the encoder's registers says so. -/
theorem validBitCountsOfPassTwo : Obligations.ValidBitCountsOfPassTwo := by
  intro s h
  refine ⟨fun hp => ?_, fun hp => ?_⟩
  · obtain ⟨hnacc, hout, -⟩ := h.encode.running (h.encode.encode hp)
    exact ⟨hnacc, hout, h.encode.length⟩
  · obtain ⟨hvalid, hall⟩ := h.encode.done hp
    obtain ⟨-, hlast, hout⟩ := h.encode.finished hvalid
    exact ⟨hout, hlast, hvalid, hall⟩

/-! ## The rows of pass 2 -/

theorem Hw.raise_outq_of_encode {hw : Hw} (hp : hw.phase = .encode) (e : ErrCode) : (hw.raise e).outq = [.abort] :=
  if_pos (.inl hp)

/-- What an accepted DATA beat makes of HUFENC's own state (45_stream_encoder.md R222 to R224). -/
def Hw.takeData (b : Byte) (depth : Nat) (hw : Hw) : Option Hw :=
  if hw.encIn = hw.total then some (hw.raise .lenMismatch)
  else if (hw.codeAt b).len = 0 then some (hw.raise .noCode)
  else hw.encodeSymbol depth b

/-- What an accepted END beat makes of HUFENC's own state (45_stream_encoder.md R223, R226). -/
def Hw.takeEnd (depth : Nat) (hw : Hw) : Option Hw :=
  if hw.encIn ≠ hw.total then some (hw.raise .lenMismatch) else hw.finishEncode depth

section Take

variable {hw : Hw} {b : Byte} {depth : Nat}

theorem Hw.takeData_of_all (hall : hw.encIn = hw.total) : hw.takeData b depth = some (hw.raise .lenMismatch) := if_pos hall

theorem Hw.takeData_of_noCode (hmore : hw.encIn ≠ hw.total) (hcode : (hw.codeAt b).len = 0) :
    hw.takeData b depth = some (hw.raise .noCode) := (if_neg hmore).trans (if_pos hcode)

theorem Hw.takeData_of_code (hmore : hw.encIn ≠ hw.total) (hcode : (hw.codeAt b).len ≠ 0) :
    hw.takeData b depth = hw.encodeSymbol depth b := (if_neg hmore).trans (if_neg hcode)

theorem Hw.takeEnd_of_missing (hmissing : hw.encIn ≠ hw.total) : hw.takeEnd depth = some (hw.raise .lenMismatch) := if_pos hmissing

theorem Hw.takeEnd_of_all (hall : hw.encIn = hw.total) : hw.takeEnd depth = hw.finishEncode depth := if_neg (not_not.2 hall)

end Take

/-- A beat is accepted for what it makes of HUFENC's own state; none stands for the push into a full OUTQ (45_stream_encoder.md R227). -/
def State.take (s : State) (made : Option Hw) : Result := made.elim (.fault .outqFull) fun hw => acceptWith hw s

theorem State.take_eq_next {s t : State} {made : Option Hw} (h : s.take made = .next t) : made = some t.hw := by
  cases made with
  | none => cases h
  | some hw => cases h; rfl

section Rows

variable {s : State} (hp : s.hw.phase = .encode)
include hp

/-- A DATA beat waits for its room, and is accepted (45_stream_encoder.md R220, R222). -/
theorem exec_inDataEncode_eq (b : Byte) : exec (.inDataEncode b) s =
    if s.hw.outq.length + s.hw.needData b ≤ s.cfg.depth then s.take (s.hw.takeData b s.cfg.depth) else .next s := by
  split
  · rename_i hr
    have hroom : s.hasRoom (s.hw.needData b) = true := decide_eq_true hr
    simp only [exec, execInDataEncode, hp, hroom, ne_eq, not_true_eq_false, if_false]
    by_cases hall : s.hw.encIn = s.hw.total
    · rw [if_pos hall, Hw.takeData_of_all hall]; rfl
    · rw [if_neg hall]
      by_cases hcode : (s.hw.codeAt b).len = 0
      · rw [if_pos hcode, Hw.takeData_of_noCode hall hcode]; rfl
      · rw [if_neg hcode, Hw.takeData_of_code hall hcode]
        cases s.hw.encodeSymbol s.cfg.depth b <;> rfl
  · rename_i hr
    exact execInDataEncode_waits (Nat.lt_of_not_le hr)

/-- An END beat waits for its room, and is accepted (45_stream_encoder.md R220, R226). -/
theorem exec_inEndEncode_eq (d : Byte) : exec (.inEndEncode d) s =
    if s.hw.outq.length + s.hw.needEnd ≤ s.cfg.depth then s.take (s.hw.takeEnd s.cfg.depth) else .next s := by
  split
  · rename_i hr
    have hroom : s.hasRoom s.hw.needEnd = true := decide_eq_true hr
    simp only [exec, execInEndEncode, hp, hroom, ne_eq, not_true_eq_false, if_false]
    by_cases hall : s.hw.encIn = s.hw.total
    · rw [if_neg (not_not.2 hall), Hw.takeEnd_of_all hall]
      cases s.hw.finishEncode s.cfg.depth <;> rfl
    · rw [if_pos hall, Hw.takeEnd_of_missing hall]; rfl
  · rename_i hr
    exact execInEndEncode_waits d (Nat.lt_of_not_le hr)

/-- An ERROR or reserved beat is accepted (45_stream_encoder.md R228). -/
theorem exec_inErrorEncode_eq (d : Byte) : exec (.inErrorEncode d) s = s.take (some (s.hw.raise .ioRead)) :=
  if_neg (not_not.2 hp)

theorem exec_inRsvdEncode_eq (d : Byte) : exec (.inRsvdEncode d) s = s.take (some (s.hw.raise .ioRead)) :=
  if_neg (not_not.2 hp)

end Rows

/-- Settles O29: both rows are the same error entry. -/
theorem encodeReadFailureRaises : Obligations.EncodeReadFailureRaises := by
  intro s d hp
  simp only [List.forall_mem_cons]
  exact ⟨⟨_, exec_inErrorEncode_eq hp d, rfl, rfl, Hw.raise_outq_of_encode hp _⟩,
    ⟨_, exec_inRsvdEncode_eq hp d, rfl, rfl, Hw.raise_outq_of_encode hp _⟩, nofun⟩

/-! ## A DATA beat -/

/-- With its room a DATA beat that raises nothing appends the code of its byte (45_stream_encoder.md R222). -/
theorem Hw.BuildInv.takeData_spec {hw : Hw} (h : hw.BuildInv) {depth : Nat} {b : Byte} (hmore : hw.encIn ≠ hw.total)
    (hcode : 0 < (hw.codeAt b).len) (hroom : hw.outq.length + (hw.nacc.val + (hw.codeAt b).len) / 8 ≤ depth) :
    ∃ hw1, hw.Appended (hw.codeAt b).bits hw1 ∧
      hw.takeData b depth = some { hw1 with encIn := hw.encIn + 1, encBits := hw.encBits + (hw.codeAt b).len } := by
  obtain ⟨hw1, ha, he⟩ := Hw.encodeSymbol_spec hroom
  rw [CodeEntry.string_eq (h.code_fits b).1] at ha
  exact ⟨hw1, ha, (Hw.takeData_of_code hmore hcode.ne').trans he⟩

theorem exec_inDataEncode_of_room {s : State} {b : Byte} {hw : Hw} (hp : s.hw.phase = .encode)
    (hr : s.hw.outq.length + s.hw.needData b ≤ s.cfg.depth) (ht : s.hw.takeData b s.cfg.depth = some hw) :
    exec (.inDataEncode b) s = acceptWith hw s := by
  rw [exec_inDataEncode_eq hp, if_pos hr, ht]; rfl

/-- Settles O27: a beat that raises asks for no room; else its bits are those of `Hw.Appended`. -/
theorem encodeBeatAppendsItsCode : Obligations.EncodeBeatAppendsItsCode := by
  intro s b h hp
  refine ⟨fun hall => ?_, fun hmore hcode => ?_, fun hmore hcode hroom => ?_⟩
  · have hneed : s.hw.needData b = 0 := if_pos (.inl hall)
    exact ⟨_, exec_inDataEncode_of_room hp (by rw [hneed]; exact h.queue.depth) (Hw.takeData_of_all hall), rfl, rfl⟩
  · have hneed : s.hw.needData b = 0 := if_pos (.inr hcode)
    exact ⟨_, exec_inDataEncode_of_room hp (by rw [hneed]; exact h.queue.depth) (Hw.takeData_of_noCode hmore hcode),
      rfl, rfl⟩
  · have hneed : s.hw.needData b = (s.hw.nacc.val + (s.hw.codeAt b).len) / 8 := if_neg (not_or.2 ⟨hmore, hcode.ne'⟩)
    have hlen := (h.build.code_fits b).1
    obtain ⟨hw1, ha, ht⟩ := h.build.takeData_spec hmore hcode hroom
    obtain ⟨out, hq, hout⟩ := ha.outq
    refine ⟨_, out, exec_inDataEncode_of_room hp (by rwa [hneed]) ht, rfl, hq, hlen ▸ hout, ha.stream, hlen ▸ ha.nacc,
      ha.acc h.encode.acc, ?_⟩
    have hencOut : hw1.encOut = s.hw.encOut + out.length := by rw [ha.encOut, hout]
    rw [← hencOut]
    conv_lhs => rw [State.withHw_hw, ha.frame]
    rfl

/-! ## An END beat -/

theorem exec_inEndEncode_of_room {s : State} {hw : Hw} (hp : s.hw.phase = .encode) (d : Byte)
    (hr : s.hw.outq.length + s.hw.needEnd ≤ s.cfg.depth) (ht : s.hw.takeEnd s.cfg.depth = some hw) :
    exec (.inEndEncode d) s = acceptWith hw s := by
  rw [exec_inEndEncode_eq hp, if_pos hr, ht]; rfl

/-- The pad byte as R226 writes it: (ACC << (8 - NACC)) mod 256. -/
theorem Hw.padByte_eq (hw : Hw) : hw.padByte = BitVec.ofNat 8 (hw.acc.toNat * 2 ^ (8 - hw.nacc.val) % 256) := by
  apply BitVec.eq_of_toNat_eq
  simp [Hw.padByte, BitVec.toNat_shiftLeft, Nat.shiftLeft_eq]

/-- With its room an END beat after all the bytes flushes and ends (45_stream_encoder.md R226). -/
theorem Hw.takeEnd_spec {depth : Nat} {hw : Hw} (hall : hw.encIn = hw.total) (hroom : hw.outq.length + hw.needEnd ≤ depth) :
    hw.takeEnd depth = some { hw with
      lastbits := hw.nacc, acc := 0#8, nacc := 0, lbValid := true, phase := .done
      encOut := if 0 < hw.nacc.val then hw.encOut + 1 else hw.encOut
      outq := hw.outq ++ hw.lastBeats } := by
  rw [Hw.needEnd, if_neg (not_not.2 hall)] at hroom
  exact (Hw.takeEnd_of_all hall).trans (Hw.finishEncode_spec hroom)

/-- Settles O28: the room is `Hw.needEnd`, and NACC says whether a pad byte goes before END. -/
theorem encodeEndFlushesAndEnds : Obligations.EncodeEndFlushesAndEnds := by
  intro s d hp hq
  refine ⟨fun hmissing => ?_, fun hall hroom => ?_⟩
  · have hneed : s.hw.needEnd = 0 := if_pos hmissing
    exact ⟨_, exec_inEndEncode_of_room hp d (by rwa [hneed]) (Hw.takeEnd_of_missing hmissing), rfl, rfl⟩
  · have hneed : s.hw.needEnd = if s.hw.nacc = 0 then 1 else 2 := by rw [Hw.needEnd_eq, if_neg (not_not.2 hall)]
    rw [← hneed] at hroom
    refine ⟨_, exec_inEndEncode_of_room hp d hroom (Hw.takeEnd_spec hall hroom), rfl, ?_⟩
    by_cases hn : s.hw.nacc = 0
    · simp [hn, Hw.lastBeats]
    · have hpos : 0 < s.hw.nacc.val := Nat.pos_of_ne_zero fun h0 => hn (Fin.ext h0)
      simp [hn, hpos, Hw.lastBeats, Hw.padByte_eq]

end Sys2Proof.Machine

/-! # The stream encoder: what a beat of pass 2 pushes does not depend on OUTQ (45_stream_encoder.md R234) -/

namespace Sys2Proof.Machine

/-! ## Pushing without looking at OUTQ -/

/-- Whatever OUTQ and its depth are, `f` leaves in `hw` what `made` has and pushes the beats `new`, where it answers. -/
def Hw.Pushes (hw : Hw) (f : Nat → Hw → Option Hw) (made : Hw) (new : List OutBeat) : Prop :=
  ∀ depth q hw', f depth { hw with outq := q } = some hw' → hw' = { made with outq := q ++ new }

theorem Hw.pushOut_pushes (hw : Hw) (b : OutBeat) : hw.Pushes (fun depth hw => hw.pushOut depth b) hw [b] := by
  intro depth q hw' h
  obtain ⟨-, he⟩ := Option.ite_none_right_eq_some.1 h
  exact (Option.some.inj he).symm

theorem Hw.Pushes.bind {hw hw1 hw2 : Hw} {f g : Nat → Hw → Option Hw} {new1 new2 : List OutBeat} (hf : hw.Pushes f hw1 new1)
    (hg : hw1.Pushes g hw2 new2) : hw.Pushes (fun depth hw => (f depth hw).bind (g depth)) hw2 (new1 ++ new2) := by
  intro depth q hw' h
  obtain ⟨u, hu, hr⟩ := Option.bind_eq_some_iff.1 h
  rw [hf depth q u hu] at hr
  rw [hg depth _ hw' hr, List.append_assoc]

/-- append_bit pushes a byte when it holds the eighth bit, and nothing before (45_stream_encoder.md R221). -/
theorem Hw.appendBit_pushes (hw : Hw) (x : Bool) : ∃ made new, hw.Pushes (fun depth hw => hw.appendBit depth x) made new := by
  by_cases hn : hw.nacc.val + 1 < 8
  · refine ⟨{ hw with acc := shiftIn hw.acc x, nacc := ⟨hw.nacc.val + 1, hn⟩ }, [], fun depth q hw' h => ?_⟩
    simp only [Hw.appendBit, hn, dif_pos, Option.some.injEq] at h
    rw [← h, List.append_nil]
  · refine ⟨{ hw with encOut := hw.encOut + 1, acc := 0#8, nacc := 0 }, [.data (shiftIn hw.acc x)], fun depth q hw' h => ?_⟩
    simp only [Hw.appendBit, hn, not_false_eq_true, dif_neg] at h
    obtain ⟨u, hu, rfl⟩ := Option.map_eq_some_iff.1 h
    rw [hw.pushOut_pushes _ depth q u hu]

theorem Hw.appendBits_pushes (bits : List Bool) (hw : Hw) :
    ∃ made new, hw.Pushes (fun depth hw => hw.appendBits depth bits) made new := by
  induction bits generalizing hw with
  | nil => exact ⟨hw, [], fun depth q hw' h => by rw [← Option.some.inj h, List.append_nil]⟩
  | cons x xs ih =>
    obtain ⟨hw1, new1, h1⟩ := hw.appendBit_pushes x
    obtain ⟨hw2, new2, h2⟩ := ih hw1
    exact ⟨hw2, new1 ++ new2, h1.bind h2⟩

theorem Hw.encodeSymbol_pushes (hw : Hw) (b : Byte) : ∃ made new, hw.Pushes (fun depth hw => hw.encodeSymbol depth b) made new := by
  obtain ⟨made, new, h⟩ := Hw.appendBits_pushes (hw.codeAt b).string hw
  refine ⟨{ made with encIn := made.encIn + 1, encBits := made.encBits + (hw.codeAt b).len }, new, fun depth q hw' he => ?_⟩
  obtain ⟨u, hu, rfl⟩ := Option.map_eq_some_iff.1 he
  rw [h depth q u hu]
  rfl

/-- The pad byte is pushed when bits are pending (45_stream_encoder.md R226). -/
theorem Hw.flush_pushes (hw : Hw) : ∃ made new, hw.Pushes Hw.flush made new := by
  by_cases hn : 0 < hw.nacc.val
  · refine ⟨{ hw with encOut := hw.encOut + 1 }, [.data hw.padByte], fun depth q hw' h => ?_⟩
    simp only [Hw.flush, hn, if_true] at h
    obtain ⟨u, hu, rfl⟩ := Option.map_eq_some_iff.1 h
    rw [hw.pushOut_pushes _ depth q u hu]
    rfl
  · refine ⟨hw, [], fun depth q hw' h => ?_⟩
    simp only [Hw.flush, hn, if_false, Option.some.injEq] at h
    rw [← h, List.append_nil]

/-- What the END beat writes beside ENC_OUT and OUTQ (45_stream_encoder.md R226). -/
def Hw.ended (hw : Hw) (lastbits : Fin 8) : Hw :=
  { hw with lastbits := lastbits, acc := 0#8, nacc := 0, lbValid := true, phase := .done }

theorem Hw.finishEncode_pushes (hw : Hw) : ∃ made new, hw.Pushes Hw.finishEncode made new := by
  obtain ⟨made, new, hf⟩ := hw.flush_pushes
  refine ⟨made.ended hw.nacc, new ++ [.endBeat], fun depth q hw' h => ?_⟩
  obtain ⟨u, hu, hr⟩ := Option.bind_eq_some_iff.1 h
  rw [hf depth q u hu] at hr
  rw [(made.ended hw.nacc).pushOut_pushes .endBeat depth (q ++ new) hw' hr, List.append_assoc]

/-! ## Two sinks -/

/-- Two states that differ in OUTQ alone have pushed the same beats and still differ in OUTQ alone, or both have aborted. -/
def Hw.PushAlike (hw hw' r r' : Hw) : Prop :=
  r' = { r with outq := r'.outq } ∧
    ((∃ new, r.outq = hw.outq ++ new ∧ r'.outq = hw'.outq ++ new) ∨ (r.outq = [.abort] ∧ r'.outq = [.abort]))

/-- What a beat makes of HUFENC's state is the same whenever the sink takes its beats (45_stream_encoder.md R234). -/
def SinkBlind (f : Nat → Hw → Option Hw) : Prop :=
  ∀ (hw r r' : Hw) (depth depth' : Nat) (q : List OutBeat), hw.phase = .encode → f depth hw = some r →
    f depth' { hw with outq := q } = some r' → hw.PushAlike { hw with outq := q } r r'

theorem Hw.Pushes.alike {hw made r r' : Hw} {f : Nat → Hw → Option Hw} {new q : List OutBeat} {depth depth' : Nat}
    (h : hw.Pushes f made new) (hr : f depth hw = some r) (hr' : f depth' { hw with outq := q } = some r') :
    hw.PushAlike { hw with outq := q } r r' := by
  rw [h depth hw.outq r hr, h depth' q r' hr']
  exact ⟨rfl, .inl ⟨new, rfl, rfl⟩⟩

/-- An error entry in ENCODE aborts, whatever is queued (60_exceptions.md R252). -/
theorem Hw.raise_alike {hw r r' : Hw} {q : List OutBeat} (hp : hw.phase = .encode) {e : ErrCode} (hr : some (hw.raise e) = some r)
    (hr' : some (({ hw with outq := q } : Hw).raise e) = some r') : hw.PushAlike { hw with outq := q } r r' := by
  obtain rfl := Option.some.inj hr
  obtain rfl := Option.some.inj hr'
  exact ⟨rfl, .inr ⟨Hw.raise_outq_of_encode hp e, Hw.raise_outq_of_encode (hw := { hw with outq := q }) hp e⟩⟩

theorem takeData_sinkBlind (b : Byte) : SinkBlind (Hw.takeData b) := by
  intro hw r r' depth depth' q hp hr hr'
  by_cases hall : hw.encIn = hw.total
  · rw [Hw.takeData_of_all hall] at hr
    rw [Hw.takeData_of_all (hw := { hw with outq := q }) hall] at hr'
    exact Hw.raise_alike hp hr hr'
  · by_cases hcode : (hw.codeAt b).len = 0
    · rw [Hw.takeData_of_noCode hall hcode] at hr
      rw [Hw.takeData_of_noCode (hw := { hw with outq := q }) hall hcode] at hr'
      exact Hw.raise_alike hp hr hr'
    · rw [Hw.takeData_of_code hall hcode] at hr
      rw [Hw.takeData_of_code (hw := { hw with outq := q }) hall hcode] at hr'
      obtain ⟨made, new, h⟩ := hw.encodeSymbol_pushes b
      exact h.alike hr hr'

theorem takeEnd_sinkBlind : SinkBlind Hw.takeEnd := by
  intro hw r r' depth depth' q hp hr hr'
  by_cases hall : hw.encIn = hw.total
  · rw [Hw.takeEnd_of_all hall] at hr
    rw [Hw.takeEnd_of_all (hw := { hw with outq := q }) hall] at hr'
    obtain ⟨made, new, h⟩ := hw.finishEncode_pushes
    exact h.alike hr hr'
  · rw [Hw.takeEnd_of_missing hall] at hr
    rw [Hw.takeEnd_of_missing (hw := { hw with outq := q }) hall] at hr'
    exact Hw.raise_alike hp hr hr'

theorem raise_sinkBlind (e : ErrCode) : SinkBlind fun _ hw => some (hw.raise e) :=
  fun _ _ _ _ _ _ hp hr hr' => Hw.raise_alike hp hr hr'

/-- A row that waits or takes its beat for what a sink-blind `f` makes of HUFENC's state pushes alike in both states. -/
theorem SinkBlind.exec_alike {f : Nat → Hw → Option Hw} (hf : SinkBlind f) {i : Instr}
    (hi : ∀ s : State, s.hw.phase = .encode → exec i s = s.take (f s.cfg.depth s.hw) ∨ exec i s = .next s) {s s' t t' : State}
    (hp : s.hw.phase = .encode) (hq : s'.hw = { s.hw with outq := s'.hw.outq }) (ht : exec i s = .next t) (ht' : exec i s' = .next t')
    (hne : t.hw ≠ s.hw) (hne' : t'.hw ≠ s'.hw) : s.hw.PushAlike s'.hw t.hw t'.hw := by
  have accepted : ∀ {u v : State}, u.hw.phase = .encode → exec i u = .next v → v.hw ≠ u.hw → f u.cfg.depth u.hw = some v.hw := by
    intro u v hu hv hne
    obtain htake | hwait := hi u hu
    · exact State.take_eq_next (htake.symm.trans hv)
    · cases hwait.symm.trans hv; exact absurd rfl hne
  have hr' := accepted (by rw [hq]; exact hp) ht' hne'
  rw [hq] at hr' ⊢
  exact hf _ _ _ _ _ _ hp (accepted hp ht hne) hr'

/-- Settles O33: no row of pass 2 looks at OUTQ but for its room. -/
theorem artifactIndependentOfTheSink : Obligations.ArtifactIndependentOfTheSink := by
  intro s s' t t' b hp hq
  simp only [List.forall_mem_cons]
  refine ⟨(takeData_sinkBlind b).exec_alike (fun u hu => ?_) hp hq, takeEnd_sinkBlind.exec_alike (fun u hu => ?_) hp hq,
    (raise_sinkBlind .ioRead).exec_alike (fun u hu => .inl (exec_inErrorEncode_eq hu b)) hp hq,
    (raise_sinkBlind .ioRead).exec_alike (fun u hu => .inl (exec_inRsvdEncode_eq hu b)) hp hq, nofun⟩
  · rw [exec_inDataEncode_eq hu]
    exact ite_eq_or_eq ..
  · rw [exec_inEndEncode_eq hu]
    exact ite_eq_or_eq ..

end Sys2Proof.Machine

/-! # The stream encoder: a whole pass 2 (45_stream_encoder.md R231) -/

namespace Sys2Proof.Machine

/-! ## Runs -/

/-- A run that answers has taken its first step. -/
theorem run_succ_next {M : Host.Core} {n : Nat} {s t : M.State} (h : M.run (n + 1) s = .next t) :
    ∃ u, M.step s = .next u ∧ M.run n u = .next t := by
  cases hs : M.step s with
  | next u => exact ⟨u, rfl, by rwa [run_succ_of_step hs] at h⟩
  | fault r => simp [Host.Core.run, hs] at h
  | refused r => simp [Host.Core.run, hs] at h

/-- A run goes on from where its first m steps have led. -/
theorem run_add_of_run {M : Host.Core} {m : Nat} {s t : M.State} (h : M.run m s = .next t) (n : Nat) : M.run (m + n) s = M.run n t := by
  induction m generalizing s with
  | zero => cases h; rw [Nat.zero_add]
  | succ m ih =>
    obtain ⟨u, hu, hr⟩ := run_succ_next h
    rw [Nat.succ_add, run_succ_of_step hu, ih hr]

/-- Every run keeps the invariant. -/
theorem State.Inv.of_run {s t : State} (h : s.Inv) {n : Nat} (hr : core.run n s = .next t) : t.Inv := by
  induction n generalizing s with
  | zero => cases hr; exact h
  | succ n ih =>
    obtain ⟨u, hu, hr⟩ := run_succ_next hr
    exact ih (stepKeepsTheInvariant s u h hu) hr

/-! ## One beat and a sink that takes -/

/-- A source's turn offers the head of its beats (20_memory.md R72). -/
theorem step_source {s : State} {es : List Event} {w : BeatWord} {ws : List BeatWord} (he : s.env.events = .source :: es)
    (hs : s.env.src = w :: ws) : step s = exec (decodeInBeat s.hw.phase w) s.afterTurn :=
  step_of_run (State.fetch_of_ok (p := .inBeat w) (by simp [State.turn_of_cons he, State.present, hs]) rfl)

theorem step_sinkTake {s : State} {es : List Event} (he : s.env.events = .sinkTake :: es) : step s = exec .snkTake s.afterTurn :=
  step_of_run (State.fetch_of_ok (p := .sinkTake) (by rw [State.turn_of_cons he]; rfl) rfl)

/-- The sink has taken all of OUTQ, and the turns `es` are left. -/
def State.drained (s : State) (es : List Event) : State :=
  { s with hw := { s.hw with outq := [] }, env := { s.env with events := es, taken := s.env.taken ++ s.hw.outq } }

/-- As many takes as OUTQ has beats, or more, leave it empty (45_stream_encoder.md R229). -/
theorem run_sinkTakes {s : State} {es : List Event} {k : Nat} (he : s.env.events = List.replicate k .sinkTake ++ es)
    (hk : s.hw.outq.length ≤ k) : core.run k s = .next (s.drained es) := by
  induction k generalizing s with
  | zero =>
    obtain ⟨cfg, hw, env⟩ := s; cases hw; cases env
    obtain rfl := List.eq_nil_of_length_eq_zero (Nat.le_zero.1 hk)
    subst he
    simp [Host.Core.run, State.drained]
  | succ k ih =>
    cases hq : s.hw.outq with
    | nil =>
      have hstep : core.step s = .next s.afterTurn := (step_sinkTake he).trans (exec_snkTake_of_nil hq)
      rw [run_succ_of_step hstep, ih (State.afterTurn_events_of_cons he) (by simp [hq]), State.afterTurn_of_cons he]
      rfl
    | cons b rest =>
      have hstep : core.step s = .next (s.afterTurn.deliver b rest) := (step_sinkTake he).trans (exec_snkTake_of_cons hq)
      rw [hq, List.length_cons] at hk
      rw [run_succ_of_step hstep, ih (s := s.afterTurn.deliver b rest) (State.afterTurn_events_of_cons he) (Nat.le_of_succ_le_succ hk),
        State.afterTurn_of_cons he]
      simp [State.drained, State.deliver, hq]

/-- The state after the offered beat has made `hw` of HUFENC's own state and the sink has taken all of OUTQ. -/
def State.passed (s : State) (hw : Hw) (es : List Event) (ws : List BeatWord) : State :=
  { s with hw := { hw with outq := [] }, env := { s.env with events := es, src := ws, taken := s.env.taken ++ hw.outq } }

theorem run_beat {s : State} {es : List Event} {w : BeatWord} {ws : List BeatWord} {hw : Hw} {k : Nat}
    (he : s.env.events = .source :: (List.replicate k .sinkTake ++ es)) (hs : s.env.src = w :: ws)
    (hx : exec (decodeInBeat s.hw.phase w) s.afterTurn = acceptWith hw s.afterTurn) (hk : hw.outq.length ≤ k) :
    core.run (k + 1) s = .next (s.passed hw es ws) := by
  have hstep : core.step s = .next (s.afterTurn.acceptBeat.withHw hw) := (step_source he hs).trans hx
  rw [run_succ_of_step hstep,
    run_sinkTakes (s := s.afterTurn.acceptBeat.withHw hw) (State.afterTurn_events_of_cons he) hk, State.afterTurn_of_cons he]
  simp [State.drained, State.passed, State.acceptBeat, State.withHw, hs]

/-! ## The bytes of a pass 2 -/

/-- The concatenated codes of the bytes. -/
def Hw.codeBits (hw : Hw) (bytes : List Byte) : List Bool := bytes.flatMap fun b => (hw.codeAt b).bits

/-- From `s` a pass 2 has taken `bytes` in and given `out` to the sink, and `t` is in it with OUTQ as it was; the bits given and
pending are the codes (45_stream_encoder.md R231). -/
structure State.Sent (s t : State) (bytes out : List Byte) : Prop where
  frame : t.hw = { s.hw with
    acc := t.hw.acc, nacc := t.hw.nacc, encIn := t.hw.encIn, encOut := t.hw.encOut, encBits := t.hw.encBits }
  taken : t.env.taken = s.env.taken ++ out.map .data
  bits : out.flatMap byteBits ++ t.hw.pendingBits = s.hw.pendingBits ++ s.hw.codeBits bytes
  encIn : t.hw.encIn = s.hw.encIn + bytes.length
  encOut : t.hw.encOut = s.hw.encOut + out.length

section Sent

variable {s t : State} {bytes out : List Byte} (h : s.Sent t bytes out)
include h

theorem State.Sent.phase : t.hw.phase = s.hw.phase := by rw [h.frame]

theorem State.Sent.outq : t.hw.outq = s.hw.outq := by rw [h.frame]

theorem State.Sent.total : t.hw.total = s.hw.total := by rw [h.frame]

theorem State.Sent.codeAt : t.hw.codeAt = s.hw.codeAt := by
  funext b
  rw [h.frame]; rfl

theorem State.Sent.trans {u : State} {bytes' out' : List Byte} (h' : t.Sent u bytes' out') :
    s.Sent u (bytes ++ bytes') (out ++ out') where
  frame := by conv_lhs => rw [h'.frame, h.frame]
  taken := by rw [h'.taken, h.taken, List.map_append, List.append_assoc]
  bits := by
    have hbits := h'.bits
    rw [Hw.codeBits, h.codeAt] at hbits
    rw [List.flatMap_append, List.append_assoc, hbits, ← List.append_assoc, h.bits, Hw.codeBits, Hw.codeBits, List.flatMap_append,
      List.append_assoc]
  encIn := by rw [h'.encIn, h.encIn, List.length_append, Nat.add_assoc]
  encOut := by rw [h'.encOut, h.encOut, List.length_append, Nat.add_assoc]

end Sent

theorem State.Sent.refl (s : State) : s.Sent s [] [] := ⟨rfl, by simp, by simp [Hw.codeBits], rfl, rfl⟩

theorem dataBits_map_data (out : List Byte) : dataBits (out.map .data) = out.flatMap byteBits := by
  simp [dataBits, List.flatMap_map]

theorem decodeInBeat_data (b : Byte) : decodeInBeat .encode (beatWord 0b00#2 b) = .inDataEncode b := by
  simp [decodeInBeat, decodeBeatEncode]

/-- One byte with a code, from an empty OUTQ: 32 takes empty it again, because a code has at most 255 bits (45_stream_encoder.md
R225, 44_code_generator.md R203). -/
theorem State.Inv.run_byte {s : State} (h : s.Inv) (hp : s.hw.phase = .encode) (hq : s.hw.outq = []) {b : Byte}
    (hmore : s.hw.encIn ≠ s.hw.total) (hcode : 0 < (s.hw.codeAt b).len) {es : List Event} {ws : List BeatWord}
    (he : s.env.events = .source :: (List.replicate 32 .sinkTake ++ es)) (hs : s.env.src = (0b00#2 ++ b) :: ws) :
    ∃ (t : State) (out : List Byte), core.run 33 s = .next t ∧ s.Sent t [b] out ∧ t.env.events = es ∧ t.env.src = ws := by
  obtain ⟨hlen, hmax⟩ := h.build.code_fits b
  have hdepth : 32 ≤ s.cfg.depth := h.config.2.2.1
  have hneed : s.hw.needData b = (s.hw.nacc.val + (s.hw.codeAt b).len) / 8 := if_neg (not_or.2 ⟨hmore, hcode.ne'⟩)
  have hroom : s.hw.outq.length + (s.hw.nacc.val + (s.hw.codeAt b).len) / 8 ≤ 32 := by
    have := s.hw.nacc.isLt
    rw [hq, List.length_nil]; omega
  obtain ⟨hw1, ha, ht⟩ := h.build.takeData_spec hmore hcode (hroom.trans hdepth)
  obtain ⟨out, hout, hbytes⟩ := ha.outq
  rw [hq, List.nil_append] at hout
  have hx := exec_inDataEncode_of_room (s := s.afterTurn) hp (by rw [State.afterTurn_hw, hneed]; exact hroom.trans hdepth) ht
  rw [← decodeInBeat_data, ← hp] at hx
  refine ⟨_, out, run_beat he hs hx ?_, ⟨?_, ?_, ?_, rfl, ?_⟩, rfl, rfl⟩
  · simp only [hout, List.length_map, hbytes, ← hlen]; omega
  · simp only [State.passed]
    conv_lhs => rw [ha.frame]
    rw [hq]
  · simp [State.passed, hout]
  · have hstream := ha.stream
    rw [Hw.bitStream, Hw.bitStream, hout, hq, dataBits_map_data] at hstream
    show _ ++ hw1.pendingBits = _
    simpa [Hw.codeBits, dataBits] using hstream
  · simp [State.passed, ha.encOut, hbytes]

theorem passTwoTurns_succ (n : Nat) : passTwoTurns (n + 1) = .source :: (List.replicate 32 .sinkTake ++ passTwoTurns n) := by
  simp [passTwoTurns, List.replicate_succ (n := n)]

theorem passTwoTurns_length (n : Nat) : (passTwoTurns n).length = 33 * n + 3 := by
  induction n with
  | zero => rfl
  | succ n ih => rw [passTwoTurns_succ, List.length_cons, List.length_append, List.length_replicate, ih]; omega

/-- The bytes of a pass 2, each with its takes. -/
theorem State.Inv.run_bytes {s : State} (h : s.Inv) (hp : s.hw.phase = .encode) (hq : s.hw.outq = []) {bytes : List Byte}
    {more : List BeatWord} (htotal : s.hw.encIn + bytes.length ≤ s.hw.total) (hcodes : ∀ b ∈ bytes, 0 < (s.hw.codeAt b).len)
    (he : s.env.events = passTwoTurns bytes.length) (hs : s.env.src = passBeats bytes ++ more) :
    ∃ (t : State) (out : List Byte), core.run (33 * bytes.length) s = .next t ∧ s.Sent t bytes out ∧
      t.env.events = passTwoTurns 0 ∧ t.env.src = passBeats [] ++ more := by
  induction bytes generalizing s with
  | nil => exact ⟨s, [], rfl, .refl s, he, hs⟩
  | cons b bytes ih =>
    obtain ⟨hb, hrest⟩ := List.forall_mem_cons.1 hcodes
    rw [List.length_cons] at htotal he
    rw [passTwoTurns_succ] at he
    obtain ⟨u, out1, hrun1, hsent1, heu, hsu⟩ := h.run_byte hp hq (by omega) hb he hs
    obtain ⟨t, out2, hrun2, hsent2, het, hst⟩ := ih (h.of_run hrun1) (hsent1.phase.trans hp) (hsent1.outq.trans hq)
      (by rw [hsent1.encIn, hsent1.total, List.length_singleton]; omega) (by rwa [hsent1.codeAt]) heu hsu
    refine ⟨t, out1 ++ out2, ?_, hsent1.trans hsent2, het, hst⟩
    rw [List.length_cons, show 33 * (bytes.length + 1) = 33 + 33 * bytes.length by omega,
      run_add_of_run (M := core) hrun1, hrun2]

/-! ## The END beat -/

/-- The byte of the final flush, where bits are pending (45_stream_encoder.md R226). -/
def Hw.lastBytes (hw : Hw) : List Byte := if 0 < hw.nacc.val then [hw.padByte] else []

theorem Hw.lastBeats_eq (hw : Hw) : hw.lastBeats = hw.lastBytes.map .data ++ [.endBeat] := by
  unfold Hw.lastBeats Hw.lastBytes
  split <;> rfl

/-- The last byte is the pending bits and fewer than eight zeros. -/
theorem Hw.lastBytes_bits (hw : Hw) :
    ∃ pad < 8, hw.lastBytes.flatMap byteBits = hw.pendingBits ++ List.replicate pad false := by
  unfold Hw.lastBytes
  by_cases hn : 0 < hw.nacc.val
  · exact ⟨8 - hw.nacc.val, by omega, by simp [hn, byteBits_padByte]⟩
  · exact ⟨0, by decide, by simp [pendingBits_eq, Nat.eq_zero_of_not_pos hn]⟩

/-- The END beat after all the bytes, from an empty OUTQ: two takes empty it again (45_stream_encoder.md R226). -/
theorem State.Inv.run_end {s : State} (h : s.Inv) (hp : s.hw.phase = .encode) (hq : s.hw.outq = []) (hall : s.hw.encIn = s.hw.total)
    {more : List BeatWord} (he : s.env.events = passTwoTurns 0) (hs : s.env.src = passBeats [] ++ more) :
    ∃ t : State, core.run 3 s = .next t ∧ t.env.events = [] ∧ t.env.src = more ∧ t.env.taken = s.env.taken ++ s.hw.lastBeats ∧
      t.hw = { s.hw with
        lastbits := s.hw.nacc, acc := 0#8, nacc := 0, lbValid := true, phase := .done
        encOut := s.hw.encOut + s.hw.lastBytes.length } := by
  have hdepth : 32 ≤ s.cfg.depth := h.config.2.2.1
  have hneed : s.hw.needEnd ≤ 2 := by rw [Hw.needEnd_eq]; split_ifs <;> decide
  have hroom : s.hw.outq.length + s.hw.needEnd ≤ s.cfg.depth := by rw [hq, List.length_nil]; omega
  have hx := exec_inEndEncode_of_room (s := s.afterTurn) hp 0#8 hroom (Hw.takeEnd_spec hall hroom)
  have hd : decodeInBeat s.hw.phase 0x100#10 = .inEndEncode 0#8 := by rw [hp]; rfl
  rw [← hd] at hx
  refine ⟨_, run_beat (k := 2) he hs hx ?_, rfl, rfl, ?_, ?_⟩
  · simp only [State.afterTurn_hw, hq, List.nil_append, Hw.lastBeats_length]; split <;> decide
  · simp [State.passed, hq]
  · by_cases hn : 0 < s.hw.nacc.val <;> simp [State.passed, Hw.lastBytes, hq, hn]

/-! ## The whole pass -/

theorem flatMap_byteBits_length (out : List Byte) : (out.flatMap byteBits).length = 8 * out.length := by
  induction out with
  | nil => rfl
  | cons b out ih => rw [List.flatMap_cons, List.length_append, ih, byteBits]; simp; omega

/-- Before its first byte a pass 2 has counted nothing and holds no bits (40_commands.md R125). -/
theorem Hw.EncodeInv.fresh {hw : Hw} (h : hw.EncodeInv) (hp : hw.phase = .encode) (hin : hw.encIn = 0) :
    hw.nacc.val = 0 ∧ hw.encOut = 0 ∧ hw.pendingBits = [] := by
  have hbits := h.bits
  obtain ⟨hnacc, hout, -⟩ := h.running (h.encode hp)
  have hzero : hw.nacc.val = 0 := by omega
  exact ⟨hzero, by omega, by rw [pendingBits_eq, hzero]; rfl⟩

/-- ENC_BITS counts the bits given to the sink and the bits pending (45_stream_encoder.md R232). -/
theorem State.Sent.encBits {s t : State} {bytes out : List Byte} (h : s.Sent t bytes out) (ht : t.Inv) (hs : s.Inv)
    (hp : s.hw.phase = .encode) (hin : s.hw.encIn = 0) : t.hw.encBits = (s.hw.codeBits bytes).length := by
  obtain ⟨-, hout0, hpend0⟩ := hs.encode.fresh hp hin
  obtain ⟨hnacc, hout, -⟩ := ht.encode.running (ht.encode.encode (h.phase.trans hp))
  have hbits := congrArg List.length h.bits
  rw [hpend0, List.nil_append, List.length_append, flatMap_byteBits_length] at hbits
  have hpend : t.hw.pendingBits.length = t.hw.nacc.val := by simp [pendingBits_eq]
  have := h.encOut
  omega

/-- From `s` a pass 2 has taken `bytes` and END in and given `out` and END to the sink, and `t` is its end: the bits given are the codes
and fewer than eight zeros (45_stream_encoder.md R226, R231). -/
structure State.Delivered (s t : State) (bytes out : List Byte) : Prop where
  inv : t.Inv
  frame : t.hw = { s.hw with
    phase := .done, acc := 0#8, nacc := 0, lastbits := t.hw.lastbits, lbValid := true
    encIn := bytes.length, encOut := out.length, encBits := (s.hw.codeBits bytes).length }
  taken : t.env.taken = s.env.taken ++ out.map .data ++ [.endBeat]
  bits : ∃ pad < 8, out.flatMap byteBits = s.hw.codeBits bytes ++ List.replicate pad false

/-- A whole pass 2 over bytes with codes: each with its takes, and then END. -/
theorem State.Inv.run_passTwo {s : State} (h : s.Inv) (hp : s.hw.phase = .encode) (hin : s.hw.encIn = 0) (hq : s.hw.outq = [])
    {bytes : List Byte} {more : List BeatWord} (htotal : s.hw.total = bytes.length) (hcodes : ∀ b ∈ bytes, 0 < (s.hw.codeAt b).len)
    (he : s.env.events = passTwoTurns bytes.length) (hs : s.env.src = passBeats bytes ++ more) :
    ∃ (t : State) (out : List Byte), core.run (passTwoTurns bytes.length).length s = .next t ∧ s.Delivered t bytes out ∧
      t.env.events = [] ∧ t.env.src = more := by
  obtain ⟨u, out, hrun, hsent, heu, hsu⟩ := h.run_bytes hp hq (by omega) hcodes he hs
  have hu := h.of_run hrun
  have hinu : u.hw.encIn = bytes.length := by rw [hsent.encIn, hin, Nat.zero_add]
  obtain ⟨t, hrun', het, hst, htaken, hhw⟩ := hu.run_end (hsent.phase.trans hp) (hsent.outq.trans hq)
    (by rw [hinu, hsent.total, htotal]) heu hsu
  obtain ⟨-, hout, hpend⟩ := h.encode.fresh hp hin
  refine ⟨t, out ++ u.hw.lastBytes, ?_, ⟨hu.of_run hrun', ?_, ?_, ?_⟩, het, hst⟩
  · rw [passTwoTurns_length, run_add_of_run (M := core) hrun, hrun']
  · have hencOut : u.hw.encOut + u.hw.lastBytes.length = (out ++ u.hw.lastBytes).length := by
      rw [hsent.encOut, hout, Nat.zero_add, List.length_append]
    rw [hencOut] at hhw
    rw [← hinu, ← hsent.encBits hu h hp hin, hhw]
    conv_lhs => rw [hsent.frame]
    rfl
  · rw [htaken, hsent.taken, Hw.lastBeats_eq, List.map_append, List.append_assoc, List.append_assoc, List.append_assoc]
  · obtain ⟨pad, hpad, hlast⟩ := u.hw.lastBytes_bits
    have hbits := hsent.bits
    rw [hpend, List.nil_append] at hbits
    exact ⟨pad, hpad, by rw [List.flatMap_append, hlast, ← List.append_assoc, hbits]⟩

section Delivered

variable {s t : State} {bytes out : List Byte} (h : s.Delivered t bytes out)
include h

theorem State.Delivered.phase : t.hw.phase = .done := by rw [h.frame]

theorem State.Delivered.encBits : t.hw.encBits = (s.hw.codeBits bytes).length := by rw [h.frame]

theorem State.Delivered.codeAt : t.hw.codeAt = s.hw.codeAt := by
  funext b
  rw [h.frame]; rfl

/-- The first ENC_BITS bits given to the sink decode to the bytes (44_code_generator.md R209). -/
theorem State.Delivered.decodes (hcodes : ∀ b ∈ bytes, 0 < (s.hw.codeAt b).len) :
    t.hw.decodeBits [] ((out.flatMap byteBits).take t.hw.encBits) = (bytes, []) := by
  obtain ⟨pad, -, hbits⟩ := h.bits
  rw [hbits, h.encBits, List.take_left, Hw.codeBits, ← h.codeAt]
  exact decodingTheCodesGivesTheBytesBack t bytes h.inv (.inr (.inr h.phase)) (by rwa [h.codeAt])

end Delivered

/-- Settles O32: by the run of the whole pass; what its end has is `State.Delivered`. -/
theorem passTwoDeliversTheCodedStream : Obligations.PassTwoDeliversTheCodedStream := by
  intro s bytes more h hp hin hq htotal hcodes he hs
  obtain ⟨t, out, hrun, hd, -, hst⟩ := h.run_passTwo hp hin hq htotal hcodes he hs
  obtain ⟨pad, hpad, hbits⟩ := hd.bits
  obtain ⟨-, hlast, -⟩ := (validBitCountsOfPassTwo t hd.inv).2 hd.phase
  exact ⟨t, out, pad, hrun, hd.phase, by rw [hd.frame]; exact hq, hst, hd.taken, hbits, hpad, hd.encBits, by rw [hd.frame],
    by rw [hd.frame], hlast, hd.decodes hcodes⟩

end Sys2Proof.Machine

/-! # Errors: what the error entry leaves, what enters ERROR and what leaves it (60_exceptions.md R252 to R254) -/

namespace Sys2Proof.Machine

/-! ## The error entry, field by field -/

section Raise

variable {hw : Hw} (e : ErrCode)

/-- The first error is recorded with the phase it was raised in (60_exceptions.md R252). -/
theorem Hw.raise_err_of_none (h : hw.errCode = .none) : (hw.raise e).errCode = e ∧ (hw.raise e).errPhase = hw.phase :=
  ⟨if_pos h, if_pos h⟩

/-- A later error does not replace the first (60_exceptions.md R252). -/
theorem Hw.raise_err_of_ne_none (h : hw.errCode ≠ .none) :
    (hw.raise e).errCode = hw.errCode ∧ (hw.raise e).errPhase = hw.errPhase :=
  ⟨if_neg h, if_neg h⟩

theorem Hw.raise_outq_of_artifact (h : hw.phase = .encode ∨ hw.outq ≠ []) : (hw.raise e).outq = [.abort] := if_pos h

theorem Hw.raise_outq_of_empty (hp : hw.phase ≠ .encode) (hq : hw.outq = []) : (hw.raise e).outq = [] :=
  (if_neg (not_or.2 ⟨hp, not_not.2 hq⟩)).trans hq

end Raise

/-- Settles O7: by whether an error is recorded already, and whether an artifact is being written or not yet taken. -/
theorem errorEntryWritesExactly : Obligations.ErrorEntryWritesExactly := fun s c =>
  ⟨s.raise c, rfl, rfl, rfl, Hw.raise_err_of_none c, Hw.raise_err_of_ne_none c, Hw.raise_outq_of_artifact c,
    Hw.raise_outq_of_empty c, rfl, rfl, rfl⟩

/-! ## Steps that at most take the head of OUTQ -/

/-- HUFENC's own state stays as it is, or the sink takes the head of OUTQ (45_stream_encoder.md R229). -/
def Hw.AtMostTaken (hw hw' : Hw) : Prop := hw' = hw ∨ ∃ b rest, hw.outq = b :: rest ∧ hw' = { hw with outq := rest }

theorem Hw.AtMostTaken.phase {hw hw' : Hw} (h : hw.AtMostTaken hw') : hw'.phase = hw.phase := by
  obtain rfl | ⟨b, rest, -, rfl⟩ := h <;> rfl

theorem waits_atMostTaken {s t : State} (h : waits s = .next t) : s.hw.AtMostTaken t.hw := by
  cases h; exact .inl rfl

theorem transfer_atMostTaken {b : OutBeat} {s t : State} (h : transfer b s = .next t) : s.hw.AtMostTaken t.hw := by
  unfold transfer at h
  split at h
  · rename_i hq
    split at h
    · cases h; exact .inr ⟨_, _, hq, rfl⟩
    · exact waits_atMostTaken h
  · exact waits_atMostTaken h

theorem execSnkTake_atMostTaken {s t : State} (h : execSnkTake s = .next t) : s.hw.AtMostTaken t.hw := by
  unfold execSnkTake at h
  split at h
  · cases h; exact .inr ⟨_, _, ‹_›, rfl⟩
  · exact waits_atMostTaken h

/-! ## Steps that the host and the sink do not see -/

/-- If the step completes, no register read has returned a word and the sink has taken no beat (log entry 8). -/
def State.Silent (s : State) (r : Result) : Prop :=
  ∀ t, r = .next t → t.env.readLog = s.env.readLog ∧ t.env.taken = s.env.taken

section Silent

variable {s : State}

theorem next_silent {t : State} (hr : t.env.readLog = s.env.readLog) (ht : t.env.taken = s.env.taken) : s.Silent (.next t) := by
  rintro _ ⟨⟩; exact ⟨hr, ht⟩

theorem waits_silent : s.Silent (waits s) := next_silent rfl rfl

theorem fault_silent {r : Fault} : s.Silent (.fault r) := fun _ h => by cases h

theorem State.Accepts.silent {r : Result} (h : s.Accepts r) : s.Silent r := by
  obtain ⟨t, rfl, ht⟩ := h
  exact next_silent (by rw [ht]) (by rw [ht])

theorem take_silent (made : Option Hw) : s.Silent (s.take made) := by
  cases made with
  | none => exact fault_silent
  | some hw => exact (acceptWith_accepts hw s).silent

theorem command_silent (ok : Bool) (act : Hw → Hw) : s.Silent (command ok act s) := by
  unfold command
  split
  · exact next_silent rfl rfl
  · split <;> exact next_silent rfl rfl

theorem illegalCommand_silent : s.Silent (illegalCommand s) := by
  unfold illegalCommand
  split <;> exact next_silent rfl rfl

theorem performCommand_silent (v : Word) : s.Silent (performCommand v s) := by
  unfold performCommand
  split
  · exact illegalCommand_silent
  · split
    · exact next_silent rfl rfl
    · exact next_silent rfl rfl
    · exact command_silent _ _
    · exact command_silent _ _
    · exact command_silent _ _
    · exact illegalCommand_silent

theorem execRegWrite_silent (a : WordAddr) (v : Word) : s.Silent (execRegWrite a v s) := by
  unfold execRegWrite
  split
  · exact performCommand_silent v
  · exact next_silent rfl rfl

theorem execSnkFail_silent : s.Silent (execSnkFail s) := by
  unfold execSnkFail
  split <;> exact next_silent rfl rfl

theorem exec_countRow_silent (d : Byte) :
    ∀ i ∈ [Instr.inDataCount d, .inEndCount d, .inErrorCount d, .inRsvdCount d], s.Silent (exec i s) := by
  intro i hi
  by_cases hp : s.hw.phase = .count
  · exact (exec_countRow_accepts hp d i hi).silent
  · rw [exec_countRow_waits hp d i hi]; exact waits_silent

theorem exec_encodeRow_silent (d : Byte) :
    ∀ i ∈ [Instr.inDataEncode d, .inEndEncode d, .inErrorEncode d, .inRsvdEncode d], s.Silent (exec i s) := by
  by_cases hp : s.hw.phase = .encode
  · simp only [List.forall_mem_cons, exec_inDataEncode_eq hp, exec_inEndEncode_eq hp, exec_inErrorEncode_eq hp,
      exec_inRsvdEncode_eq hp]
    refine ⟨?_, ?_, take_silent _, take_silent _, nofun⟩ <;> split
    · exact take_silent _
    · exact waits_silent
    · exact take_silent _
    · exact waits_silent
  · intro i hi
    rw [exec_encodeRow_waits hp d i hi]; exact waits_silent

theorem execSort_silent : s.Silent (execSort s) := by
  unfold execSort
  split
  · exact next_silent rfl rfl
  · exact waits_silent

theorem execMerge_silent : s.Silent (execMerge s) := by
  unfold execMerge
  split
  · split
    · split
      · exact next_silent rfl rfl
      · exact fault_silent
    · exact fault_silent
  · exact waits_silent

theorem execCodegen_silent : s.Silent (execCodegen s) := by
  unfold execCodegen
  split
  · split
    · exact next_silent rfl rfl
    · split
      · exact next_silent rfl rfl
      · exact fault_silent
  · exact waits_silent

end Silent

/-- A step that the host or the sink sees is a register read or a take at the output port: of HUFENC's own state it writes OUTQ at most. -/
theorem exec_silent_or_atMostTaken (i : Instr) {s t : State} (h : exec i s = .next t) :
    (t.env.readLog = s.env.readLog ∧ t.env.taken = s.env.taken) ∨ s.hw.AtMostTaken t.hw := by
  cases i with
  | nop | clear | reset => cases h; exact .inl ⟨rfl, rfl⟩
  | count => exact .inl ((command_silent _ _ : s.Silent (execCount s)) t h)
  | build => exact .inl ((command_silent _ _ : s.Silent (execBuild s)) t h)
  | encode => exact .inl ((command_silent _ _ : s.Silent (execEncode s)) t h)
  | cmdIllegalOp5 | cmdIllegalOp67 | cmdIllegalOp8F | cmdIllegalRsvd => exact .inl (illegalCommand_silent t h)
  | inDataCount d | inEndCount d | inErrorCount d | inRsvdCount d => exact .inl (exec_countRow_silent d _ (by simp) t h)
  | inDataEncode d | inEndEncode d | inErrorEncode d | inRsvdEncode d => exact .inl (exec_encodeRow_silent d _ (by simp) t h)
  | inAnyOther => exact .inl (waits_silent t h)
  | outData | outEnd | outAbort => exact .inr (transfer_atMostTaken h)
  | regRead => exact .inr (.inl (execRegRead_keeps h).2)
  | regWrite a v => exact .inl (execRegWrite_silent a v t h)
  | snkTake => exact .inr (execSnkTake_atMostTaken h)
  | snkFail => exact .inl (execSnkFail_silent t h)
  | sort => exact .inl (execSort_silent t h)
  | merge => exact .inl (execMerge_silent t h)
  | codegen => exact .inl (execCodegen_silent t h)

/-! ## Entering ERROR -/

/-- The one move into ERROR is the error entry (60_exceptions.md R252). -/
theorem Hw.Moves.raises {c : Config} {hw hw' : Hw} (h : hw.Moves c hw') (hp : hw.phase ≠ .error) (hp' : hw'.phase = .error) :
    ∃ e, e ≠ ErrCode.none ∧ hw' = hw.raise e := by
  cases h with
  | errs e _ he => exact ⟨e, he, rfl⟩
  | stays | counts | sorts | merges | delivers => exact absurd hp' hp
  | clears | resets | starts | counted | builds | plants | generates | opens => cases hp'
  | encodes b hw' _ hroom hmore hcode he =>
    obtain ⟨acc, nacc, bytes, rfl, -⟩ := Hw.encodeSymbol_next hroom hmore hcode he
    exact absurd hp' hp
  | finishes hw' _ hroom hall he =>
    obtain ⟨-, rfl⟩ := Hw.finishEncode_next hroom hall he
    cases hp'

/-- The writes of the fatal-error procedure, with OUTQ's length for its being not empty (60_exceptions.md R252). -/
theorem Hw.raise_eq (hw : Hw) (e : ErrCode) : hw.raise e = { hw with
    errCode := if hw.errCode = .none then e else hw.errCode
    errPhase := if hw.errCode = .none then hw.phase else hw.errPhase
    outq := if hw.phase = .encode ∨ 0 < hw.outq.length then [.abort] else hw.outq
    phase := .error
    bsub := .sort } := by
  simp only [Hw.raise, List.length_pos_iff]

/-- Settles O8: the one move into ERROR is the error entry, and a step that the host or the sink sees keeps PHASE. -/
theorem errorsArePrecise : Obligations.ErrorsArePrecise := by
  intro i s t h hp hp'
  obtain ⟨hcfg, hm⟩ := exec_moves i h
  obtain ⟨e, he, hraise⟩ := hm.raises hp hp'
  obtain ⟨hread, htaken⟩ := (exec_silent_or_atMostTaken i h).resolve_right fun hk => hp (hk.phase ▸ hp')
  exact ⟨hcfg, hread, htaken, e, he, hraise, hraise.trans (s.hw.raise_eq e)⟩

/-! ## In ERROR -/

section InError

variable {s : State} (hp : s.hw.phase = .error)
include hp

/-- Every command but CLEAR is ignored in ERROR (40_commands.md R128). -/
theorem command_of_error (ok : Bool) (act : Hw → Hw) : command ok act s = .next s := if_pos hp

theorem illegalCommand_of_error : illegalCommand s = .next s := if_pos hp

/-- CLEAR's word alone acts in ERROR: RSVD 0 and OP 1 (30_encoding.md R90 to R92). -/
theorem performCommand_of_error {v : Word} (hv : v ≠ 1#32) : performCommand v s = .next s := by
  unfold performCommand
  split
  · exact illegalCommand_of_error hp
  · rename_i hrsvd
    split
    · rfl
    · rename_i hop
      have hop : opField v = 1#4 := BitVec.eq_of_toNat_eq hop
      have hclear : v = commandWord 0#28 1#4 := by rw [← not_not.1 hrsvd, ← hop, commandWord_fields]
      exact absurd hclear hv
    · exact command_of_error hp ..
    · exact command_of_error hp ..
    · exact command_of_error hp ..
    · exact illegalCommand_of_error hp

theorem execRegWrite_of_error {a : WordAddr} {v : Word} (h : ¬ (a = cmdAddr ∧ v = 1#32)) : execRegWrite a v s = .next s := by
  unfold execRegWrite
  split
  · exact performCommand_of_error hp fun hv => h ⟨‹_›, hv⟩
  · rfl

theorem execSnkFail_of_error : execSnkFail s = .next s := by
  rw [execSnkFail, if_neg (by simp [s.hw.artifactOpen_iff, hp])]

theorem exec_coreStep_of_error (bs : BSub) : exec (coreStep bs) s = .next s :=
  exec_coreStep_waits fun ⟨hb, _⟩ => by rw [hp] at hb; cases hb

/-- In ERROR every agent's step but the sink's take is ignored, waits, or is a read (60_exceptions.md R253). -/
theorem exec_atMostTaken_of_error (i : Instr) {t : State} (h : exec i s = .next t) (hclear : i ≠ .clear) (hreset : i ≠ .reset)
    (hwrite : i ≠ .regWrite cmdAddr 1#32) : s.hw.AtMostTaken t.hw := by
  have hcount : s.hw.phase ≠ .count := by rw [hp]; decide
  have hencode : s.hw.phase ≠ .encode := by rw [hp]; decide
  have hstays (hi : exec i s = .next s) : s.hw.AtMostTaken t.hw := waits_atMostTaken (hi.symm.trans h)
  cases i with
  | nop | inAnyOther => exact hstays rfl
  | clear => exact absurd rfl hclear
  | reset => exact absurd rfl hreset
  | count => exact hstays (command_of_error hp .. : execCount s = _)
  | build => exact hstays (command_of_error hp .. : execBuild s = _)
  | encode => exact hstays (command_of_error hp .. : execEncode s = _)
  | cmdIllegalOp5 | cmdIllegalOp67 | cmdIllegalOp8F | cmdIllegalRsvd => exact hstays (illegalCommand_of_error hp)
  | inDataCount d | inEndCount d | inErrorCount d | inRsvdCount d => exact hstays (exec_countRow_waits hcount d _ (by simp))
  | inDataEncode d | inEndEncode d | inErrorEncode d | inRsvdEncode d => exact hstays (exec_encodeRow_waits hencode d _ (by simp))
  | outData | outEnd | outAbort => exact transfer_atMostTaken h
  | regRead => exact .inl (execRegRead_keeps h).2
  | regWrite a v => exact hstays (execRegWrite_of_error hp fun ⟨ha, hv⟩ => hwrite (by rw [ha, hv]))
  | snkTake => exact execSnkTake_atMostTaken h
  | snkFail => exact hstays (execSnkFail_of_error hp)
  | sort => exact hstays (exec_coreStep_of_error hp .sort)
  | merge => exact hstays (exec_coreStep_of_error hp .merge)
  | codegen => exact hstays (exec_coreStep_of_error hp .codegen)

end InError

/-- CLEAR, its word written to CMD, and reset restore the reset table (40_commands.md R122, 70_reset_and_hazards.md R280). -/
theorem exec_atReset {i : Instr} {s t : State} (hi : i = .clear ∨ i = .reset ∨ i = .regWrite cmdAddr 1#32)
    (h : exec i s = .next t) : ∃ q, t.hw.AtReset q := by
  obtain rfl | rfl | rfl := hi <;> cases h <;> exact ⟨_, Hw.reset_atReset _⟩

/-- Settles O9: what restores the reset table goes to IDLE without an error; every other step takes the head of OUTQ at most. -/
theorem onlyClearAndResetLeaveError : Obligations.OnlyClearAndResetLeaveError := fun i _ _ hp h =>
  ⟨fun hi => by
    obtain ⟨_, hq⟩ := exec_atReset hi h
    exact ⟨hq.phase, hq.err⟩, exec_atMostTaken_of_error hp i h⟩

end Sys2Proof.Machine

/-! # Reset: what the register port reads after it (70_reset_and_hazards.md R280) -/

namespace Sys2Proof.Machine

/-! ## The register port after reset -/

/-- The registers that do not read 0 after reset (70_reset_and_hazards.md R280, 30_encoding.md R104). -/
def Reg.nonzeroAfterReset : Reg → Bool
  | .id | .status | .param => true
  | .cmd | .err | .total | .nsym | .maxf | .root | .nnodes | .seqlen => false
  | .encIn | .encOutLo | .encOutHi | .encBitsLo | .encBitsHi | .lastbits => false
  | .hist _ | .nodeFreq _ | .nodeLink _ | .code _ _ | .reserved => false

theorem nonzeroAfterReset_lowReg (n : Nat) : (lowReg n).nonzeroAfterReset = true ↔ n = 0 ∨ n = 2 ∨ n = 16 := by
  match n with
  | 0 | 1 | 2 | 3 | 4 | 5 | 6 | 7 | 8 | 9 | 10 | 11 | 12 | 13 | 14 | 15 | 16 => decide
  | n + 17 => exact iff_of_false nofun (by omega)

/-- Above the registers of the low range the map holds windows and reserved offsets only (30_encoding.md R95). -/
theorem nonzeroAfterReset_regAt_of_window {a : WordAddr} (h : 0x0400 / 4 ≤ a.toNat) : (regAt a).nonzeroAfterReset = false := by
  unfold regAt
  rw [if_neg (Nat.not_lt.2 h)]
  split_ifs <;> rfl

theorem nonzeroAfterReset_regAt_addrOf {off : Nat} (h4 : off % 4 = 0) (h : off ≤ 0x7FFC) :
    (regAt (addrOf off)).nonzeroAfterReset = true ↔ off = 0x0000 ∨ off = 0x0008 ∨ off = 0x0040 := by
  by_cases hlow : (addrOf off).toNat < 0x0400 / 4
  · have hreg : regAt (addrOf off) = lowReg (addrOf off).toNat := if_pos hlow
    rw [hreg, nonzeroAfterReset_lowReg, addrOf_toNat h]
    omega
  · have hset := nonzeroAfterReset_regAt_of_window (Nat.le_of_not_lt hlow)
    rw [addrOf_toNat h] at hlow
    exact iff_of_false (by rw [hset]; decide) (by omega)

/-- Every word of a symbol without a code is 0 (30_encoding.md R107). -/
theorem CodeEntry.none_windowWord (k : Fin 16) : CodeEntry.none.windowWord k = 0#32 := by
  revert k; decide +kernel

section AfterReset

variable {s : State} (h : s.hw = Hw.reset)
include h

/-- The state elements behind every other register are 0 (10_state.md R43). -/
theorem State.regWord_of_reset {r : Reg} (hr : r.nonzeroAfterReset = false) : s.regWord r = 0#32 := by
  cases r with
  | id | status | param => cases hr
  | cmd | reserved => rfl
  | hist b => simp [State.regWord, h]
  | nodeFreq i => exact (State.regWord_node_unallocated (by simp [h])).1
  | nodeLink i => exact (State.regWord_node_unallocated (by simp [h])).2
  | code b k => rw [State.regWord, h, Hw.reset_codeAt, CodeEntry.none_windowWord]
  | err | total | nsym | maxf | root | nnodes | seqlen | encIn | encOutLo | encOutHi | encBitsLo | encBitsHi | lastbits =>
    rw [State.regWord, h]; rfl

/-- Outside BUILD every read returns the register's word. -/
theorem State.reads_of_reset (off : Nat) : s.Reads off (s.regWord (regAt (addrOf off))) :=
  State.reads_reg rfl (.inl (by rw [h]; decide))

end AfterReset

theorem paramWord_eq {c : Config} (h : c.Legal) : paramWord c = BitVec.ofNat 32 (256 * c.depth + c.cntW) := by
  rw [← paramWord_toNat h, BitVec.ofNat_toNat, BitVec.setWidth_eq]

/-- Settles O2: ID and PARAM are constants, STATUS is OUTQ_EMPTY alone, and the elements behind every other offset are 0. -/
theorem resetReadsBackItsValues : Obligations.ResetReadsBackItsValues := by
  intro s hlegal
  obtain ⟨t, hx, hreset, hcfg, henv⟩ : ∃ t, exec .reset s = .next t ∧ t.hw = Hw.reset ∧ t.cfg = s.cfg ∧ t.env = s.env :=
    ⟨_, rfl, rfl, rfl, rfl⟩
  refine ⟨t, hx, hreset ▸ Hw.reset_atReset [], henv, hcfg, fun off h4 hmax => ?_⟩
  have hread := State.reads_of_reset hreset off
  split_ifs with hid hstatus hparam
  · subst hid; exact hread
  · subst hstatus
    have hword : t.regWord .status = 0x40#32 := by rw [State.regWord, hreset]; rfl
    exact hword ▸ hread
  · subst hparam
    rw [← hcfg, ← paramWord_eq (hcfg ▸ hlegal)]
    exact hread
  · have hset : (regAt (addrOf off)).nonzeroAfterReset = false := by
      rw [← Bool.not_eq_true, nonzeroAfterReset_regAt_addrOf h4 hmax]
      exact not_or.2 ⟨hid, not_or.2 ⟨hstatus, hparam⟩⟩
    exact State.regWord_of_reset hreset hset ▸ hread

end Sys2Proof.Machine

/-! # A whole run of the host's sequence (70_reset_and_hazards.md R282, R292) -/

namespace Sys2Proof.Machine

/-! ## The host's commands -/

/-- The host's turn at CMD runs the command its word names (20_memory.md R63). -/
theorem step_command {s : State} {v : Word} {es : List Event} (he : s.env.events = .hostWrite cmdAddr v :: es) :
    step s = exec (decodeCommand v) s.afterTurn :=
  step_of_run (State.fetch_of_ok (p := .hostWrite cmdAddr v) (by rw [State.turn_of_cons he]; rfl) rfl)

/-- The state after a command that acts: HUFENC's own state is `hw`, and the turns `es` are left. -/
def State.commanded (s : State) (hw : Hw) (es : List Event) : State := { s with hw := hw, env := { s.env with events := es } }

section Command

variable {s : State} {es : List Event}

theorem step_count (he : s.env.events = .hostWrite cmdAddr 2#32 :: es) (hp : s.hw.phase = .idle) :
    step s = .next (s.commanded { s.hw with phase := .count } es) := by
  rw [step_command he, State.afterTurn_of_cons he]
  exact (execCount_eq _).trans (if_pos hp)

theorem step_build (he : s.env.events = .hostWrite cmdAddr 3#32 :: es) (hp : s.hw.phase = .counted) :
    step s = .next (s.commanded { s.hw with phase := .build, bsub := .sort } es) := by
  rw [step_command he, State.afterTurn_of_cons he]
  exact (execBuild_eq _).trans (if_pos hp)

theorem step_encode (he : s.env.events = .hostWrite cmdAddr 4#32 :: es) (hp : s.hw.phase = .ready) :
    step s = .next (s.commanded s.hw.startEncode es) := by
  rw [step_command he, State.afterTurn_of_cons he]
  exact (execEncode_eq _).trans (if_pos (.inl hp))

end Command

/-! ## Pass 1 -/

/-- The counters after the bytes of a pass 1 (41_frequency_counter.md R141). -/
def Hw.countAll (hw : Hw) (bytes : List Byte) : Hw := bytes.foldl Hw.countSymbol hw

theorem Hw.countAll_cons (hw : Hw) (b : Byte) (bytes : List Byte) :
    hw.countAll (b :: bytes) = (hw.countSymbol b).countAll bytes := rfl

@[simp] theorem Hw.countAll_total (hw : Hw) (bytes : List Byte) : (hw.countAll bytes).total = hw.total + bytes.length := by
  induction bytes generalizing hw with
  | nil => rfl
  | cons b bytes ih => rw [Hw.countAll_cons, ih, Hw.countSymbol_total, List.length_cons]; omega

@[simp] theorem Hw.countAll_outq (hw : Hw) (bytes : List Byte) : (hw.countAll bytes).outq = hw.outq := by
  induction bytes generalizing hw with
  | nil => rfl
  | cons b bytes ih => exact ih (hw.countSymbol b)

/-- HIST counts each symbol's occurrences (41_frequency_counter.md R146). -/
theorem Hw.countAll_histAt (hw : Hw) (bytes : List Byte) (x : Byte) :
    (hw.countAll bytes).histAt x = hw.histAt x + bytes.count x := by
  induction bytes generalizing hw with
  | nil => rfl
  | cons b bytes ih =>
    rw [Hw.countAll_cons, ih]
    obtain rfl | hne := eq_or_ne x b
    · rw [Hw.countSymbol_histAt_self, List.count_cons_self]; omega
    · rw [hw.countSymbol_histAt_ne hne, List.count_cons_of_ne hne.symm]

/-- The state after a pass 1 over `bytes`: the turns `es` and the beats `ws` are left. -/
def State.countedAll (s : State) (bytes : List Byte) (es : List Event) (ws : List BeatWord) : State :=
  { s with hw := { s.hw.countAll bytes with phase := .counted }, env := { s.env with events := es, src := ws } }

/-- A beat of pass 1 that is accepted, in the source's turn. -/
theorem step_source_count {s : State} {es : List Event} {w : BeatWord} {ws : List BeatWord} {hw : Hw}
    (he : s.env.events = .source :: es) (hs : s.env.src = w :: ws)
    (hx : exec (decodeInBeat s.hw.phase w) s.afterTurn = .next (s.afterTurn.acceptBeat.withHw hw)) :
    step s = .next { s with hw := hw, env := { s.env with events := es, src := ws } } := by
  rw [step_source he hs, hx, State.afterTurn_of_cons he]
  simp [State.acceptBeat, State.withHw, hs]

theorem decodeInBeat_count_data (b : Byte) : decodeInBeat .count (beatWord 0b00#2 b) = .inDataCount b := by
  simp [decodeInBeat, decodeBeatCount]

/-- The bytes that the counters have room for, and END (41_frequency_counter.md R141, R143). -/
theorem run_countBeats {s : State} {bytes : List Byte} {es : List Event} {ws : List BeatWord} (hp : s.hw.phase = .count)
    (hfit : s.hw.total + bytes.length ≤ cntMax s.cfg) (he : s.env.events = List.replicate (bytes.length + 1) .source ++ es)
    (hs : s.env.src = passBeats bytes ++ ws) : core.run (bytes.length + 1) s = .next (s.countedAll bytes es ws) := by
  induction bytes generalizing s with
  | nil =>
    have hx := exec_inEndCount_of_count (s := s.afterTurn) hp 0#8
    have hd : decodeInBeat s.hw.phase 0x100#10 = .inEndCount 0#8 := by rw [hp]; rfl
    rw [← hd] at hx
    exact run_succ_of_step (M := core) (n := 0) (step_source_count he hs hx)
  | cons b bytes ih =>
    rw [List.length_cons] at hfit
    have hx := exec_inDataCount_of_room (s := s.afterTurn) hp (by simp only [State.afterTurn_hw, State.afterTurn_cfg]; omega) b
    rw [← decodeInBeat_count_data, ← hp] at hx
    rw [List.length_cons, run_succ_of_step (M := core) (step_source_count he hs hx), ih]
    · rfl
    · exact hp
    · simp only [Hw.countSymbol_total, State.afterTurn_hw]; omega
    · rfl
    · rfl

/-- In IDLE the histogram is empty (10_state.md R22). -/
theorem Hw.CountInv.histAt_of_idle {hw : Hw} {c : Config} (h : hw.CountInv c) (hp : hw.phase = .idle) (b : Byte) :
    hw.histAt b = 0 := by
  have hle := histAt_le_sum hw b
  rw [← h.total, h.idle hp] at hle
  exact Nat.le_zero.1 hle

/-- COUNT and a pass 1, from IDLE: TOTAL and HIST are the bytes' own (40_commands.md R123, 41_frequency_counter.md R146). -/
theorem State.Inv.run_passOne {s : State} (h : s.Inv) (hp : s.hw.phase = .idle) {bytes : List Byte} {es : List Event}
    {ws : List BeatWord} (hfit : bytes.length ≤ cntMax s.cfg)
    (he : s.env.events = .hostWrite cmdAddr 2#32 :: (List.replicate (bytes.length + 1) .source ++ es))
    (hs : s.env.src = passBeats bytes ++ ws) :
    ∃ t : State, core.run (bytes.length + 2) s = .next t ∧ t.hw.phase = .counted ∧ t.env = { s.env with events := es, src := ws } ∧
      t.hw.outq = s.hw.outq ∧ t.hw.total = bytes.length ∧ ∀ b, t.hw.histAt b = bytes.count b := by
  have htotal := h.count.idle hp
  refine ⟨_, (run_succ_of_step (M := core) (step_count he hp)).trans (run_countBeats rfl ?fit rfl hs), rfl, rfl, ?outq, ?total,
    fun b => ?hist⟩
  case fit => exact (congrArg (· + bytes.length) htotal).trans_le (by rwa [Nat.zero_add])
  case outq => exact Hw.countAll_outq _ bytes
  case total => exact (Hw.countAll_total _ bytes).trans <| (congrArg (· + bytes.length) htotal).trans (Nat.zero_add _)
  case hist => exact (Hw.countAll_histAt _ bytes b).trans <|
    (congrArg (· + bytes.count b) (h.count.histAt_of_idle hp b)).trans (Nat.zero_add _)

/-- NSYM is the number of distinct bytes counted (41_frequency_counter.md R146). -/
theorem Hw.CountInv.nsym_of_count {hw : Hw} {c : Config} (h : hw.CountInv c) {bytes : List Byte}
    (hh : ∀ b, hw.histAt b = bytes.count b) : hw.nsym = bytes.dedup.length := by
  have hperm : hw.present.Perm bytes.dedup := (List.perm_ext_iff_of_nodup (present_nodup hw) bytes.nodup_dedup).2 fun b => by
    rw [mem_present, hh, List.count_pos_iff, List.mem_dedup]
  rw [h.nsym, hperm.length_eq]

/-! ## The build -/

/-- The same counters of pass 1, as far as the later passes read them, and the same OUTQ (10_state.md R24, R25, R38). -/
structure Hw.SameInput (hw hw' : Hw) : Prop where
  histAt : hw'.histAt = hw.histAt
  total : hw'.total = hw.total
  outq : hw'.outq = hw.outq

theorem Hw.SameInput.refl (hw : Hw) : hw.SameInput hw := ⟨rfl, rfl, rfl⟩

theorem Hw.SameInput.trans {hw hw1 hw2 : Hw} (h : hw.SameInput hw1) (h' : hw1.SameInput hw2) : hw.SameInput hw2 :=
  ⟨h'.histAt.trans h.histAt, h'.total.trans h.total, h'.outq.trans h.outq⟩

theorem Hw.startEncode_sameInput (hw : Hw) : hw.SameInput hw.startEncode := ⟨rfl, rfl, rfl⟩

/-- The core's pending step leaves the counters of pass 1 and OUTQ as they are. -/
theorem State.Inv.coreStep_sameInput {s : State} (h : s.Inv) (hp : s.hw.phase = .build) :
    ∃ hw', exec (coreStep s.hw.bsub) s = .next (s.withHw hw') ∧ s.hw.SameInput hw' := by
  cases hb : s.hw.bsub with
  | sort => exact ⟨_, exec_sort_of_enabled hp hb, rfl, rfl, rfl⟩
  | merge =>
    obtain ⟨hslot, a, b, rest, hs⟩ := h.build.merge_ready hp hb
    exact ⟨_, exec_merge_of_enabled (m := ⟨s.hw.nnodes, hslot⟩) hp hb hs rfl, rfl, rfl, rfl⟩
  | codegen =>
    obtain ⟨r, v, code, hx⟩ := h.build.exec_codegen hp hb
    exact ⟨_, hx, rfl, rfl, rfl⟩

/-- The core's turns of a BUILD touch nothing of the environment but the list of turns. -/
theorem State.Building.run_sameInput {s : State} {n k j : Nat} {es : List Event} (h : s.Building n (k + j))
    (he : s.env.events = List.replicate j .core ++ es) :
    ∃ t : State, core.run j s = .next t ∧ t.Building n k ∧ t.env = { s.env with events := es } ∧ s.hw.SameInput t.hw := by
  induction j generalizing s with
  | zero => exact ⟨s, rfl, h, by rw [← show s.env.events = es from he], .refl _⟩
  | succ j ih =>
    obtain ⟨u, hu, heu, hbu⟩ := h.step he
    obtain ⟨hw', hx, hsame⟩ := State.Inv.coreStep_sameInput (s := s.afterTurn) (h.inv.of_moves rfl .stays) h.phase_build
    obtain rfl := Host.Outcome.next.inj (hu.symm.trans ((step_core_of_build he h.phase_build).trans hx))
    obtain ⟨t, hrun, hbt, henv, hsame'⟩ := ih hbu heu
    refine ⟨t, (run_succ_of_step (M := core) hu).trans hrun, hbt, ?_, hsame.trans hsame'⟩
    rw [henv, State.withHw_env, State.afterTurn_of_cons he]

/-- BUILD and the core's steps, from COUNTED (40_commands.md R124, 43_tree_builder.md R184). -/
theorem State.Inv.run_build {s : State} (h : s.Inv) (hp : s.hw.phase = .counted) {es : List Event}
    (he : s.env.events = .hostWrite cmdAddr 3#32 :: (List.replicate (max s.hw.nsym 1 + 1) .core ++ es)) :
    ∃ t : State, core.run (max s.hw.nsym 1 + 2) s = .next t ∧ t.Inv ∧ t.hw.phase = .ready ∧ t.env = { s.env with events := es } ∧
      s.hw.SameInput t.hw := by
  have hstep := step_build he hp
  have hu := stepKeepsTheInvariant _ _ h hstep
  obtain ⟨t, hrun, ht, henv, hsame⟩ := State.Building.run_sameInput (k := 0) (es := es)
    (by rw [Nat.zero_add]; exact hu.building rfl rfl) rfl
  exact ⟨t, (run_succ_of_step (M := core) hstep).trans hrun, ht.inv, ht.phase_ready, henv, hsame.histAt, hsame.total, hsame.outq⟩

/-- After a BUILD every symbol counted has a code (44_code_generator.md R203, R204). -/
theorem State.Inv.code_pos {s : State} (h : s.Inv) (hp : s.hw.phase = .ready ∨ s.hw.phase = .encode ∨ s.hw.phase = .done)
    {b : Byte} (hb : 0 < s.hw.histAt b) : 0 < (s.hw.codeAt b).len := by
  obtain ⟨t, hf, -, -, hc⟩ | ⟨hf, -⟩ := h.build.built hp
  · obtain ⟨p, hp, e⟩ := hc.entry (hf.mem_sole_syms.2 hb)
    rw [e]
    exact (HTree.codes_length hf.syms_length_le hp).1
  · have hmem := hf.syms.mem_iff.2 (mem_present.2 hb)
    cases hmem

/-! ## The whole run -/

/-- ENCODE and a pass 2, from READY (40_commands.md R125). -/
theorem State.Inv.run_encode {s : State} (h : s.Inv) (hp : s.hw.phase = .ready) (hq : s.hw.outq = []) {bytes : List Byte}
    {ws : List BeatWord} (htotal : s.hw.total = bytes.length) (hcodes : ∀ b ∈ bytes, 0 < (s.hw.codeAt b).len)
    (he : s.env.events = .hostWrite cmdAddr 4#32 :: passTwoTurns bytes.length) (hs : s.env.src = passBeats bytes ++ ws) :
    ∃ (t : State) (out : List Byte), core.run ((passTwoTurns bytes.length).length + 1) s = .next t ∧
      (s.commanded s.hw.startEncode (passTwoTurns bytes.length)).Delivered t bytes out ∧ t.env.events = [] ∧ t.env.src = ws := by
  have hstep := step_encode he hp
  obtain ⟨t, out, hrun, hd, het, hst⟩ := (stepKeepsTheInvariant _ _ h hstep).run_passTwo rfl rfl hq htotal hcodes rfl hs
  exact ⟨t, out, (run_succ_of_step (M := core) hstep).trans hrun, hd, het, hst⟩

theorem pipelineTurns_eq (bytes : List Byte) : pipelineTurns bytes =
    .hostWrite cmdAddr 2#32 :: (List.replicate (bytes.length + 1) .source ++
      .hostWrite cmdAddr 3#32 :: (List.replicate (max bytes.dedup.length 1 + 1) .core ++
        .hostWrite cmdAddr 4#32 :: passTwoTurns bytes.length)) := by
  simp [pipelineTurns]

theorem pipelineTurns_length (bytes : List Byte) : (pipelineTurns bytes).length =
    (bytes.length + 2) + ((max bytes.dedup.length 1 + 2) + ((passTwoTurns bytes.length).length + 1)) := by
  simp [pipelineTurns_eq]; omega

/-- A pass 2 leaves the counters of pass 1 as they are, and OUTQ as it found it. -/
theorem State.Delivered.sameInput {s t : State} {bytes out : List Byte} (h : s.Delivered t bytes out) : s.hw.SameInput t.hw := by
  rw [h.frame]; exact ⟨rfl, rfl, rfl⟩

theorem Hw.ErrorInv.errCode_of_ne_error {hw : Hw} (h : hw.ErrorInv) (hp : hw.phase ≠ .error) : hw.errCode = .none :=
  not_not.1 (mt h.code.2 hp)

/-- Settles O34: pass 1 counts the bytes, so the build gives each of them a code, and pass 2 delivers the codes. -/
theorem wholeRunRoundTrips : Obligations.WholeRunRoundTrips := by
  intro s bytes more h hp hq hfit he hs
  rw [pipelineTurns_eq] at he
  obtain ⟨u, hrun1, hpu, henvu, hqu, htotal, hhist⟩ := h.run_passOne hp hfit he hs
  have hu := h.of_run hrun1
  obtain ⟨v, hrun2, hv, hpv, henvv, hbuilt⟩ := hu.run_build hpu (by rw [henvu, hu.count.nsym_of_count hhist])
  rw [henvu] at henvv
  have hcodes : ∀ b ∈ bytes, 0 < (v.hw.codeAt b).len := fun b hb =>
    hv.code_pos (.inl hpv) (by rw [hbuilt.histAt, hhist]; exact List.count_pos_iff.2 hb)
  obtain ⟨t, out, hrun3, hd, het, hst⟩ := hv.run_encode hpv (hbuilt.outq.trans (hqu.trans hq)) (hbuilt.total.trans htotal) hcodes
    (by rw [henvv]) (by rw [henvv])
  have hsame := (hbuilt.trans v.hw.startEncode_sameInput).trans hd.sameInput
  refine ⟨t, out, ?run, hd.phase, hsame.outq.trans (hqu.trans hq), hd.inv.error.errCode_of_ne_error (by simp [hd.phase]), het, hst,
    ?taken, hsame.total.trans htotal, by rw [hd.frame], fun b => by rw [hsame.histAt, hhist], hd.decodes hcodes⟩
  case run =>
    rw [pipelineTurns_length, run_add_of_run (M := core) hrun1, ← hu.count.nsym_of_count hhist, run_add_of_run (M := core) hrun2, hrun3]
  case taken => rw [hd.taken, State.commanded, henvv]

end Sys2Proof.Machine
